-- ==== Sys2Proof/Word.lean ====
section
/-! DEFINITION. The three widths the block has: a byte of a frame or byte buffer, a 16-bit word (operand,
register payload, CRC), and the 32-bit word of one host access (00_scope.md R9, R10; 20_memory.md R53). -/

namespace Sys2Proof

/-- A byte: an unsigned 8-bit value (R10). -/
abbrev Byte := BitVec 8

/-- A word: an unsigned 16-bit value (R10). -/
abbrev Word := BitVec 16

/-- The 32-bit word one host access moves, and the width of a command word (R53, R71). -/
abbrev DWord := BitVec 32

end Sys2Proof
end

