-- ==== Sys2Proof/Syntax.lean ====
section
/-! DEFINITION. The instructions: one constructor per row of spec/opcode_table.json. Rows of format CMD32 are
the commands a host write to `CMD` starts (30_encoding.md R70, R72); the table lists ENC_READ twice (0x310 and
0x410), so it has two constructors. Rows of format WIRE_FRAME are the frames of the wire (R77-R84); what a step
of the machine does with one is log 4. -/

namespace Sys2Proof

/-- What CRC_VERIFY checks, `SRC` of R73. -/
inductive CrcSource where
  /-- `SRC = 0`: `RXB[0:RXLEN)`. -/
  | rxb
  /-- `SRC = 1`: `TXB[0:ARG0)`. -/
  | txb
  deriving DecidableEq, Repr

/-- Order of the two bytes of a written value, `ORD` of R73 (41_encoder.md R121). -/
inductive ByteOrder where
  /-- `ORD = 0`: high byte first. -/
  | highFirst
  /-- `ORD = 1`: low byte first. -/
  | lowFirst
  deriving DecidableEq, Repr

/-- The two device-family forms of the reset-energy request, `FORM` of R73 (R81). -/
inductive ResetForm where
  /-- `FORM = 0`: no payload. -/
  | bare
  /-- `FORM = 1`: payload `[0x00][phase_selector]`. -/
  | phase
  deriving DecidableEq, Repr

/-- Which side of the link a frame on the wire comes from: the polling master or a device. The frame formats of
R77-R82 are requests, those of R83 and R84 responses. -/
inductive Origin where
  | request
  | response
  deriving DecidableEq, Repr

/-- The rows of the opcode table. A frame's CRC is no operand: it is computed from the other bytes (R77). -/
inductive Instr where
  /-- CRC_GEN (R103), operand `APPEND`. -/
  | crcGen (append : Bool)
  /-- CRC_VERIFY (R104), operand `SRC`. -/
  | crcVerify (src : CrcSource)
  /-- ENC_READ with `FC = 0x03` (R127). -/
  | encReadHolding
  /-- ENC_READ with `FC = 0x04` (R127). -/
  | encReadInput
  /-- ENC_WRITE_SINGLE (R128), operand `ORD`. -/
  | encWriteSingle (ord : ByteOrder)
  /-- ENC_WRITE_MULTIPLE (R129), operand `ORD`. -/
  | encWriteMultiple (ord : ByteOrder)
  /-- ENC_CUSTOM (R131), operand `FC`. -/
  | encCustom (fc : Byte)
  /-- ENC_RESET_ENERGY (R130), operand `FORM`. -/
  | encResetEnergy (form : ResetForm)
  /-- DIR_TX (R141). -/
  | dirTx
  /-- DIR_RX (R142). -/
  | dirRx
  /-- TX_SEND (R143). -/
  | txSend
  /-- RX_DISCARD (R144). -/
  | rxDiscard
  /-- RX_READ (R165). -/
  | rxRead
  /-- DEC_VALIDATE (R171). -/
  | decValidate
  /-- DEC_EXTRACT (R176). -/
  | decExtract
  /-- FRAME_READ_HOLDING_REQ (R78), function 0x03. -/
  | frameReadHoldingReq (addr : Byte) (start count : Word)
  /-- FRAME_READ_INPUT_REQ (R78), function 0x04. -/
  | frameReadInputReq (addr : Byte) (start count : Word)
  /-- FRAME_WRITE_SINGLE_REQ (R79); `value` holds the two value bytes in the order they are sent. -/
  | frameWriteSingleReq (addr : Byte) (reg : Word) (value : Byte × Byte)
  /-- FRAME_WRITE_MULTIPLE_REQ (R80); each value as its two bytes in the order they are sent. -/
  | frameWriteMultipleReq (addr : Byte) (start : Word) (values : List (Byte × Byte))
  /-- FRAME_RESET_ENERGY_REQ (R81): bare, or with a phase selector. -/
  | frameResetEnergyReq (addr : Byte) (phase : Option Byte)
  /-- FRAME_CUSTOM_REQ (R82): any function code and extra bytes. -/
  | frameCustomReq (addr fc : Byte) (extra : List Byte)
  /-- FRAME_EXCEPTION_RSP (R83); `func` is the request's function code, bit 7 is added on the wire. -/
  | frameExceptionRsp (addr : Byte) (func : BitVec 7) (code : Byte)
  /-- FRAME_READ_RSP (R84); byte 1 has bit 7 clear, the byte count is the length of `data`. -/
  | frameReadRsp (addr : Byte) (func : BitVec 7) (data : List Byte)
  deriving DecidableEq, Repr

end Sys2Proof
end

