-- ==== Sys2Proof/Machine/Wire.lean ====
section
/-! DEFINITION. The pure functions of the block: byte halves, the CRC16 of 40_crc.md, the frame layouts of
30_encoding.md R77-R84 and the encoding functions of 41_encoder.md R121-R126. The commands, the decoder and the
encoder all use these, so a layout is said once. -/

namespace Sys2Proof

/-- `hi(w) = w[15:8]` (R11). -/
def hi (w : Word) : Byte := w.extractLsb' 8 8

/-- `lo(w) = w[7:0]` (R11). -/
def lo (w : Word) : Byte := w.extractLsb' 0 8

/-- The word with high byte `h` and low byte `l`: `(zext_16(h) << 8) OR zext_16(l)` (R102, R175). -/
def join (h l : Byte) : Word := h ++ l

/-- `le16(c) = [lo(c), hi(c)]` (R11). -/
def le16 (c : Word) : List Byte := [lo c, hi c]

/-- One of the eight shifts of R100. -/
def crcBit (c : Word) : Word := if c.getLsbD 0 then (c >>> 1) ^^^ 0xA001#16 else c >>> 1

/-- `n` shifts of R100. -/
def crcBits : Nat → Word → Word
  | 0, c => c
  | n + 1, c => crcBits n (crcBit c)

/-- R100 for one byte: XOR it into the low half, then eight shifts. -/
def crcByte (c : Word) (b : Byte) : Word := crcBits 8 (c ^^^ b.setWidth 16)

/-- R100 from the register value `c` on. -/
def crcFrom (c : Word) : List Byte → Word
  | [] => c
  | b :: bs => crcFrom (crcByte c b) bs

/-- `crc16(S)` (R100). -/
def crc16 (S : List Byte) : Word := crcFrom 0xFFFF#16 S

/-- `crc16_le(S)` (R101). -/
def crc16le (S : List Byte) : List Byte := le16 (crc16 S)

/-- `F[i]`; callers keep `i` inside `F`. -/
def byteAt (F : List Byte) (i : Nat) : Byte := F.getD i 0

/-- `F[0:|F|-2)`, what `verify` computes its CRC over. -/
def body (F : List Byte) : List Byte := F.take (F.length - 2)

/-- `verify(F)` (R102): false below two bytes (D16). -/
def verify (F : List Byte) : Bool :=
  decide (2 ≤ F.length) &&
    decide (crc16 (body F) = join (byteAt F (F.length - 1)) (byteAt F (F.length - 2)))

/-- A frame: the bytes `P` and then their CRC, low byte first (R77). -/
def sealed (P : List Byte) : List Byte := P ++ crc16le P

/-- `bytes(v, ord)` as a pair, first byte sent first (R121). -/
def orderPair (ord : ByteOrder) (v : Word) : Byte × Byte :=
  match ord with
  | .highFirst => (hi v, lo v)
  | .lowFirst => (lo v, hi v)

/-- The bytes of a list of pairs, in order. -/
def unpair : List (Byte × Byte) → List Byte
  | [] => []
  | (a, b) :: r => a :: b :: unpair r

/-- A byte list of even length as pairs. -/
def pairUp : List Byte → Option (List (Byte × Byte))
  | [] => some []
  | [_] => none
  | a :: b :: r => (pairUp r).map ((a, b) :: ·)

/-- The read request of R78 for function `fc`. -/
def encodeRead (fc a : Byte) (start count : Word) : List Byte :=
  sealed [a, fc, hi start, lo start, hi count, lo count]

/-- The write-single request of R79 with the value's bytes in the order sent. -/
def writeSingleFrame (a : Byte) (reg : Word) (v : Byte × Byte) : List Byte :=
  sealed [a, 0x06#8, hi reg, lo reg, v.1, v.2]

/-- `encode_write_single` (R123). -/
def encodeWriteSingle (a : Byte) (reg value : Word) (ord : ByteOrder) : List Byte :=
  writeSingleFrame a reg (orderPair ord value)

/-- The write-multiple request of R80 with each value's bytes in the order sent: the count is the number of
values, the byte count twice that. -/
def writeMultipleFrame (a : Byte) (start : Word) (vs : List (Byte × Byte)) : List Byte :=
  sealed ([a, 0x10#8, hi start, lo start, hi (BitVec.ofNat 16 vs.length), lo (BitVec.ofNat 16 vs.length),
    BitVec.ofNat 8 (2 * vs.length)] ++ unpair vs)

/-- `encode_write_multiple` (R124). -/
def encodeWriteMultiple (a : Byte) (start : Word) (V : List Word) (ord : ByteOrder) : List Byte :=
  writeMultipleFrame a start (V.map (orderPair ord))

/-- `encode_custom` (R125). -/
def encodeCustom (a fc : Byte) (X : List Byte) : List Byte := sealed ([a, fc] ++ X)

/-- The reset-energy request of R81, bare or with a phase selector. -/
def resetEnergyFrame (a : Byte) : Option Byte → List Byte
  | none => encodeCustom a 0x42#8 []
  | some ph => encodeCustom a 0x42#8 [0x00#8, ph]

/-- `encode_reset_energy` (R126). -/
def encodeResetEnergy (a : Byte) (form : ResetForm) (phase : Byte) : List Byte :=
  match form with
  | .bare => resetEnergyFrame a none
  | .phase => resetEnergyFrame a (some phase)

/-- Bit 7 of a frame's byte 1, which marks an exception response (R83, R87). -/
def excBit (b : Byte) : Bool := b.getLsbD 7

/-- The exception response of R83. -/
def exceptionFrame (a : Byte) (func : BitVec 7) (code : Byte) : List Byte :=
  sealed [a, func.setWidth 8 ||| 0x80#8, code]

/-- The normal read response of R84; the byte count is the number of data bytes. -/
def readResponseFrame (a : Byte) (func : BitVec 7) (data : List Byte) : List Byte :=
  sealed ([a, func.setWidth 8, BitVec.ofNat 8 data.length] ++ data)

/-- The row of R78-R81 that the request with function code `fc` and payload `X` is, where it has the exact
layout of one; every other request is a custom frame (R82). Read from the table's match values, the more
specific row first (log 5). -/
def requestRow? (a fc : Byte) (X : List Byte) : Option Instr :=
  if fc = 0x03#8 then
    match X with
    | [sh, sl, ch, cl] => some (.frameReadHoldingReq a (join sh sl) (join ch cl))
    | _ => none
  else if fc = 0x04#8 then
    match X with
    | [sh, sl, ch, cl] => some (.frameReadInputReq a (join sh sl) (join ch cl))
    | _ => none
  else if fc = 0x06#8 then
    match X with
    | [rh, rl, v1, v2] => some (.frameWriteSingleReq a (join rh rl) (v1, v2))
    | _ => none
  else if fc = 0x10#8 then
    match X with
    | sh :: sl :: ch :: cl :: bc :: vals =>
      match pairUp vals with
      | some vs =>
        if bc.toNat = 2 * vs.length ∧ (join ch cl).toNat = vs.length then
          some (.frameWriteMultipleReq a (join sh sl) vs)
        else none
      | none => none
    | _ => none
  else if fc = 0x42#8 then
    match X with
    | [] => some (.frameResetEnergyReq a none)
    | [z, ph] => if z = 0x00#8 then some (.frameResetEnergyReq a (some ph)) else none
    | _ => none
  else none

end Sys2Proof
end

