-- ==== Sys2Proof/WellFormed.lean ====
section
/-! DEFINITION. Which instruction terms are encodings of the spec. A command's operands are whole fields of the
command word, so every command is well formed; a wire frame is bounded by its one-byte length field, and a
custom frame must not have the layout of another row. -/

namespace Sys2Proof

/-- Well-formed instructions. Write-multiple needs `2n ≤ 255` (R80, R124); a read response's byte count is one
byte (R84); a custom frame has at most 252 extra bytes, the largest `P_XB_CAP` (R9), and is not one of the rows
of R78-R81 (log 5). -/
def Instr.wf : Instr → Bool
  | .crcGen _ => true
  | .crcVerify _ => true
  | .encReadHolding => true
  | .encReadInput => true
  | .encWriteSingle _ => true
  | .encWriteMultiple _ => true
  | .encCustom _ => true
  | .encResetEnergy _ => true
  | .dirTx => true
  | .dirRx => true
  | .txSend => true
  | .rxDiscard => true
  | .rxRead => true
  | .decValidate => true
  | .decExtract => true
  | .frameReadHoldingReq _ _ _ => true
  | .frameReadInputReq _ _ _ => true
  | .frameWriteSingleReq _ _ _ => true
  | .frameWriteMultipleReq _ _ vs => decide (vs.length ≤ 127)
  | .frameResetEnergyReq _ _ => true
  | .frameCustomReq a fc extra => decide (extra.length ≤ 252) && (requestRow? a fc extra).isNone
  | .frameExceptionRsp _ _ _ => true
  | .frameReadRsp _ _ data => decide (data.length ≤ 255)

end Sys2Proof
end

