-- ==== Sys2Proof/Decode.lean ====
section
/-! DEFINITION. The decoder, total on every command word (30_encoding.md R70-R76) and every frame on the wire
(R77-R84), rejecting by name; then the encoder, from the same tables. -/

namespace Sys2Proof

/-- Why a command word or a frame is no row of the table. -/
inductive DecodeError where
  /-- `OP` is not in R72. -/
  | unknownOpcode
  /-- `w[31:17] ≠ 0` (R75). -/
  | reservedBits
  /-- `FC` has a value the command does not take (R75). -/
  | functionCode
  /-- `MOD = 1` in a command that has none (R75). -/
  | modifier
  /-- A frame with no room for address, function and CRC (R77). -/
  | frameTooShort
  /-- A frame whose trailing CRC does not match (R77, R102). -/
  | frameCrc
  /-- A frame whose length fits no row (R82-R84). -/
  | frameLength
  deriving DecidableEq, Repr

/-- What a step fetches: a command word written to `CMD`, or the bytes of a burst on the wire. -/
inductive Fetched where
  | command (w : DWord)
  | frame (o : Origin) (bytes : List Byte)
  deriving DecidableEq, Repr

/-- `OP`, bits [7:0] (R71). -/
def opField (w : DWord) : Byte := w.extractLsb' 0 8

/-- `FC`, bits [15:8] (R71). -/
def fcField (w : DWord) : Byte := w.extractLsb' 8 8

/-- `MOD`, bit [16] (R71). -/
def modField (w : DWord) : Bool := w.getLsbD 16

/-- The reserved bits [31:17] (R71). -/
def reservedField (w : DWord) : BitVec 15 := w.extractLsb' 17 15

/-- A command whose FC column is "0" and whose MOD column is "0/1" (R72). -/
def takesMod (w : DWord) (k : Bool → Instr) : Except DecodeError Instr :=
  if fcField w = 0 then .ok (k (modField w)) else .error .functionCode

/-- A command whose FC and MOD columns are "0" (R72). -/
def takesNothing (w : DWord) (i : Instr) : Except DecodeError Instr :=
  if fcField w = 0 then (if modField w then .error .modifier else .ok i) else .error .functionCode

/-- ENC_READ: `FC` is 0x03 or 0x04, `MOD` is 0 (R72, R75). -/
def takesReadCode (w : DWord) : Except DecodeError Instr :=
  if modField w then .error .modifier
  else if fcField w = 0x03#8 then .ok .encReadHolding
  else if fcField w = 0x04#8 then .ok .encReadInput
  else .error .functionCode

/-- ENC_CUSTOM: any `FC`, `MOD` is 0 (R72). -/
def takesAnyCode (w : DWord) : Except DecodeError Instr :=
  if modField w then .error .modifier else .ok (.encCustom (fcField w))

/-- `SRC` (R73). -/
def srcOf (m : Bool) : CrcSource := if m then .txb else .rxb

/-- `ORD` (R73). -/
def ordOf (m : Bool) : ByteOrder := if m then .lowFirst else .highFirst

/-- `FORM` (R73). -/
def formOf (m : Bool) : ResetForm := if m then .phase else .bare

/-- The opcode map of R72. -/
def decodeCommand (w : DWord) : Except DecodeError Instr :=
  if reservedField w ≠ 0 then .error .reservedBits
  else
    match (opField w).toNat with
    | 0x01 => takesMod w .crcGen
    | 0x02 => takesMod w (fun m => .crcVerify (srcOf m))
    | 0x10 => takesReadCode w
    | 0x11 => takesMod w (fun m => .encWriteSingle (ordOf m))
    | 0x12 => takesMod w (fun m => .encWriteMultiple (ordOf m))
    | 0x13 => takesAnyCode w
    | 0x14 => takesMod w (fun m => .encResetEnergy (formOf m))
    | 0x20 => takesNothing w .dirTx
    | 0x21 => takesNothing w .dirRx
    | 0x22 => takesNothing w .txSend
    | 0x23 => takesNothing w .rxDiscard
    | 0x30 => takesNothing w .rxRead
    | 0x31 => takesNothing w .decValidate
    | 0x32 => takesNothing w .decExtract
    | _ => .error .unknownOpcode

/-- A request frame by its function code and payload (R78-R82). -/
def decodeRequest (a fc : Byte) (X : List Byte) : Except DecodeError Instr :=
  match requestRow? a fc X with
  | some i => .ok i
  | none => if X.length ≤ 252 then .ok (.frameCustomReq a fc X) else .error .frameLength

/-- A response frame by bit 7 of its function byte (R83, R84, R87). -/
def decodeResponse (a fc : Byte) (X : List Byte) : Except DecodeError Instr :=
  if excBit fc then
    match X with
    | [code] => .ok (.frameExceptionRsp a (fc.setWidth 7) code)
    | _ => .error .frameLength
  else
    match X with
    | n :: data =>
      if n.toNat = data.length then .ok (.frameReadRsp a (fc.setWidth 7) data) else .error .frameLength
    | [] => .error .frameLength

/-- A frame on the wire: long enough, its CRC right, then by origin (R77). -/
def decodeFrame (o : Origin) (F : List Byte) : Except DecodeError Instr :=
  if F.length < 4 then .error .frameTooShort
  else if verify F then
    match body F with
    | a :: fc :: X =>
      match o with
      | .request => decodeRequest a fc X
      | .response => decodeResponse a fc X
    | _ => .error .frameTooShort
  else .error .frameCrc

/-- The decoder. -/
def decode : Fetched → Except DecodeError Instr
  | .command w => decodeCommand w
  | .frame o F => decodeFrame o F

/-- The command word with fields `OP`, `FC`, `MOD`: `(MOD << 16) | (FC << 8) | OP` (R88). -/
def commandWord (op fc : Byte) (m : Bool) : DWord :=
  (0 : BitVec 15) ++ BitVec.ofBool m ++ fc ++ op

/-- The encoder: the command word (R72, R73) or the bytes (R78-R84) of an instruction. -/
def encode : Instr → Fetched
  | .crcGen append => .command (commandWord 0x01#8 0 append)
  | .crcVerify src => .command (commandWord 0x02#8 0 (src == .txb))
  | .encReadHolding => .command (commandWord 0x10#8 0x03#8 false)
  | .encReadInput => .command (commandWord 0x10#8 0x04#8 false)
  | .encWriteSingle ord => .command (commandWord 0x11#8 0 (ord == .lowFirst))
  | .encWriteMultiple ord => .command (commandWord 0x12#8 0 (ord == .lowFirst))
  | .encCustom fc => .command (commandWord 0x13#8 fc false)
  | .encResetEnergy form => .command (commandWord 0x14#8 0 (form == .phase))
  | .dirTx => .command (commandWord 0x20#8 0 false)
  | .dirRx => .command (commandWord 0x21#8 0 false)
  | .txSend => .command (commandWord 0x22#8 0 false)
  | .rxDiscard => .command (commandWord 0x23#8 0 false)
  | .rxRead => .command (commandWord 0x30#8 0 false)
  | .decValidate => .command (commandWord 0x31#8 0 false)
  | .decExtract => .command (commandWord 0x32#8 0 false)
  | .frameReadHoldingReq a start count => .frame .request (encodeRead 0x03#8 a start count)
  | .frameReadInputReq a start count => .frame .request (encodeRead 0x04#8 a start count)
  | .frameWriteSingleReq a reg v => .frame .request (writeSingleFrame a reg v)
  | .frameWriteMultipleReq a start vs => .frame .request (writeMultipleFrame a start vs)
  | .frameResetEnergyReq a phase => .frame .request (resetEnergyFrame a phase)
  | .frameCustomReq a fc extra => .frame .request (encodeCustom a fc extra)
  | .frameExceptionRsp a func code => .frame .response (exceptionFrame a func code)
  | .frameReadRsp a func data => .frame .response (readResponseFrame a func data)

/-- The frame a WIRE_FRAME row stands for when only its byte 1 is given: address 0, every operand byte 0, the
byte counts that go with no data, and the CRC of those bytes (log 6). The table's match values pick the row, the
wider mask first. -/
def frameOfCode (fc : Byte) : Fetched :=
  if excBit fc then .frame .response (sealed [0, fc, 0])
  else if fc = 0x03#8 ∨ fc = 0x04#8 ∨ fc = 0x06#8 then .frame .request (sealed [0, fc, 0, 0, 0, 0])
  else if fc = 0x10#8 then .frame .request (sealed [0, fc, 0, 0, 0, 0, 0])
  else if fc = 0x42#8 then .frame .request (sealed [0, fc])
  else .frame .response (sealed [0, fc, 0])

/-- An opcode-table word as a step fetches it: 32 bits are a command word, fewer are byte 1 of a wire frame, and
no bits at all the row that fixes none, FRAME_CUSTOM_REQ (log 6). -/
def tableFetch (nbits w : Nat) : Fetched :=
  match nbits with
  | 0 => .frame .request (sealed [0, BitVec.ofNat 8 w])
  | n + 1 => if n + 1 ≤ 8 then frameOfCode (BitVec.ofNat 8 w) else .command (BitVec.ofNat 32 w)

/-- The instruction the decoder reads from an opcode-table word. -/
def decodeTableWord (nbits w : Nat) : Option Instr :=
  match decode (tableFetch nbits w) with
  | .ok i => some i
  | .error _ => none

end Sys2Proof
end

