-- ==== Sys2Proof/Config.lean ====
section
/-! DEFINITION. What an implementation of the block fixes (00_scope.md R9) and the free values the spec leaves
open. The parameters are plain data that State carries unchanged, so a claim over every state is a claim over
every parameter setting; the `opaque` constants have no body and no proof can see their value. -/

namespace Sys2Proof

/-- The implementation parameters of R9. `P_TICK` is left out: no rule depends on it (log 14). `ROUT_CAP` is
the fixed 127 of R9 and is no parameter. -/
structure Params where
  /-- `P_DE_PRESENT`: the block has a direction-enable line (R47). -/
  dePresent : Bool
  /-- `P_EXC_EARLY`: an exception response ends at 5 bytes (R163). -/
  excEarly : Bool
  /-- `P_SETTLE`: ticks waited after switching direction (R141, R142). -/
  settle : Nat
  /-- `P_POST_TX`: ticks waited at the end of TX_SEND (R143). -/
  postTx : Nat
  /-- `P_TXB_CAP`: elements of `TXB`. -/
  txbCap : Nat
  /-- `P_RXB_CAP`: elements of `RXB`. -/
  rxbCap : Nat
  /-- `P_XB_CAP`: elements of `XB`. -/
  xbCap : Nat
  /-- `P_WIN_CAP`: elements of `WIN`. -/
  winCap : Nat
  /-- `P_BASE`: where the host register space sits in the host's address map (R50). -/
  base : Nat
  deriving DecidableEq, Repr

/-- The ranges R9 gives the capacities. -/
abbrev Params.wf (p : Params) : Prop :=
  (9 ≤ p.txbCap ∧ p.txbCap ≤ 256) ∧ (5 ≤ p.rxbCap ∧ p.rxbCap ≤ 256) ∧ p.xbCap ≤ 252 ∧ p.winCap ≤ 127

/-- Free values: the ticks an occurrence takes where the spec says only "a draw" (R38, R39, R251, D34), and the
gap before the line's next byte (R36). Applied to the count of free draws made so far (log 2). -/
opaque Config.draw : Nat → Nat

/-- `P_DE_PRESENT` of the instance that `State.reset` describes: OPEN in the spec (D28), so no body (log 3). -/
opaque Config.dePresent : Bool

/-- `P_POST_TX` of the instance that `State.reset` describes: OPEN in the spec (D7), so no body (log 3). -/
opaque Config.postTx : Nat

/-- The parameters of `State.reset`: R9's values, its two open timing parameters free, and the base address 0
(DESIGN CHOICE, log 3). -/
def Params.default : Params :=
  { dePresent := Config.dePresent, excEarly := true, settle := 1, postTx := Config.postTx,
    txbCap := 256, rxbCap := 256, xbCap := 252, winCap := 123, base := 0 }

end Sys2Proof
end

