-- ==== Sys2Proof/Machine/State.lean ====
section
/-! DEFINITION. The state of the block and its two neighbours (00_scope.md R15), as plain data: the registers of
10_state.md R22, the buffers as one memory (R40-R44, 20_memory.md R52), the stream queues (R36, R37), the tick
counter (R39), the parameters, and the model's own fields that say what the host and the line do next. -/

namespace Sys2Proof.Machine

/-- The buffers' contents: one (address, byte) pair per byte that holds a value, at its offset in the host
register space (20_memory.md R52). An address that is not listed holds no value (10_state.md R49). -/
abbrev Memory := List Host.Cell

/-- The canonical form: addresses strictly rising. No listed entry can equal what an unlisted address reads as,
because an unlisted address holds no value at all. -/
def Memory.wf (m : Memory) : Bool := decide (m.Pairwise (fun x y => x.1 < y.1))

/-- The result codes of `STATUS.RES` (60_exceptions.md R201). -/
inductive ResCode where
  | ok
  | invalidArgument
  | noResponse
  | truncated
  | unterminated
  | addressNeverSeen
  | modbusException
  | crc
  | tooShort
  | rxOverflow
  | direction
  | notValidated
  | illegalCommand
  deriving DecidableEq, Repr

/-- The director's two states (R45). -/
inductive Director where
  | receive
  | transmit
  deriving DecidableEq, Repr

/-- An entry of `RXQ`: a byte and its arrival tick (R36). -/
structure RxEntry where
  byte : Byte
  tick : Nat
  deriving DecidableEq, Repr

/-- An entry of `TXQ`: a byte, the tick it was handed over at, and the level of `DE` then (R37). -/
structure TxEntry where
  byte : Byte
  tick : Nat
  de : Bool
  deriving DecidableEq, Repr

/-- The width of a host access. R53 knows 32 bits and "another width", and names no other width a host can issue:
that 8 and 16 bits have names of their own here, and every further width (64 bits, say) is `other`, is the model's
choice (DESIGN CHOICE, log 18; safe: all of them are BusError). -/
inductive AccessWidth where
  | w8
  | w16
  | w32
  /-- Any width but 8, 16 and 32 bits. -/
  | other
  deriving DecidableEq, Repr

/-- What the host or the line environment does next (00_scope.md R15). -/
inductive Input where
  /-- The host writes `value` at bus address `addr`; at `CMD` this starts a command (R23). -/
  | hostWrite (width : AccessWidth) (addr : Nat) (value : DWord)
  /-- The host reads bus address `addr`. -/
  | hostRead (width : AccessWidth) (addr : Nat)
  /-- The host runs for `ticks` ticks without touching the block (R39). -/
  | hostTime (ticks : Nat)
  /-- A burst of bytes reaches the receiver (R36), from the master's or a device's side of the link. -/
  | line (origin : Origin) (bytes : List Byte)
  deriving DecidableEq, Repr

/-- A value the host has read, with the bus address it read it at. -/
structure BusRead where
  addr : Nat
  value : DWord
  deriving DecidableEq, Repr

/-- The machine's state. `Option` fields and unlisted memory are the spec's own state "holds no value" (R49,
R230), not a missing reset value (log 1). -/
structure State where
  /-- The implementation parameters (R9); no step changes them (R231). -/
  params : Params
  /-- `CMD`, 32 bits: the last command word written (R23). -/
  cmd : DWord
  /-- `STATUS.RES` (R25). -/
  res : ResCode
  /-- `STATUS.EXC`, 8 bits (R26). -/
  exc : Byte
  /-- `STATUS.VALID` (R27). -/
  valid : Bool
  /-- `DIR`, the director's state (R45). -/
  dir : Director
  /-- `DE`, the level of the direction-enable line (R46). -/
  de : Bool
  /-- `SLAVE`, 8 bits, or no value (R29). -/
  slave : Option Byte
  /-- `TIMEOUT`, 32 bits, or no value (R30). -/
  timeout : Option DWord
  /-- `IDLE`, 32 bits, or no value (R31). -/
  idle : Option DWord
  /-- `ARG0`, 16 bits (R32). -/
  arg0 : Word
  /-- `ARG1`, 16 bits (R32). -/
  arg1 : Word
  /-- `CRC`, 16 bits (R33). -/
  crc : Word
  /-- `TXLEN`, a count of at most `P_TXB_CAP` (R34). -/
  txlen : Nat
  /-- `RXLEN`, a count of at most `P_RXB_CAP` (R34). -/
  rxlen : Nat
  /-- `REGCNT`, a count of at most 127 (R34). -/
  regcnt : Nat
  /-- The elements of `TXB`, `RXB`, `XB`, `WIN` and `ROUT` (R40-R44). -/
  mem : Memory
  /-- `RXQ`, oldest first (R36). -/
  rxq : List RxEntry
  /-- `TXQ`, oldest first (R37). -/
  txq : List TxEntry
  /-- `now`, the tick counter (R39). -/
  now : Nat
  /-- The model's own: draws already fixed, next first; an occurrence takes the head (log 2). -/
  draws : List Nat
  /-- The model's own: how many free draws (`Config.draw`) were made (log 2). -/
  drawCount : Nat
  /-- The model's own: what the host and the line do next, next first (log 7). -/
  inputs : List Input
  /-- The model's own: what host reads have returned, oldest first (log 7). -/
  busLog : List BusRead
  deriving DecidableEq, Repr

/-- Why the machine stops: the two model-level faults of 60_exceptions.md R214. -/
inductive Fault where
  /-- A read, by a command or by the host, of a register or buffer element that holds no value. The spec names this
  stop: R49 ("Any read of it, by a command or by the host, is `fault(UnwrittenRead)` in the model"), R12, R214.
  Raised by every meaning that reads `SLAVE`, `TIMEOUT`, `IDLE` or a buffer, where it reads it, and by a host read.
  Safe: hardware goes on with some value (R49), the model stops. -/
  | unwrittenRead
  /-- A host access of another width, misaligned, or at an unmapped offset (20_memory.md R53). Raised by `step`
  alone. Safe: hardware signals a bus error and changes no state, the model stops. -/
  | busError
  deriving DecidableEq, Repr

/-- Why the machine has no meaning to run. -/
inductive Refusal where
  /-- An arm of `exec` without a meaning, by its mnemonic. Raised by no arm of this model. Safe: the model stops
  where hardware goes on. -/
  | notModelled (mnemonic : String)
  deriving DecidableEq, Repr

/-- The state right after reset of a block with parameters `p` whose receiver holds `q` (70_reset_and_hazards.md
R230). `RXQ` at reset is the environment's choice (R230), so it is an argument. -/
def State.resetOf (p : Params) (q : List RxEntry) : State :=
  { params := p, cmd := 0, res := .ok, exc := 0, valid := false, dir := .receive, de := false,
    slave := none, timeout := none, idle := none, arg0 := 0, arg1 := 0, crc := 0xFFFF#16,
    txlen := 0, rxlen := 0, regcnt := 0, mem := [], rxq := q, txq := [], now := 0,
    draws := [], drawCount := 0, inputs := [], busLog := [] }

/-- The machine right after reset (R230), with the parameters of `Params.default` and an empty receiver (DESIGN
CHOICE, logs 3 and 8). -/
def State.reset : State := State.resetOf Params.default []

end Sys2Proof.Machine
end

