-- ==== Sys2Proof/Machine/Ops.lean ====
section
/-! DEFINITION. The operations the meanings share: bytes of the buffer memory, the element windows of
20_memory.md R52, ending a command (00_scope.md R12), time and draws (10_state.md R39), and the stream (R38).
The block has no exception entry and no return from one (60_exceptions.md R200, R210): a failure is a result
code that `finish` stores, and `finish` is the analogue of a return. -/

namespace Sys2Proof.Machine

/-- The byte at address `a`, or none where it holds no value. -/
def Memory.read : Memory → Nat → Option Byte
  | [], _ => none
  | (k, v) :: m, a => if k = a then some v else Memory.read m a

/-- Give address `a` the value `b`. -/
def Memory.write : Memory → Nat → Byte → Memory
  | [], a, b => [(a, b)]
  | (k, v) :: m, a, b =>
    if a < k then (a, b) :: (k, v) :: m
    else if a = k then (a, b) :: m
    else (k, v) :: Memory.write m a b

/-- Every address in `[start, stop)` holds no value afterwards. -/
def Memory.clear (m : Memory) (start stop : Nat) : Memory :=
  m.filter (fun c => !(decide (start ≤ c.1) && decide (c.1 < stop)))

/-- The five buffers (R40-R44). -/
inductive Buf where
  | txb
  | rxb
  | xb
  | win
  | rout
  deriving DecidableEq, Repr

/-- Where a buffer's window starts (20_memory.md R52). -/
def Buf.base : Buf → Nat
  | .txb => 0x0400
  | .rxb => 0x0800
  | .xb => 0x0C00
  | .win => 0x1000
  | .rout => 0x1400

/-- How many elements of a buffer are mapped (R52). -/
def Buf.cap (b : Buf) (p : Params) : Nat :=
  match b with
  | .txb => p.txbCap
  | .rxb => p.rxbCap
  | .xb => p.xbCap
  | .win => p.winCap
  | .rout => 127

/-- Whether a buffer's elements are 16 bits wide (R52). -/
def Buf.wide : Buf → Bool
  | .txb => false
  | .rxb => false
  | .xb => false
  | .win => true
  | .rout => true

/-- Element `i` sits at `base + 4·i` (R52). -/
def Buf.addr (b : Buf) (i : Nat) : Nat := b.base + 4 * i

/-- The byte elements at `a`, `a + 4`, ...: `n` of them, or none if one holds no value. -/
def Memory.bytes (m : Memory) (a : Nat) : Nat → Option (List Byte)
  | 0 => some []
  | n + 1 =>
    match Memory.read m a, Memory.bytes m (a + 4) n with
    | some b, some bs => some (b :: bs)
    | _, _ => none

/-- Store byte elements at `a`, `a + 4`, .... -/
def Memory.storeBytes (m : Memory) (a : Nat) : List Byte → Memory
  | [] => m
  | b :: bs => Memory.storeBytes (Memory.write m a b) (a + 4) bs

/-- The word element at `a`: bits [7:0] at `a`, bits [15:8] at `a + 1` (the byte lanes of R56). -/
def Memory.readWord (m : Memory) (a : Nat) : Option Word :=
  match Memory.read m a, Memory.read m (a + 1) with
  | some l, some h => some (join h l)
  | _, _ => none

/-- Store a word element at `a`. -/
def Memory.writeWord (m : Memory) (a : Nat) (w : Word) : Memory :=
  Memory.write (Memory.write m a (lo w)) (a + 1) (hi w)

/-- The word elements at `a`, `a + 4`, ...: `n` of them, or none if one holds no value. -/
def Memory.words (m : Memory) (a : Nat) : Nat → Option (List Word)
  | 0 => some []
  | n + 1 =>
    match Memory.readWord m a, Memory.words m (a + 4) n with
    | some w, some ws => some (w :: ws)
    | _, _ => none

/-- Store word elements at `a`, `a + 4`, .... -/
def Memory.storeWords (m : Memory) (a : Nat) : List Word → Memory
  | [] => m
  | w :: ws => Memory.storeWords (Memory.writeWord m a w) (a + 4) ws

namespace State

/-- `BUF[i]` of a byte buffer. -/
def byte? (s : State) (b : Buf) (i : Nat) : Option Byte := Memory.read s.mem (b.addr i)

/-- `BUF[i]` of a word buffer. -/
def word? (s : State) (b : Buf) (i : Nat) : Option Word := Memory.readWord s.mem (b.addr i)

/-- `BUF[0:n)` of a byte buffer. -/
def bytes (s : State) (b : Buf) (n : Nat) : Option (List Byte) := Memory.bytes s.mem (b.addr 0) n

/-- `BUF[0:n)` of a word buffer. -/
def words (s : State) (b : Buf) (n : Nat) : Option (List Word) := Memory.words s.mem (b.addr 0) n

/-- `BUF[i] <- F[0]`, `BUF[i+1] <- F[1]`, ... of a byte buffer. -/
def storeBytes (s : State) (b : Buf) (i : Nat) (F : List Byte) : State :=
  { s with mem := Memory.storeBytes s.mem (b.addr i) F }

/-- `BUF[0] <- R[0]`, `BUF[1] <- R[1]`, ... of a word buffer. -/
def storeWords (s : State) (b : Buf) (R : List Word) : State :=
  { s with mem := Memory.storeWords s.mem (b.addr 0) R }

/-- Every element of the buffer holds no value: its whole window of 0x400 bytes is emptied (R52, R165). -/
def emptyBuf (s : State) (b : Buf) : State :=
  { s with mem := Memory.clear s.mem b.base (b.base + 0x400) }

/-- `CRC <- c` (R33). -/
def setCrc (s : State) (c : Word) : State := { s with crc := c }

/-- `TXLEN <- n` (R34). -/
def setTxlen (s : State) (n : Nat) : State := { s with txlen := n }

/-- `RXLEN <- n` (R34). -/
def setRxlen (s : State) (n : Nat) : State := { s with rxlen := n }

/-- `REGCNT <- n` (R34). -/
def setRegcnt (s : State) (n : Nat) : State := { s with regcnt := n }

/-- `VALID <- v` (R27). -/
def setValid (s : State) (v : Bool) : State := { s with valid := v }

/-- `DE <- level` (R12). -/
def setDe (s : State) (level : Bool) : State := { s with de := level }

/-- `DIR <- d` (R45). -/
def setDir (s : State) (d : Director) : State := { s with dir := d }

/-- The reader leaves off at tick `n` with `q` still queued (R162). -/
def leftOff (s : State) (n : Nat) (q : List RxEntry) : State := { s with now := n, rxq := q }

/-- What the host and the line do next (log 7). -/
def setInputs (s : State) (l : List Input) : State := { s with inputs := l }

/-- `finish_exc(code, x)` (R12). -/
def finishExc (s : State) (code : ResCode) (x : Byte) : State := { s with res := code, exc := x }

/-- `finish(code)` (R12): `EXC` is 0. -/
def finish (s : State) (code : ResCode) : State := s.finishExc code 0

/-- `Wait(n)` (R12). -/
def wait (s : State) (n : Nat) : State := { s with now := s.now + n }

/-- The next draw: the next fixed one, else a free value (log 2). -/
def drawValue (s : State) : Nat :=
  match s.draws with
  | d :: _ => d
  | [] => Config.draw s.drawCount

/-- The state once the next draw is taken. -/
def drawn (s : State) : State :=
  { s with draws := s.draws.tail, drawCount := if s.draws.isEmpty then s.drawCount + 1 else s.drawCount }

/-- An unspecified finite number of ticks passes (R38, R39, R251). -/
def elapse (s : State) : State := s.drawn.wait s.drawValue

/-- The end of a command whose duration is a draw (R39, R251). -/
def complete (s : State) (code : ResCode) : State := (s.finish code).elapse

/-- An illegal command word (30_encoding.md R70). -/
def illegalCommand (s : State) : State := s.complete .illegalCommand

/-- A direction line is configured and the director is not in the state a transfer needs (R140, R143, R165). -/
def misdirected (s : State) (want : Director) : Bool := decide (s.dir ≠ want) && s.params.dePresent

/-- `StreamWrite` of every byte of `F`, in order (R38, R65). -/
def streamWrite (s : State) (F : List Byte) : State :=
  { s with txq := s.txq ++ F.map (fun b => ⟨b, s.now, s.de⟩) }

/-- `StreamFlush()`: returns after a draw of ticks (R38). That it returns is the environment's duty (log 9). -/
def streamFlush (s : State) : State := s.elapse

/-- `while StreamHead() != none: StreamPop()` (R38, R144): the queue's leading entries that have arrived. -/
def discardArrived (s : State) : State :=
  { s with rxq := s.rxq.dropWhile (fun e => decide (e.tick ≤ s.now)) }

/-- The least tick the next byte of the line may arrive at: not before `now` and not before the last entry of
`RXQ` (R36). -/
def earliestArrival (s : State) : Nat :=
  match s.rxq.getLast? with
  | some e => max s.now e.tick
  | none => s.now

/-- The line environment appends one byte to `RXQ`, a free number of ticks after the least tick allowed (R36). -/
def arrive (s : State) (b : Byte) : State :=
  { s.drawn with rxq := s.rxq ++ [⟨b, s.earliestArrival + s.drawValue⟩] }

/-- The line environment appends a burst of bytes to `RXQ`, in order (R36). -/
def deliver (s : State) : List Byte → State
  | [] => s
  | b :: bs => (s.arrive b).deliver bs

end State

end Sys2Proof.Machine
end

