-- ==== Sys2Proof/Machine/Operands.lean ====
section
/-! DEFINITION. The operands of the commands (30_encoding.md R74): the operand registers as naturals, the frame
CRC_VERIFY checks, and the fields a command needs that may hold no value. -/

namespace Sys2Proof.Machine.State

/-- `ARG0` as a natural: `n`, `min_expected_len` or `num_regs` (R74). -/
abbrev arg0n (s : State) : Nat := s.arg0.toNat

/-- `ARG1` as a natural: `n` or `m` (R74). -/
abbrev arg1n (s : State) : Nat := s.arg1.toNat

/-- `RXB[0:RXLEN)`, the response (R41). -/
def response (s : State) : Option (List Byte) := s.bytes .rxb s.rxlen

/-- `TXB[0:TXLEN)`, the frame TX_SEND sends (R34). -/
def frame (s : State) : Option (List Byte) := s.bytes .txb s.txlen

/-- The frame CRC_VERIFY checks (R73, R104). -/
def verifySource (s : State) (src : CrcSource) : Option (List Byte) :=
  match src with
  | .rxb => s.response
  | .txb => s.bytes .txb s.arg0n

/-- RX_READ's `A`, `T`, `I`: `SLAVE`, `TIMEOUT`, `IDLE`, if all three hold values (R161, R165). -/
def readerConfig (s : State) : Option (Byte × Nat × Nat) :=
  match s.slave, s.timeout, s.idle with
  | some a, some t, some i => some (a, t.toNat, i.toNat)
  | _, _, _ => none

end Sys2Proof.Machine.State
end

