-- ==== Sys2Proof/Machine/Crc.lean ====
section
/-! DEFINITION. The commands of the CRC16 engine (40_crc.md R103, R104). -/

namespace Sys2Proof.Machine

/-- CRC_GEN (R103): both length checks, then the CRC, then the append. -/
def execCrcGen (append : Bool) (s : State) : Host.Outcome State Fault Refusal :=
  if s.params.txbCap < s.arg0n then .next (s.complete .invalidArgument)
  else if append && decide (s.params.txbCap < s.arg0n + 2) then .next (s.complete .invalidArgument)
  else
    match s.bytes .txb s.arg0n with
    | none => .fault .unwrittenRead
    | some data =>
      let c := crc16 data
      if append then
        .next ((((s.setCrc c).storeBytes .txb s.arg0n (le16 c)).setTxlen (s.arg0n + 2)).complete .ok)
      else .next ((s.setCrc c).complete .ok)

/-- CRC_VERIFY (R104): `CRC` is written where the frame has room for a trailing CRC, `VALID` never. -/
def execCrcVerify (src : CrcSource) (s : State) : Host.Outcome State Fault Refusal :=
  if src = .txb ∧ s.params.txbCap < s.arg0n then .next (s.complete .invalidArgument)
  else
    match s.verifySource src with
    | none => .fault .unwrittenRead
    | some F =>
      .next ((if 2 ≤ F.length then s.setCrc (crc16 (body F)) else s).complete (if verify F then .ok else .crc))

end Sys2Proof.Machine
end

