-- ==== Sys2Proof/Machine/Flags.lean ====
section
/-! DEFINITION. The status fields and what is computed for them: the codes of `STATUS.RES` (60_exceptions.md
R201), the `STATUS` word (10_state.md R24), the validator's verdict (43_decoder.md R170) and the register
extraction (R175). -/

namespace Sys2Proof.Machine

/-- The value of a result code in `STATUS.RES` (R201). -/
def ResCode.code : ResCode → Byte
  | .ok => 0x00#8
  | .invalidArgument => 0x01#8
  | .noResponse => 0x02#8
  | .truncated => 0x03#8
  | .unterminated => 0x04#8
  | .addressNeverSeen => 0x05#8
  | .modbusException => 0x06#8
  | .crc => 0x07#8
  | .tooShort => 0x08#8
  | .rxOverflow => 0x09#8
  | .direction => 0x0A#8
  | .notValidated => 0x0B#8
  | .illegalCommand => 0x0C#8

/-- `STATUS.DIR` (R24). -/
def Director.bit : Director → Bool
  | .receive => false
  | .transmit => true

/-- The `STATUS` word of R24: `DE` reads 0 where there is no line (R46). -/
def State.statusWord (s : State) : DWord :=
  (0 : BitVec 13) ++ BitVec.ofBool (s.de && s.params.dePresent) ++ BitVec.ofBool s.dir.bit ++
    BitVec.ofBool s.valid ++ s.exc ++ s.res.code

/-- The `CAPS` word of R35. -/
def State.capsWord (s : State) : DWord :=
  (0 : BitVec 30) ++ BitVec.ofBool s.params.excEarly ++ BitVec.ofBool s.params.dePresent

/-- What the validator answers (R170). -/
inductive Verdict where
  | ok
  | modbusException (code : Byte)
  | crcError
  | tooShort
  deriving DecidableEq, Repr

/-- `validate(r)` (R170). -/
def validate (r : List Byte) : Verdict :=
  if r.length < 2 then .tooShort
  else if excBit (byteAt r 1) then
    if r.length < 3 then .tooShort
    else if verify r then .modbusException (byteAt r 2)
    else .crcError
  else if verify r then .ok
  else .crcError

/-- `extract_registers(r, num_regs)` (R175); callers have `3 + 2k ≤ |r|` for the `k` registers taken. -/
def extractRegisters (r : List Byte) (numRegs : Nat) : List Word :=
  (List.range (min numRegs ((byteAt r 2).toNat / 2))).map
    (fun i => join (byteAt r (3 + 2 * i)) (byteAt r (4 + 2 * i)))

end Sys2Proof.Machine
end

