-- ==== Sys2Proof/Machine/Reader.lean ====
section
/-! DEFINITION. The response reader of 43_decoder.md R160-R164: its bookkeeping (10_state.md R48), one poll of
the queue, and the loop over ticks. The bookkeeping exists only inside RX_READ (R48, R230), so it is no field of
State. -/

namespace Sys2Proof.Machine

/-- The reader's bookkeeping: `buf`, `matched`, `seen`, `last` (R48, R162). -/
structure Reader where
  buf : List Byte
  matched : Bool
  seen : Nat
  last : Nat
  deriving DecidableEq, Repr

/-- How a read ends (R160, R164). -/
inductive ReadResult where
  | ok (buf : List Byte)
  | noResponse
  | addressNeverSeen
  | truncated
  | unterminated
  | overflow
  deriving DecidableEq, Repr

/-- `Leff(buf, L)` (R163). -/
def lengthNeeded (excEarly : Bool) (buf : List Byte) (L : Nat) : Nat :=
  if excEarly && decide (2 ≤ buf.length) && excBit (byteAt buf 1) then min L 5 else L

/-- The completion test (1) of R162. -/
def Reader.complete (r : Reader) (excEarly : Bool) (L I now : Nat) : Bool :=
  r.matched && decide (lengthNeeded excEarly r.buf L ≤ r.buf.length) && decide (I ≤ now - r.last)

/-- `classify(seen, matched, buf, L)` (R164). -/
def Reader.classify (r : Reader) (excEarly : Bool) (L : Nat) : ReadResult :=
  if r.seen = 0 then .noResponse
  else if r.matched = false then .addressNeverSeen
  else if r.buf.length < lengthNeeded excEarly r.buf L then .truncated
  else .unterminated

/-- One consumed byte that does not overflow: dropped before the address matches, appended after (R161, R162). -/
def Reader.take (r : Reader) (A : Byte) (now : Nat) (b : Byte) : Reader :=
  if r.matched then { r with buf := r.buf ++ [b], seen := r.seen + 1, last := now }
  else if b = A then { buf := [b], matched := true, seen := r.seen + 1, last := now }
  else { r with seen := r.seen + 1 }

/-- Step (3) of R162, every byte that has arrived by `now`, in order. Answers the queue that is left and the
bookkeeping, or none for the bookkeeping where a byte overflowed `RXB` (that byte is consumed, D13). -/
def Reader.poll (cap : Nat) (A : Byte) (now : Nat) : List RxEntry → Reader → List RxEntry × Option Reader
  | [], r => ([], some r)
  | e :: q, r =>
    if e.tick ≤ now then
      if r.matched && decide (r.buf.length = cap) then (q, none)
      else Reader.poll cap A now q (r.take A now e.byte)
    else (e :: q, some r)

/-- The loop of R162 from tick `now` on, with `left` ticks to the overall timeout: completion first, then the
timeout, then the bytes that have arrived, then the next tick. Answers the result, the tick it ended at and the
queue that is left. -/
def Reader.loop (p : Params) (A : Byte) (L I : Nat) :
    Nat → Nat → List RxEntry → Reader → ReadResult × Nat × List RxEntry
  | 0, now, q, r =>
    if r.complete p.excEarly L I now then (.ok r.buf, now, q)
    else (r.classify p.excEarly L, now, q)
  | left + 1, now, q, r =>
    if r.complete p.excEarly L I now then (.ok r.buf, now, q)
    else
      match Reader.poll p.rxbCap A now q r with
      | (q', some r') => Reader.loop p A L I left (now + 1) q' r'
      | (q', none) => (.overflow, now, q')

/-- `read_response(A, L, T, I)` started at tick `start` on the queue `q` (R160-R164). -/
def readResponse (p : Params) (A : Byte) (L T I start : Nat) (q : List RxEntry) :
    ReadResult × Nat × List RxEntry :=
  Reader.loop p A L I T start q { buf := [], matched := false, seen := 0, last := start }

/-- The code RX_READ reports for a result (R165, R201). -/
def ReadResult.code : ReadResult → ResCode
  | .ok _ => .ok
  | .noResponse => .noResponse
  | .addressNeverSeen => .addressNeverSeen
  | .truncated => .truncated
  | .unterminated => .unterminated
  | .overflow => .rxOverflow

end Sys2Proof.Machine
end

