-- ==== Sys2Proof/Machine/Decoder.lean ====
section
/-! DEFINITION. The commands of the frame decoder: RX_READ (43_decoder.md R165), DEC_VALIDATE (R171) and
DEC_EXTRACT (R176). -/

namespace Sys2Proof.Machine

/-- What RX_READ leaves in `RXB`, `RXLEN` and `STATUS` (R165): the frame on success, nothing on failure. -/
def State.endRead (s : State) (r : ReadResult) : State :=
  match r with
  | .ok buf => (((s.emptyBuf .rxb).storeBytes .rxb 0 buf).setRxlen buf.length).finish .ok
  | _ => ((s.emptyBuf .rxb).setRxlen 0).finish r.code

/-- RX_READ (R165): `VALID` is cleared whatever happens. -/
def execRxRead (s : State) : Host.Outcome State Fault Refusal :=
  if s.misdirected .receive then .next ((s.setValid false).finish .direction)
  else if s.params.rxbCap < s.arg0n then .next ((s.setValid false).finish .invalidArgument)
  else
    match s.readerConfig with
    | none => .fault .unwrittenRead
    | some (a, t, i) =>
      let out := readResponse s.params a s.arg0n t i s.now s.rxq
      .next (((s.setValid false).leftOff out.2.1 out.2.2).endRead out.1)

/-- The fields DEC_VALIDATE writes for a verdict (R171). -/
def State.judge (s : State) (r : List Byte) : Verdict → State
  | .ok => ((s.setValid true).setCrc (crc16 (body r))).finish .ok
  | .tooShort => s.finish .tooShort
  | .crcError => (s.setCrc (crc16 (body r))).finish .crc
  | .modbusException x => (s.setCrc (crc16 (body r))).finishExc .modbusException x

/-- DEC_VALIDATE (R171): `CRC` is written where the validator evaluated `verify`, that is unless the response
was too short. -/
def execDecValidate (s : State) : Host.Outcome State Fault Refusal :=
  match s.response with
  | none => .fault .unwrittenRead
  | some r => .next ((s.setValid false).judge r (validate r)).elapse

/-- DEC_EXTRACT (R176), each element read where the pseudocode reads it: `RXB[2]` gives `k`, a payload that would
reach the CRC is refused before the rest of the response is read, and a read of an element that holds no value
faults (R12, R49). -/
def execDecExtract (s : State) : Host.Outcome State Fault Refusal :=
  if s.valid = false then .next (s.complete .notValidated)
  else if s.rxlen < 3 then .next (s.complete .tooShort)
  else
    match s.byte? .rxb 2 with
    | none => .fault .unwrittenRead
    | some bc =>
      let k := min s.arg0n (bc.toNat / 2)
      if s.rxlen < 3 + 2 * k + 2 then .next (s.complete .tooShort)
      else
        match s.response with
        | none => .fault .unwrittenRead
        | some r => .next (((s.storeWords .rout (extractRegisters r s.arg0n)).setRegcnt k).complete .ok)

end Sys2Proof.Machine
end

