-- ==== Sys2Proof/Machine/Encoder.lean ====
section
/-! DEFINITION. The commands of the frame encoder (41_encoder.md R120-R131). Every one reads `SLAVE` first, then
checks capacity, then writes the frame (R120; log 10 for the order). -/

namespace Sys2Proof.Machine

/-- Step 3 of R120: `TXB[0:|F|) <- F`, `TXLEN <- |F|`, `CRC <- crc16(F[0:|F|-2))`, `finish(OK)`. -/
def State.putFrame (s : State) (F : List Byte) : State :=
  (((s.storeBytes .txb 0 F).setTxlen F.length).setCrc (crc16 (body F))).complete .ok

/-- ENC_READ with `FC = 0x03` (R127, R122). -/
def execEncReadHolding (s : State) : Host.Outcome State Fault Refusal :=
  match s.slave with
  | none => .fault .unwrittenRead
  | some a => .next (s.putFrame (encodeRead 0x03#8 a s.arg0 s.arg1))

/-- ENC_READ with `FC = 0x04` (R127, R122). -/
def execEncReadInput (s : State) : Host.Outcome State Fault Refusal :=
  match s.slave with
  | none => .fault .unwrittenRead
  | some a => .next (s.putFrame (encodeRead 0x04#8 a s.arg0 s.arg1))

/-- ENC_WRITE_SINGLE (R128, R123). -/
def execEncWriteSingle (ord : ByteOrder) (s : State) : Host.Outcome State Fault Refusal :=
  match s.slave with
  | none => .fault .unwrittenRead
  | some a => .next (s.putFrame (encodeWriteSingle a s.arg0 s.arg1 ord))

/-- The capacity condition of ENC_WRITE_MULTIPLE for `n` values (R129). -/
def writeMultipleFits (p : Params) (n : Nat) : Bool :=
  decide (n ≤ p.winCap) && decide (2 * n ≤ 255) && decide (9 + 2 * n ≤ p.txbCap)

/-- ENC_WRITE_MULTIPLE (R129, R124). -/
def execEncWriteMultiple (ord : ByteOrder) (s : State) : Host.Outcome State Fault Refusal :=
  match s.slave with
  | none => .fault .unwrittenRead
  | some a =>
    if writeMultipleFits s.params s.arg1n then
      match s.words .win s.arg1n with
      | none => .fault .unwrittenRead
      | some V => .next (s.putFrame (encodeWriteMultiple a s.arg0 V ord))
    else .next (s.complete .invalidArgument)

/-- ENC_RESET_ENERGY (R130, R126): the phase byte is `ARG0[7:0]`. -/
def execEncResetEnergy (form : ResetForm) (s : State) : Host.Outcome State Fault Refusal :=
  match s.slave with
  | none => .fault .unwrittenRead
  | some a => .next (s.putFrame (encodeResetEnergy a form (lo s.arg0)))

/-- The capacity condition of ENC_CUSTOM for `m` extra bytes (R131). -/
def customFits (p : Params) (m : Nat) : Bool := decide (m ≤ p.xbCap) && decide (4 + m ≤ p.txbCap)

/-- ENC_CUSTOM (R131, R125). -/
def execEncCustom (fc : Byte) (s : State) : Host.Outcome State Fault Refusal :=
  match s.slave with
  | none => .fault .unwrittenRead
  | some a =>
    if customFits s.params s.arg1n then
      match s.bytes .xb s.arg1n with
      | none => .fault .unwrittenRead
      | some X => .next (s.putFrame (encodeCustom a fc X))
    else .next (s.complete .invalidArgument)

end Sys2Proof.Machine
end

