-- ==== Sys2Proof/Machine/Frames.lean ====
section
/-! DEFINITION. The wire frames (30_encoding.md R77-R84) as steps of the machine. No command of the block takes a
frame as its instruction, and a frame on the wire changes nothing of the block's but the receive queue: the line
environment appends the frame's bytes to `RXQ` (10_state.md R36, 20_memory.md R61). For a response that is a
device's answer; for a request it is the local echo R37 allows. Log 4. -/

namespace Sys2Proof.Machine

/-- FRAME_READ_HOLDING_REQ (R78). -/
def execFrameReadHoldingReq (a : Byte) (start count : Word) (s : State) : Host.Outcome State Fault Refusal :=
  .next (s.deliver (encodeRead 0x03#8 a start count))

/-- FRAME_READ_INPUT_REQ (R78). -/
def execFrameReadInputReq (a : Byte) (start count : Word) (s : State) : Host.Outcome State Fault Refusal :=
  .next (s.deliver (encodeRead 0x04#8 a start count))

/-- FRAME_WRITE_SINGLE_REQ (R79). -/
def execFrameWriteSingleReq (a : Byte) (reg : Word) (v : Byte × Byte) (s : State) :
    Host.Outcome State Fault Refusal :=
  .next (s.deliver (writeSingleFrame a reg v))

/-- FRAME_WRITE_MULTIPLE_REQ (R80). -/
def execFrameWriteMultipleReq (a : Byte) (start : Word) (vs : List (Byte × Byte)) (s : State) :
    Host.Outcome State Fault Refusal :=
  .next (s.deliver (writeMultipleFrame a start vs))

/-- FRAME_RESET_ENERGY_REQ (R81). -/
def execFrameResetEnergyReq (a : Byte) (phase : Option Byte) (s : State) : Host.Outcome State Fault Refusal :=
  .next (s.deliver (resetEnergyFrame a phase))

/-- FRAME_CUSTOM_REQ (R82). -/
def execFrameCustomReq (a fc : Byte) (extra : List Byte) (s : State) : Host.Outcome State Fault Refusal :=
  .next (s.deliver (encodeCustom a fc extra))

/-- FRAME_EXCEPTION_RSP (R83). -/
def execFrameExceptionRsp (a : Byte) (func : BitVec 7) (code : Byte) (s : State) :
    Host.Outcome State Fault Refusal :=
  .next (s.deliver (exceptionFrame a func code))

/-- FRAME_READ_RSP (R84). -/
def execFrameReadRsp (a : Byte) (func : BitVec 7) (data : List Byte) (s : State) :
    Host.Outcome State Fault Refusal :=
  .next (s.deliver (readResponseFrame a func data))

end Sys2Proof.Machine
end

