-- ==== Sys2Proof/Machine/Transceiver.lean ====
section
/-! DEFINITION. The commands of the transceiver director and the line (42_transceiver.md R140-R144). -/

namespace Sys2Proof.Machine

/-- Drive the direction line, wait the settle delay, set the director (R141, R142); a no-op where there is no
line (R140). -/
def State.turn (s : State) (level : Bool) (d : Director) : State :=
  if s.params.dePresent then ((s.setDe level).wait s.params.settle).setDir d else s

/-- DIR_TX (R141, R140). -/
def execDirTx (s : State) : Host.Outcome State Fault Refusal := .next ((s.turn true .transmit).finish .ok)

/-- DIR_RX (R142, R140). -/
def execDirRx (s : State) : Host.Outcome State Fault Refusal := .next ((s.turn false .receive).finish .ok)

/-- Write, flush, post-write delay, `finish(OK)` (R143). -/
def State.send (s : State) (F : List Byte) : State :=
  (((s.streamWrite F).streamFlush).wait s.params.postTx).finish .ok

/-- TX_SEND (R143): the direction check comes before `TXB` is read. -/
def execTxSend (s : State) : Host.Outcome State Fault Refusal :=
  match s.frame with
  | some F => .next (if s.misdirected .transmit then s.finish .direction else s.send F)
  | none => if s.misdirected .transmit then .next (s.finish .direction) else .fault .unwrittenRead

/-- RX_DISCARD (R144). Its duration is a draw (R39, log 11). -/
def execRxDiscard (s : State) : Host.Outcome State Fault Refusal := .next (s.discardArrived.complete .ok)

end Sys2Proof.Machine
end

