-- ==== Sys2Proof/Machine/Dispatch.lean ====
section
/-! DEFINITION. One arm per constructor of Instr, each a call of its meaning. -/

namespace Sys2Proof.Machine

def exec (i : Instr) (s : State) : Host.Outcome State Fault Refusal :=
  match i with
  | .crcGen append => Sys2Proof.Machine.execCrcGen append s
  | .crcVerify src => Sys2Proof.Machine.execCrcVerify src s
  | .encReadHolding => Sys2Proof.Machine.execEncReadHolding s
  | .encReadInput => Sys2Proof.Machine.execEncReadInput s
  | .encWriteSingle ord => Sys2Proof.Machine.execEncWriteSingle ord s
  | .encWriteMultiple ord => Sys2Proof.Machine.execEncWriteMultiple ord s
  | .encCustom fc => Sys2Proof.Machine.execEncCustom fc s
  | .encResetEnergy form => Sys2Proof.Machine.execEncResetEnergy form s
  | .dirTx => Sys2Proof.Machine.execDirTx s
  | .dirRx => Sys2Proof.Machine.execDirRx s
  | .txSend => Sys2Proof.Machine.execTxSend s
  | .rxDiscard => Sys2Proof.Machine.execRxDiscard s
  | .rxRead => Sys2Proof.Machine.execRxRead s
  | .decValidate => Sys2Proof.Machine.execDecValidate s
  | .decExtract => Sys2Proof.Machine.execDecExtract s
  | .frameReadHoldingReq a start count => Sys2Proof.Machine.execFrameReadHoldingReq a start count s
  | .frameReadInputReq a start count => Sys2Proof.Machine.execFrameReadInputReq a start count s
  | .frameWriteSingleReq a reg v => Sys2Proof.Machine.execFrameWriteSingleReq a reg v s
  | .frameWriteMultipleReq a start vs => Sys2Proof.Machine.execFrameWriteMultipleReq a start vs s
  | .frameResetEnergyReq a phase => Sys2Proof.Machine.execFrameResetEnergyReq a phase s
  | .frameCustomReq a fc extra => Sys2Proof.Machine.execFrameCustomReq a fc extra s
  | .frameExceptionRsp a func code => Sys2Proof.Machine.execFrameExceptionRsp a func code s
  | .frameReadRsp a func data => Sys2Proof.Machine.execFrameReadRsp a func data s

end Sys2Proof.Machine
end

