-- ==== Sys2Proof/Machine/HostBus.lean ====
section
/-! DEFINITION. The host register space (20_memory.md R50-R55): which register or buffer element a bus address
names, what a read returns and what a write stores. A write to `CMD` also starts a command; that is Step.lean's. -/

namespace Sys2Proof.Machine

/-- The host-visible registers (10_state.md R22). -/
inductive Reg where
  | cmd
  | status
  | slave
  | timeout
  | idle
  | arg0
  | arg1
  | crc
  | txlen
  | rxlen
  | regcnt
  | caps
  deriving DecidableEq, Repr

/-- Offsets of R51. -/
def Reg.offset : Reg → Nat
  | .cmd => 0x0000
  | .status => 0x0004
  | .slave => 0x0008
  | .timeout => 0x000C
  | .idle => 0x0010
  | .arg0 => 0x0014
  | .arg1 => 0x0018
  | .crc => 0x001C
  | .txlen => 0x0020
  | .rxlen => 0x0024
  | .regcnt => 0x0028
  | .caps => 0x002C

/-- What a mapped offset names. -/
inductive Target where
  | reg (r : Reg)
  | elem (b : Buf) (i : Nat)
  deriving DecidableEq, Repr

/-- The registers in the order of R51. -/
def registers : List Reg :=
  [.cmd, .status, .slave, .timeout, .idle, .arg0, .arg1, .crc, .txlen, .rxlen, .regcnt, .caps]

/-- The buffers in the order of R52. -/
def buffers : List Buf := [.txb, .rxb, .xb, .win, .rout]

/-- The buffer element at an aligned offset, if its index is mapped (R52). -/
def elementAt (p : Params) (off : Nat) : Option Target :=
  match buffers.find? (fun b => decide (b.base ≤ off) && decide (off < b.base + 0x400)) with
  | some b => if (off - b.base) / 4 < b.cap p then some (.elem b ((off - b.base) / 4)) else none
  | none => none

/-- What the offset names, or none where it is unmapped or misaligned (R51-R53). -/
def targetAt (p : Params) (off : Nat) : Option Target :=
  if off % 4 = 0 then
    match registers.find? (fun r => r.offset == off) with
    | some r => some (.reg r)
    | none => elementAt p off
  else none

/-- What an access names: 32 bits wide, inside the window that starts at `P_BASE` (R50, R53). -/
def target? (p : Params) (w : AccessWidth) (addr : Nat) : Option Target :=
  if w = .w32 ∧ p.base ≤ addr then targetAt p (addr - p.base) else none

namespace State

/-- The value a register reads as, or none where it holds no value (R22, R49). -/
def regValue (s : State) : Reg → Option DWord
  | .cmd => some s.cmd
  | .status => some s.statusWord
  | .slave => s.slave.map (BitVec.setWidth 32)
  | .timeout => s.timeout
  | .idle => s.idle
  | .arg0 => some (s.arg0.setWidth 32)
  | .arg1 => some (s.arg1.setWidth 32)
  | .crc => some (s.crc.setWidth 32)
  | .txlen => some ((BitVec.ofNat 9 s.txlen).setWidth 32)
  | .rxlen => some ((BitVec.ofNat 9 s.rxlen).setWidth 32)
  | .regcnt => some ((BitVec.ofNat 8 s.regcnt).setWidth 32)
  | .caps => some s.capsWord

/-- The value an element reads as, in the low bits of the word (R52), or none where it holds no value (R49). -/
def elemValue (s : State) (b : Buf) (i : Nat) : Option DWord :=
  if b.wide then (s.word? b i).map (BitVec.setWidth 32) else (s.byte? b i).map (BitVec.setWidth 32)

/-- What a host read of the target returns. -/
def view (s : State) : Target → Option DWord
  | .reg r => s.regValue r
  | .elem b i => s.elemValue b i

/-- A host write to a register other than `CMD` (R22, R54, R55): bits outside the register are dropped, a
read-only register keeps its value. -/
def putReg (s : State) (r : Reg) (v : DWord) : State :=
  match r with
  | .cmd => { s with cmd := v }
  | .slave => { s with slave := some (v.setWidth 8) }
  | .timeout => { s with timeout := some v }
  | .idle => { s with idle := some v }
  | .arg0 => { s with arg0 := v.setWidth 16 }
  | .arg1 => { s with arg1 := v.setWidth 16 }
  | .status => s
  | .crc => s
  | .txlen => s
  | .rxlen => s
  | .regcnt => s
  | .caps => s

/-- A host write to a buffer element (R52, R54): `RXB` and `ROUT` are read-only to the host. -/
def putElem (s : State) (b : Buf) (i : Nat) (v : DWord) : State :=
  match b with
  | .txb => { s with mem := Memory.write s.mem (Buf.txb.addr i) (v.setWidth 8) }
  | .xb => { s with mem := Memory.write s.mem (Buf.xb.addr i) (v.setWidth 8) }
  | .win => { s with mem := Memory.writeWord s.mem (Buf.win.addr i) (v.setWidth 16) }
  | .rxb => s
  | .rout => s

/-- A host write to the target. -/
def put (s : State) (t : Target) (v : DWord) : State :=
  match t with
  | .reg r => s.putReg r v
  | .elem b i => s.putElem b i v

/-- A host read has returned `v` for bus address `addr`. -/
def logRead (s : State) (addr : Nat) (v : DWord) : State := { s with busLog := s.busLog ++ [⟨addr, v⟩] }

/-- The host does nothing for an unspecified number of ticks (R39, R232). -/
def waitForHost (s : State) : State := s.elapse

end State

end Sys2Proof.Machine
end

