-- ==== Sys2Proof/Machine/Fetch.lean ====
section
/-! DEFINITION. What a host access does (20_memory.md R53-R55) and how a command word written to `CMD`
(10_state.md R23, 30_encoding.md R70) or a burst on the wire (10_state.md R36) comes to run. -/

namespace Sys2Proof.Machine

/-- Run what was fetched. A command word that encodes nothing reports ERR_ILLEGAL_COMMAND (R70); bytes on the
wire that are no frame of the table still arrive (R36). -/
def runFetched (f : Fetched) (s : State) : Host.Outcome State Fault Refusal :=
  match decode f with
  | .ok i => exec i s
  | .error _ =>
    match f with
    | .command _ => .next s.illegalCommand
    | .frame _ F => .next (s.deliver F)

/-- A host write (R53-R55). -/
def hostWrite (w : AccessWidth) (addr : Nat) (v : DWord) (s : State) : Host.Outcome State Fault Refusal :=
  match target? s.params w addr with
  | none => .fault .busError
  | some (.reg .cmd) => runFetched (.command v) (s.putReg .cmd v)
  | some t => .next (s.put t v)

/-- A host read (R49, R53, R55). -/
def hostRead (w : AccessWidth) (addr : Nat) (s : State) : Host.Outcome State Fault Refusal :=
  match target? s.params w addr with
  | none => .fault .busError
  | some t =>
    match s.view t with
    | none => .fault .unwrittenRead
    | some v => .next (s.logRead addr v)

end Sys2Proof.Machine
end

