-- ==== Sys2Proof/Machine/Step.lean ====
section
/-! DEFINITION. One step: the next thing the host or the line environment does (00_scope.md R15), in the order
State lists it. The block has no program counter and fetches nothing of its own (10_state.md R21): what it
decodes is the command word of a host write to `CMD` (R23, R70), and a burst on the wire is read as a frame. -/

namespace Sys2Proof.Machine

/-- One step. With nothing to do, the block waits for the host (R232) and time passes (R39). -/
def step (s : State) : Host.Outcome State Fault Refusal :=
  match s.inputs with
  | [] => .next s.waitForHost
  | .hostWrite w addr v :: rest => hostWrite w addr v (s.setInputs rest)
  | .hostRead w addr :: rest => hostRead w addr (s.setInputs rest)
  | .hostTime n :: rest => .next ((s.setInputs rest).wait n)
  | .line o F :: rest => runFetched (.frame o F) (s.setInputs rest)

/-- `s` with the instruction of an opcode-table word as the next thing that happens: a host write of the command
word to `CMD`, or the frame on the wire. -/
def State.withFetchWord (s : State) (nbits w : Nat) : State :=
  match tableFetch nbits w with
  | .command c => s.setInputs (.hostWrite .w32 s.params.base c :: s.inputs)
  | .frame o F => s.setInputs (.line o F :: s.inputs)

end Sys2Proof.Machine
end

