-- ==== Sys2Proof/Safety.lean ====
section
/-! DEFINITION. The terms claims are made in: what a step leaves unchanged, and the invariants a safe run keeps. -/

namespace Sys2Proof.Machine

/-- `t` is `u` but for the clock: an unspecified finite number of ticks after `s`, with the draws of those ticks
taken (10_state.md R39). Everything `u` does not change against `s` is unchanged. -/
def After (s t u : State) : Prop :=
  s.now ≤ t.now ∧ t = { u with now := t.now, draws := t.draws, drawCount := t.drawCount }

/-- `a` is the address of a byte element `i ≤ j < i + n` of the buffer. -/
def Buf.stores (b : Buf) (i n a : Nat) : Prop := ∃ j, i ≤ j ∧ j < i + n ∧ a = b.addr j

/-- `a` is the address of a byte of a word element `j < n` of the buffer. -/
def Buf.storesWords (b : Buf) (n a : Nat) : Prop := ∃ j, j < n ∧ (a = b.addr j ∨ a = b.addr j + 1)

/-- Every byte of memory outside the stored ones reads as before. -/
def SameOutside (m m' : Memory) (stored : Nat → Prop) : Prop :=
  ∀ a, ¬ stored a → Memory.read m' a = Memory.read m a

/-- What every ENC_* command does with its frame `F = P ++ crc16_le(P)` (41_encoder.md R120 step 3): `TXB`
holds it, `TXLEN` is its length, `CRC` its CRC, the result is OK; nothing else changes. -/
def FrameWritten (s t : State) (P : List Byte) : Prop :=
  After s t { s with res := .ok, exc := 0, mem := t.mem, txlen := P.length + 2, crc := crc16 P } ∧
  t.bytes .txb (P.length + 2) = some (P ++ [lo (crc16 P), hi (crc16 P)]) ∧
  SameOutside s.mem t.mem (Buf.txb.stores 0 (P.length + 2))

/-- What the line environment may do (10_state.md R36): append the bytes `F`, in order, at ticks that are not
before `now`, not before the last entry and not decreasing; nothing else changes. -/
def Delivered (s t : State) (F : List Byte) : Prop :=
  ∃ ts : List Nat, ts.length = F.length ∧ t.rxq = s.rxq ++ List.zipWith RxEntry.mk F ts ∧
    ts.Pairwise (· ≤ ·) ∧ (∀ x ∈ ts, s.now ≤ x ∧ ∀ e ∈ s.rxq.getLast?, e.tick ≤ x) ∧
    t = { s with rxq := t.rxq, draws := t.draws, drawCount := t.drawCount }

/-- The offsets R51 and R52 map. -/
def mapped (p : Params) (off : Nat) : Prop :=
  off < 0x30 ∨ (0x0400 ≤ off ∧ off < 0x0400 + 4 * p.txbCap) ∨ (0x0800 ≤ off ∧ off < 0x0800 + 4 * p.rxbCap) ∨
    (0x0C00 ≤ off ∧ off < 0x0C00 + 4 * p.xbCap) ∨ (0x1000 ≤ off ∧ off < 0x1000 + 4 * p.winCap) ∨
    (0x1400 ≤ off ∧ off < 0x1400 + 4 * 127)

/-- The access R53 allows: 32 bits, in the window, aligned, mapped. -/
def goodAccess (p : Params) (w : AccessWidth) (addr : Nat) : Prop :=
  w = .w32 ∧ p.base ≤ addr ∧ (addr - p.base) % 4 = 0 ∧ mapped p (addr - p.base)

/-- The CMD32 rows of spec/opcode_table.json as (mask, match) pairs, in the table's order. -/
def commandRows : List (DWord × DWord) :=
  [(0xFFFEFFFF#32, 0x00000001#32), (0xFFFEFFFF#32, 0x00000002#32), (0xFFFFFFFF#32, 0x00000310#32),
   (0xFFFFFFFF#32, 0x00000410#32), (0xFFFEFFFF#32, 0x00000011#32), (0xFFFEFFFF#32, 0x00000012#32),
   (0xFFFF00FF#32, 0x00000013#32), (0xFFFEFFFF#32, 0x00000014#32), (0xFFFFFFFF#32, 0x00000020#32),
   (0xFFFFFFFF#32, 0x00000021#32), (0xFFFFFFFF#32, 0x00000022#32), (0xFFFFFFFF#32, 0x00000023#32),
   (0xFFFFFFFF#32, 0x00000030#32), (0xFFFFFFFF#32, 0x00000031#32), (0xFFFFFFFF#32, 0x00000032#32)]

/-- The word matches the row. -/
def matchesRow (w : DWord) (r : DWord × DWord) : Prop := w &&& r.1 = r.2

/-- The opcodes of R72 whose FC column is "0". -/
def plainOps : List Byte :=
  [0x01#8, 0x02#8, 0x11#8, 0x12#8, 0x14#8, 0x20#8, 0x21#8, 0x22#8, 0x23#8, 0x30#8, 0x31#8, 0x32#8]

/-- The opcodes of R72 whose MOD column is "0". -/
def noModOps : List Byte :=
  [0x10#8, 0x13#8, 0x20#8, 0x21#8, 0x22#8, 0x23#8, 0x30#8, 0x31#8, 0x32#8]

/-- The conditions R75 lists for an illegal command word. -/
def IllegalWord (w : DWord) : Prop :=
  (opField w ∉ plainOps ∧ opField w ≠ 0x10#8 ∧ opField w ≠ 0x13#8) ∨ reservedField w ≠ 0 ∨
    (opField w ∈ plainOps ∧ fcField w ≠ 0) ∨
    (opField w = 0x10#8 ∧ fcField w ≠ 0x03#8 ∧ fcField w ≠ 0x04#8) ∨
    (opField w ∈ noModOps ∧ modField w = true)

/-- The bytes of a payload of registers, each high byte first (20_memory.md R58). -/
def registerBytes : List Word → List Byte
  | [] => []
  | w :: ws => hi w :: lo w :: registerBytes ws

/-- The director may do a transfer that needs state `want`: no line, or the right state (R140, R143, R165). -/
def State.directed (s : State) (want : Director) : Prop := s.params.dePresent = true → s.dir = want

namespace State

/-- Memory lists only bytes of mapped elements, in canonical form (R52). -/
def MemoryInv (s : State) : Prop :=
  Memory.wf s.mem = true ∧
    ∀ a, (Memory.read s.mem a).isSome → ∃ b i, i < Buf.cap b s.params ∧
      (a = b.addr i ∨ (b.wide = true ∧ a = b.addr i + 1))

/-- `TXB[0:TXLEN)` holds values and `TXLEN` is within `TXB` (10_state.md R34, 42_transceiver.md R143). -/
def FrameInv (s : State) : Prop :=
  s.txlen ≤ s.params.txbCap ∧ ∃ F, s.bytes .txb s.txlen = some F

/-- `RXB[0:RXLEN)` holds values, the rest of `RXB` none, and `RXLEN` is within `RXB` (R34, R41). -/
def ResponseInv (s : State) : Prop :=
  s.rxlen ≤ s.params.rxbCap ∧ (∃ r, s.bytes .rxb s.rxlen = some r) ∧
    ∀ i, s.rxlen ≤ i → i < 256 → s.byte? .rxb i = none

/-- `REGCNT` is within `ROUT` and `ROUT[0:REGCNT)` holds values (R34, R44, 43_decoder.md R177). -/
def OutputInv (s : State) : Prop :=
  s.regcnt ≤ 127 ∧ ∃ R, s.words .rout s.regcnt = some R

/-- A response is trusted only after it was verified (R27): while `VALID` is 1, `RXB[0:RXLEN)` is a response the
validator accepts, of at least three bytes (R177). -/
def TrustInv (s : State) : Prop :=
  s.valid = true → 3 ≤ s.rxlen ∧ ∃ r, s.bytes .rxb s.rxlen = some r ∧ validate r = .ok

/-- The director and its line agree, and without a line the director stays in Receive (R45, R46, R145). -/
def DirectorInv (s : State) : Prop :=
  if s.params.dePresent then s.de = s.dir.bit else s.dir = .receive ∧ s.de = false

/-- With a line, every byte handed over was handed over with the line driven (R143); no byte was handed over
later than now, and the log is in time order (R37). -/
def TransmitInv (s : State) : Prop :=
  (∀ e ∈ s.txq, e.de = s.params.dePresent ∧ e.tick ≤ s.now) ∧ s.txq.Pairwise (fun x y => x.tick ≤ y.tick)

/-- The receive queue is in arrival order (R36). -/
def QueueInv (s : State) : Prop := s.rxq.Pairwise (fun x y => x.tick ≤ y.tick)

/-- An exception code is reported only with ERR_MODBUS_EXCEPTION (R26). -/
def ExcInv (s : State) : Prop := s.exc ≠ 0 → s.res = .modbusException

end State

end Sys2Proof.Machine
end

