-- ==== Sys2Proof/Certificates/Slice0/Obligations.lean ====
section
/-! DEFINITION. The statements for the provers. Every statement about a command quantifies over every state and
every parameter setting that meets its hypotheses; a draw (10_state.md R39) is whatever it is. -/

open Sys2Proof Sys2Proof.Machine

/-! ## Encoding -/

/-- Every well-formed instruction decodes from its encoding, with every operand (30_encoding.md R70-R84). -/
def Obligations.DecodeOfEncodeIsTheInstruction : Prop :=
  ∀ i : Instr, i.wf = true → decode (encode i) = .ok i

/-- Whatever the decoder accepts is the encoding of the well-formed instruction it answers, and no bit is dropped
(R70, R77). That no frame stands for two instructions is the model's choice (log 5): R82 covers every function
code, so a frame with the layout of R78-R81 fits its own row and FRAME_CUSTOM_REQ; the model reads it as its own
row, and a custom frame is well formed only without such a layout and with at most 252 extra bytes. -/
def Obligations.EncodeOfDecodeIsTheWord : Prop :=
  ∀ (f : Fetched) (i : Instr), decode f = .ok i → i.wf = true ∧ encode i = f

/-- A command word decodes exactly when it matches a row of the opcode table, and no word matches two (R70). -/
def Obligations.CommandWordsAreTheTableRows : Prop :=
  (∀ w : DWord, (∃ i, decodeCommand w = .ok i) ↔ ∃ r ∈ commandRows, matchesRow w r) ∧
    commandRows.Pairwise (fun r r' => ∀ w, ¬ (matchesRow w r ∧ matchesRow w r'))

/-- Words written out from the opcode map (R72) and frames from the source's scenarios decode to their rows. -/
def Obligations.SpecWordsDecodeToTheirInstructions : Prop :=
  decodeCommand 0x00010001#32 = .ok (.crcGen true) ∧
  decodeCommand 0x00000410#32 = .ok .encReadInput ∧
  decodeCommand 0x00010012#32 = .ok (.encWriteMultiple .lowFirst) ∧
  decodeCommand 0x00004213#32 = .ok (.encCustom 0x42#8) ∧
  decodeCommand 0x00000023#32 = .ok .rxDiscard ∧
  decodeCommand 0x00000032#32 = .ok .decExtract ∧
  decodeFrame .request [0xF8#8, 0x04#8, 0x00#8, 0x00#8, 0x00#8, 0x01#8, 0x25#8, 0xA3#8] =
    .ok (.frameReadInputReq 0xF8#8 0x0000#16 0x0001#16) ∧
  decodeFrame .response [0xF8#8, 0x84#8, 0x02#8, 0x12#8, 0xF0#8] = .ok (.frameExceptionRsp 0xF8#8 0x04#7 0x02#8) ∧
  decodeFrame .response [0xF8#8, 0x04#8, 0x02#8, 0x08#8, 0x98#8, 0x23#8, 0x4E#8] =
    .ok (.frameReadRsp 0xF8#8 0x04#7 [0x08#8, 0x98#8])

/-! ## A step -/

/-- A host write of a command word to `CMD` stores the word and runs the instruction it decodes to (R23, R70). -/
def Obligations.StepRunsTheCommandWritten : Prop :=
  ∀ (s : State) (rest : List Input) (w : DWord) (i : Instr),
    s.inputs = .hostWrite .w32 s.params.base w :: rest → decode (.command w) = .ok i →
    step s = exec i { s with inputs := rest, cmd := w }

/-- A burst on the wire that is a frame of the table runs that frame, and any other burst is received byte by byte
(R36). That a frame of the table is a step of the machine is the model's choice (log 4). -/
def Obligations.StepRunsTheFrameOnTheWire : Prop :=
  ∀ (s : State) (rest : List Input) (o : Origin) (F : List Byte), s.inputs = .line o F :: rest →
    (∀ i, decode (.frame o F) = .ok i → step s = exec i { s with inputs := rest }) ∧
    (∀ e, decode (.frame o F) = .error e →
      ∃ t, step s = .next t ∧ Delivered { s with inputs := rest } t F)

/-- R75: the words it lists are illegal, a write of one only reports ERR_ILLEGAL_COMMAND, and every other word
is some instruction. -/
def Obligations.IllegalWordsOnlyReport : Prop :=
  (∀ w : DWord, ¬ IllegalWord w → ∃ i, decodeCommand w = .ok i) ∧
  ∀ (s : State) (rest : List Input) (w : DWord),
    s.inputs = .hostWrite .w32 s.params.base w :: rest → IllegalWord w →
    ∃ t, step s = .next t ∧
      After s t { s with inputs := rest, cmd := w, res := .illegalCommand, exc := 0 }

/-- Between commands only time passes (R39): with nothing to do the block waits, and host time is host time. -/
def Obligations.WaitingOnlyTakesTime : Prop :=
  ∀ s : State,
    (s.inputs = [] → ∃ t, step s = .next t ∧ After s t s) ∧
    (∀ n rest, s.inputs = .hostTime n :: rest →
      step s = .next { s with inputs := rest, now := s.now + n })

/-! ## The host register space -/

/-- R53: an access of another width, misaligned, unmapped or outside the window is a bus error, and no other
access is. That an address below `P_BASE`, which has no offset, is a bus error too is the model's (DEDUCED, log 15);
which widths a host can issue is its choice (log 18). -/
def Obligations.BusErrorsAreExactlyBadAccesses : Prop :=
  ∀ (s : State) (rest : List Input) (w : AccessWidth) (addr : Nat), s.params.wf →
    (s.inputs = .hostRead w addr :: rest → (step s = .fault .busError ↔ ¬ goodAccess s.params w addr)) ∧
    (∀ v, s.inputs = .hostWrite w addr v :: rest →
      (step s = .fault .busError ↔ ¬ goodAccess s.params w addr))

/-- R55: a host read has no side effect; the only thing that changes is what the host has read. -/
def Obligations.HostReadsHaveNoSideEffect : Prop :=
  ∀ (s t : State) (rest : List Input) (w : AccessWidth) (addr : Nat),
    s.inputs = .hostRead w addr :: rest → step s = .next t →
    ∃ v, t = { s with inputs := rest, busLog := s.busLog ++ [⟨addr, v⟩] }

/-- R24 and R35: the bits a read of `STATUS` and of `CAPS` returns. -/
def Obligations.StatusAndCapsReadAsTheirFields : Prop :=
  ∀ (s : State) (rest : List Input),
    (s.inputs = .hostRead .w32 (s.params.base + 0x0004) :: rest →
      ∃ v : DWord, step s = .next { s with inputs := rest, busLog := s.busLog ++ [⟨s.params.base + 0x0004, v⟩] } ∧
        v.extractLsb' 0 8 = s.res.code ∧ v.extractLsb' 8 8 = s.exc ∧ v.getLsbD 16 = s.valid ∧
        v.getLsbD 17 = decide (s.dir = .transmit) ∧ v.getLsbD 18 = (s.de && s.params.dePresent) ∧
        v.extractLsb' 19 13 = 0) ∧
    (s.inputs = .hostRead .w32 (s.params.base + 0x002C) :: rest →
      ∃ v : DWord, step s = .next { s with inputs := rest, busLog := s.busLog ++ [⟨s.params.base + 0x002C, v⟩] } ∧
        v.getLsbD 0 = s.params.dePresent ∧ v.getLsbD 1 = s.params.excEarly ∧ v.extractLsb' 2 30 = 0)

/-- R201: the values of the result codes; no two are the same and none is above 0x0C. -/
def Obligations.ResultCodesHaveTheirValues : Prop :=
  (ResCode.ok.code = 0x00#8 ∧ ResCode.invalidArgument.code = 0x01#8 ∧ ResCode.noResponse.code = 0x02#8 ∧
    ResCode.truncated.code = 0x03#8 ∧ ResCode.unterminated.code = 0x04#8 ∧ ResCode.addressNeverSeen.code = 0x05#8 ∧
    ResCode.modbusException.code = 0x06#8 ∧ ResCode.crc.code = 0x07#8 ∧ ResCode.tooShort.code = 0x08#8 ∧
    ResCode.rxOverflow.code = 0x09#8 ∧ ResCode.direction.code = 0x0A#8 ∧ ResCode.notValidated.code = 0x0B#8 ∧
    ResCode.illegalCommand.code = 0x0C#8) ∧
  (∀ c d : ResCode, c.code = d.code → c = d) ∧ ∀ c : ResCode, c.code.toNat ≤ 0x0C

/-- R22: what a read of each other register returns. `CMD` reads back the last word written; bits outside a
register's used bits read as 0; a configuration register that holds no value faults (R49). -/
def Obligations.RegistersReadAsTheyHold : Prop :=
  ∀ (s : State) (rest : List Input) (off : Nat),
    let read := fun v => step { s with inputs := .hostRead .w32 (s.params.base + off) :: rest } =
      .next { s with inputs := rest, busLog := s.busLog ++ [⟨s.params.base + off, v⟩] }
    let faults := step { s with inputs := .hostRead .w32 (s.params.base + off) :: rest } = .fault .unwrittenRead
    (off = 0x0000 → read s.cmd) ∧
    (off = 0x0008 → (∀ a, s.slave = some a → read (a.setWidth 32)) ∧ (s.slave = none → faults)) ∧
    (off = 0x000C → (∀ v, s.timeout = some v → read v) ∧ (s.timeout = none → faults)) ∧
    (off = 0x0010 → (∀ v, s.idle = some v → read v) ∧ (s.idle = none → faults)) ∧
    (off = 0x0014 → read (s.arg0.setWidth 32)) ∧
    (off = 0x0018 → read (s.arg1.setWidth 32)) ∧
    (off = 0x001C → read (s.crc.setWidth 32)) ∧
    (off = 0x0020 → s.txlen < 512 → read (BitVec.ofNat 32 s.txlen)) ∧
    (off = 0x0024 → s.rxlen < 512 → read (BitVec.ofNat 32 s.rxlen)) ∧
    (off = 0x0028 → s.regcnt < 256 → read (BitVec.ofNat 32 s.regcnt))

/-- R55 for the configuration and operand registers: a host write only stores its value, cut to the register's
bits (R22). -/
def Obligations.HostWritesStoreTheRegister : Prop :=
  ∀ (s : State) (rest : List Input) (v : DWord) (off : Nat),
    let after := step { s with inputs := .hostWrite .w32 (s.params.base + off) v :: rest }
    (off = 0x0008 → after = .next { s with inputs := rest, slave := some (v.extractLsb' 0 8) }) ∧
    (off = 0x000C → after = .next { s with inputs := rest, timeout := some v }) ∧
    (off = 0x0010 → after = .next { s with inputs := rest, idle := some v }) ∧
    (off = 0x0014 → after = .next { s with inputs := rest, arg0 := v.extractLsb' 0 16 }) ∧
    (off = 0x0018 → after = .next { s with inputs := rest, arg1 := v.extractLsb' 0 16 })

/-- R54: a host write to a read-only register or to an element of `RXB` or `ROUT` has no effect. -/
def Obligations.WritesToReadOnlyStateAreIgnored : Prop :=
  ∀ (s : State) (rest : List Input) (v : DWord) (off : Nat), s.params.wf →
    (off = 0x0004 ∨ off = 0x001C ∨ off = 0x0020 ∨ off = 0x0024 ∨ off = 0x0028 ∨ off = 0x002C ∨
      (∃ i, i < s.params.rxbCap ∧ off = 0x0800 + 4 * i) ∨ (∃ i, i < 127 ∧ off = 0x1400 + 4 * i)) →
    step { s with inputs := .hostWrite .w32 (s.params.base + off) v :: rest } = .next { s with inputs := rest }

/-- R52, R54: a host write to an element of `TXB`, `XB` or `WIN` stores the low bits of the word there and
changes no other byte; the next read of the element returns them. -/
def Obligations.HostWritesStoreTheElement : Prop :=
  ∀ (s : State) (rest : List Input) (v : DWord) (i : Nat), s.params.wf →
    (∀ b : Buf, (b = .txb ∨ b = .xb) → i < b.cap s.params →
      ∃ t, step { s with inputs := .hostWrite .w32 (s.params.base + b.addr i) v :: rest } = .next t ∧
        t = { s with inputs := rest, mem := t.mem } ∧ t.byte? b i = some (v.extractLsb' 0 8) ∧
        SameOutside s.mem t.mem (b.stores i 1) ∧
        step { t with inputs := .hostRead .w32 (s.params.base + b.addr i) :: rest } =
          .next { t with busLog := s.busLog ++ [⟨s.params.base + b.addr i, (v.extractLsb' 0 8).setWidth 32⟩] }) ∧
    (i < s.params.winCap →
      ∃ t, step { s with inputs := .hostWrite .w32 (s.params.base + (0x1000 + 4 * i)) v :: rest } = .next t ∧
        t = { s with inputs := rest, mem := t.mem } ∧ t.word? .win i = some (v.extractLsb' 0 16) ∧
        SameOutside s.mem t.mem (fun a => a = 0x1000 + 4 * i ∨ a = 0x1000 + 4 * i + 1) ∧
        step { t with inputs := .hostRead .w32 (s.params.base + (0x1000 + 4 * i)) :: rest } =
          .next { t with busLog := s.busLog ++ [⟨s.params.base + (0x1000 + 4 * i), (v.extractLsb' 0 16).setWidth 32⟩] })

/-- R52 and R49 for the host: a read of a mapped element that holds a value returns it in the low bits of the word,
with zeros above; a read of one that holds none faults. The offsets and widths are those of R52's table. -/
def Obligations.HostReadReturnsTheElementOrFaults : Prop :=
  ∀ (s : State) (rest : List Input) (b : Buf) (i : Nat), s.params.wf → i < b.cap s.params →
    let off := match b with
      | .txb => 0x0400 + 4 * i
      | .rxb => 0x0800 + 4 * i
      | .xb => 0x0C00 + 4 * i
      | .win => 0x1000 + 4 * i
      | .rout => 0x1400 + 4 * i
    let after := step { s with inputs := .hostRead .w32 (s.params.base + off) :: rest }
    let returns := fun v => after =
      .next { s with inputs := rest, busLog := s.busLog ++ [⟨s.params.base + off, v⟩] }
    ((b = .txb ∨ b = .rxb ∨ b = .xb) →
      (∀ v : Byte, s.byte? b i = some v → returns (v.setWidth 32)) ∧
      (s.byte? b i = none → after = .fault .unwrittenRead)) ∧
    ((b = .win ∨ b = .rout) →
      (∀ v : Word, s.word? b i = some v → returns (v.setWidth 32)) ∧
      (s.word? b i = none → after = .fault .unwrittenRead))

/-! ## CRC16 engine -/

/-- R105: a sequence followed by its CRC verifies, and flipping any single bit of the result makes it fail. -/
def Obligations.CrcRoundTripAndSingleBitFlips : Prop :=
  ∀ S : List Byte, verify (S ++ crc16le S) = true ∧
    ∀ (i : Nat) (k : Nat) (b : Byte), k < 8 → (S ++ crc16le S)[i]? = some b →
      verify ((S ++ crc16le S).set i (b ^^^ BitVec.twoPow 8 k)) = false

/-- R106: a frame's residue is 0, and verification is the same as residue 0. -/
def Obligations.CrcResidueIsZero : Prop :=
  (∀ S : List Byte, crc16 (S ++ crc16le S) = 0) ∧
  ∀ F : List Byte, 2 ≤ F.length → (verify F = true ↔ crc16 F = 0)

/-- R165's corner case: the CRC of a CRC-valid frame followed by one 0x00 byte still verifies. -/
def Obligations.TrailingZeroStillVerifies : Prop :=
  ∀ F : List Byte, verify F = true → verify (F ++ [0x00#8]) = true

/-- R103. -/
def Obligations.CrcGenFollowsItsRule : Prop :=
  decodeCommand 0x00000001#32 = .ok (.crcGen false) ∧ decodeCommand 0x00010001#32 = .ok (.crcGen true) ∧
  ∀ (append : Bool) (s : State),
    (s.params.txbCap < s.arg0.toNat ∨ (append = true ∧ s.params.txbCap < s.arg0.toNat + 2) →
      ∃ t, exec (.crcGen append) s = .next t ∧ After s t { s with res := .invalidArgument, exc := 0 }) ∧
    (s.arg0.toNat ≤ s.params.txbCap → (append = true → s.arg0.toNat + 2 ≤ s.params.txbCap) →
      (s.bytes .txb s.arg0.toNat = none → exec (.crcGen append) s = .fault .unwrittenRead) ∧
      ∀ data, s.bytes .txb s.arg0.toNat = some data →
        (append = false → ∃ t, exec (.crcGen append) s = .next t ∧
          After s t { s with res := .ok, exc := 0, crc := crc16 data }) ∧
        (append = true → ∃ t, exec (.crcGen append) s = .next t ∧
          After s t { s with res := .ok, exc := 0, crc := crc16 data, mem := t.mem, txlen := s.arg0.toNat + 2 } ∧
          t.bytes .txb (s.arg0.toNat + 2) = some (data ++ [lo (crc16 data), hi (crc16 data)]) ∧
          verify (data ++ [lo (crc16 data), hi (crc16 data)]) = true ∧
          SameOutside s.mem t.mem (Buf.txb.stores s.arg0.toNat 2)))

/-- R104. -/
def Obligations.CrcVerifyFollowsItsRule : Prop :=
  decodeCommand 0x00000002#32 = .ok (.crcVerify .rxb) ∧ decodeCommand 0x00010002#32 = .ok (.crcVerify .txb) ∧
  ∀ (src : CrcSource) (s : State),
    let F? := match src with
      | .rxb => s.bytes .rxb s.rxlen
      | .txb => s.bytes .txb s.arg0.toNat
    (src = .txb → s.params.txbCap < s.arg0.toNat →
      ∃ t, exec (.crcVerify src) s = .next t ∧ After s t { s with res := .invalidArgument, exc := 0 }) ∧
    ((src = .txb → s.arg0.toNat ≤ s.params.txbCap) →
      (F? = none → exec (.crcVerify src) s = .fault .unwrittenRead) ∧
      ∀ F, F? = some F → ∃ t, exec (.crcVerify src) s = .next t ∧
        After s t { s with
          res := if verify F then .ok else .crc, exc := 0,
          crc := if 2 ≤ F.length then crc16 (F.take (F.length - 2)) else s.crc } ∧
        (F.length < 2 → t.res = .crc))

/-! ## Frame encoder -/

/-- R127. -/
def Obligations.EncReadFollowsItsRule : Prop :=
  decodeCommand 0x00000310#32 = .ok .encReadHolding ∧ decodeCommand 0x00000410#32 = .ok .encReadInput ∧
  (∀ fc : Byte, fc ≠ 0x03#8 → fc ≠ 0x04#8 → ∃ e, decodeCommand ((fc.setWidth 32 <<< 8) ||| 0x10#32) = .error e) ∧
  ∀ s : State,
    (s.slave = none → exec .encReadHolding s = .fault .unwrittenRead ∧ exec .encReadInput s = .fault .unwrittenRead) ∧
    ∀ a, s.slave = some a →
      (∃ t, exec .encReadHolding s = .next t ∧
        FrameWritten s t [a, 0x03#8, hi s.arg0, lo s.arg0, hi s.arg1, lo s.arg1]) ∧
      (∃ t, exec .encReadInput s = .next t ∧
        FrameWritten s t [a, 0x04#8, hi s.arg0, lo s.arg0, hi s.arg1, lo s.arg1])

/-- R128. -/
def Obligations.EncWriteSingleFollowsItsRule : Prop :=
  decodeCommand 0x00000011#32 = .ok (.encWriteSingle .highFirst) ∧
  decodeCommand 0x00010011#32 = .ok (.encWriteSingle .lowFirst) ∧
  ∀ s : State,
    (s.slave = none → ∀ ord, exec (.encWriteSingle ord) s = .fault .unwrittenRead) ∧
    ∀ a, s.slave = some a →
      (∃ t, exec (.encWriteSingle .highFirst) s = .next t ∧
        FrameWritten s t [a, 0x06#8, hi s.arg0, lo s.arg0, hi s.arg1, lo s.arg1]) ∧
      (∃ t, exec (.encWriteSingle .lowFirst) s = .next t ∧
        FrameWritten s t [a, 0x06#8, hi s.arg0, lo s.arg0, lo s.arg1, hi s.arg1])

/-- R129, with the order of R120: that a missing `SLAVE` faults even where the values do not fit is the model's
reading (DEDUCED, log 10). -/
def Obligations.EncWriteMultipleFollowsItsRule : Prop :=
  decodeCommand 0x00000012#32 = .ok (.encWriteMultiple .highFirst) ∧
  decodeCommand 0x00010012#32 = .ok (.encWriteMultiple .lowFirst) ∧
  ∀ (ord : ByteOrder) (s : State),
    let n := s.arg1.toNat
    let fits := n ≤ s.params.winCap ∧ 2 * n ≤ 255 ∧ 9 + 2 * n ≤ s.params.txbCap
    (s.slave = none → exec (.encWriteMultiple ord) s = .fault .unwrittenRead) ∧
    ∀ a, s.slave = some a →
      (¬ fits → ∃ t, exec (.encWriteMultiple ord) s = .next t ∧
        After s t { s with res := .invalidArgument, exc := 0 }) ∧
      (fits → s.words .win n = none → exec (.encWriteMultiple ord) s = .fault .unwrittenRead) ∧
      (∀ V, fits → s.words .win n = some V → ∃ t, exec (.encWriteMultiple ord) s = .next t ∧
        FrameWritten s t ([a, 0x10#8, hi s.arg0, lo s.arg0, hi s.arg1, lo s.arg1, BitVec.ofNat 8 (2 * n)] ++
          V.flatMap (fun v => match ord with
            | .highFirst => [hi v, lo v]
            | .lowFirst => [lo v, hi v])))

/-- R130. -/
def Obligations.EncResetEnergyFollowsItsRule : Prop :=
  decodeCommand 0x00000014#32 = .ok (.encResetEnergy .bare) ∧
  decodeCommand 0x00010014#32 = .ok (.encResetEnergy .phase) ∧
  (∀ a phase : Byte, encodeResetEnergy a .bare phase = encodeCustom a 0x42#8 [] ∧
    encodeResetEnergy a .phase phase = encodeCustom a 0x42#8 [0x00#8, phase]) ∧
  ∀ s : State,
    (s.slave = none → ∀ form, exec (.encResetEnergy form) s = .fault .unwrittenRead) ∧
    ∀ a, s.slave = some a →
      (∃ t, exec (.encResetEnergy .bare) s = .next t ∧ FrameWritten s t [a, 0x42#8]) ∧
      (∃ t, exec (.encResetEnergy .phase) s = .next t ∧ FrameWritten s t [a, 0x42#8, 0x00#8, lo s.arg0])

/-- R131, with the order of R120: that a missing `SLAVE` faults even where the bytes do not fit is the model's
reading (DEDUCED, log 10). -/
def Obligations.EncCustomFollowsItsRule : Prop :=
  (∀ fc : Byte, decodeCommand ((fc.setWidth 32 <<< 8) ||| 0x13#32) = .ok (.encCustom fc)) ∧
  ∀ (fc : Byte) (s : State),
    let m := s.arg1.toNat
    let fits := m ≤ s.params.xbCap ∧ 4 + m ≤ s.params.txbCap
    (s.slave = none → exec (.encCustom fc) s = .fault .unwrittenRead) ∧
    ∀ a, s.slave = some a →
      (¬ fits → ∃ t, exec (.encCustom fc) s = .next t ∧
        After s t { s with res := .invalidArgument, exc := 0 }) ∧
      (fits → s.bytes .xb m = none → exec (.encCustom fc) s = .fault .unwrittenRead) ∧
      (∀ X, fits → s.bytes .xb m = some X → ∃ t, exec (.encCustom fc) s = .next t ∧
        FrameWritten s t ([a, fc] ++ X))

/-- R132: the frame lengths, and every frame of an encoding function verifies. -/
def Obligations.EncodedFramesHaveTheirLengthAndVerify : Prop :=
  ∀ (fc a phase : Byte) (start count : Word) (V : List Word) (X : List Byte) (ord : ByteOrder),
    (encodeRead fc a start count).length = 8 ∧ verify (encodeRead fc a start count) = true ∧
    (encodeWriteSingle a start count ord).length = 8 ∧ verify (encodeWriteSingle a start count ord) = true ∧
    (encodeWriteMultiple a start V ord).length = 9 + 2 * V.length ∧
    verify (encodeWriteMultiple a start V ord) = true ∧
    (encodeCustom a fc X).length = 4 + X.length ∧ verify (encodeCustom a fc X) = true ∧
    (encodeResetEnergy a .bare phase).length = 4 ∧ verify (encodeResetEnergy a .bare phase) = true ∧
    (encodeResetEnergy a .phase phase).length = 6 ∧ verify (encodeResetEnergy a .phase phase) = true

/-- What an ENC_* command leaves in `TXB[0:TXLEN)` is the wire frame of its row, which the decoder reads back with
the operands the command was given (R78-R82). -/
def Obligations.EncodedRequestsAreTheirWireFrames : Prop :=
  ∀ (s : State) (a : Byte), s.slave = some a →
    (∀ t, exec .encReadHolding s = .next t → ∃ F, t.bytes .txb t.txlen = some F ∧
      decodeFrame .request F = .ok (.frameReadHoldingReq a s.arg0 s.arg1)) ∧
    (∀ t, exec .encReadInput s = .next t → ∃ F, t.bytes .txb t.txlen = some F ∧
      decodeFrame .request F = .ok (.frameReadInputReq a s.arg0 s.arg1)) ∧
    (∀ t, exec (.encWriteSingle .highFirst) s = .next t → ∃ F, t.bytes .txb t.txlen = some F ∧
      decodeFrame .request F = .ok (.frameWriteSingleReq a s.arg0 (hi s.arg1, lo s.arg1))) ∧
    (∀ V t, s.words .win s.arg1.toNat = some V → exec (.encWriteMultiple .highFirst) s = .next t → t.res = .ok →
      ∃ F, t.bytes .txb t.txlen = some F ∧
        decodeFrame .request F = .ok (.frameWriteMultipleReq a s.arg0 (V.map (fun v => (hi v, lo v))))) ∧
    (∀ t, exec (.encResetEnergy .bare) s = .next t → ∃ F, t.bytes .txb t.txlen = some F ∧
      decodeFrame .request F = .ok (.frameResetEnergyReq a none)) ∧
    (∀ t, exec (.encResetEnergy .phase) s = .next t → ∃ F, t.bytes .txb t.txlen = some F ∧
      decodeFrame .request F = .ok (.frameResetEnergyReq a (some (lo s.arg0))))

/-! ## Transceiver director -/

/-- R141 and the no-op of R140. That the command ends exactly `P_SETTLE` ticks after it starts is R215, and that it
takes no further draw the model's reading (DEDUCED, log 16). -/
def Obligations.DirTxFollowsItsRule : Prop :=
  decodeCommand 0x00000020#32 = .ok .dirTx ∧
  ∀ s : State,
    (s.params.dePresent = true →
      exec .dirTx s = .next { s with res := .ok, exc := 0, de := true, dir := .transmit,
                                      now := s.now + s.params.settle }) ∧
    (s.params.dePresent = false → exec .dirTx s = .next { s with res := .ok, exc := 0 })

/-- R142 and the no-op of R140; the clock as in R142's example. -/
def Obligations.DirRxFollowsItsRule : Prop :=
  decodeCommand 0x00000021#32 = .ok .dirRx ∧
  ∀ s : State,
    (s.params.dePresent = true →
      exec .dirRx s = .next { s with res := .ok, exc := 0, de := false, dir := .receive,
                                      now := s.now + s.params.settle }) ∧
    (s.params.dePresent = false → exec .dirRx s = .next { s with res := .ok, exc := 0 })

/-- R143: with the director in Transmit, or no line, every byte of `TXB[0:TXLEN)` is handed over in order at the
starting tick with the line's level, then the flush and the post-write delay pass; otherwise ERR_DIRECTION with
nothing written and no tick spent. With a line, every byte is logged with `de = 1`. -/
def Obligations.TxSendFollowsItsRule : Prop :=
  decodeCommand 0x00000022#32 = .ok .txSend ∧
  ∀ s : State,
    (¬ s.directed .transmit → exec .txSend s = .next { s with res := .direction, exc := 0 }) ∧
    (s.directed .transmit →
      (s.bytes .txb s.txlen = none → exec .txSend s = .fault .unwrittenRead) ∧
      ∀ F, s.bytes .txb s.txlen = some F →
        ∃ t flush, exec .txSend s = .next t ∧ t.now = s.now + flush + s.params.postTx ∧
          After s t { s with res := .ok, exc := 0, txq := s.txq ++ F.map (fun b => ⟨b, s.now, s.de⟩) } ∧
          (s.params.dePresent = true → s.DirectorInv →
            t.txq = s.txq ++ F.map (fun b => ⟨b, s.now, true⟩)))

/-- R144: exactly the bytes that have arrived by `now` and stand before any that has not are removed. That `now` is
the tick the command starts at, so that bytes which arrive during its drawn time stay queued, is the model's reading
(DEDUCED, log 11). -/
def Obligations.RxDiscardFollowsItsRule : Prop :=
  decodeCommand 0x00000023#32 = .ok .rxDiscard ∧
  ∀ (s : State) (old rest : List RxEntry), s.rxq = old ++ rest → (∀ e ∈ old, e.tick ≤ s.now) →
    (∀ e ∈ rest.head?, s.now < e.tick) →
    ∃ t, exec .rxDiscard s = .next t ∧ After s t { s with res := .ok, exc := 0, rxq := rest }

/-! ## Response reader -/

/-- R165: the checks in order, then the reader's outcome, with the codes of R165 and R201 written out; `VALID` is
cleared whatever happens, and on failure nothing collected is kept. R165 and D23 say that ERR_DIRECTION takes no
tick; that ERR_INVALID_ARGUMENT takes none either is the model's reading (DEDUCED, log 16). -/
def Obligations.RxReadFollowsItsRule : Prop :=
  decodeCommand 0x00000030#32 = .ok .rxRead ∧
  ∀ s : State, s.params.wf →
    (¬ s.directed .receive → exec .rxRead s = .next { s with valid := false, res := .direction, exc := 0 }) ∧
    (s.directed .receive → s.params.rxbCap < s.arg0.toNat →
      exec .rxRead s = .next { s with valid := false, res := .invalidArgument, exc := 0 }) ∧
    (s.directed .receive → s.arg0.toNat ≤ s.params.rxbCap →
      (s.slave = none ∨ s.timeout = none ∨ s.idle = none → exec .rxRead s = .fault .unwrittenRead) ∧
      ∀ a T I r n q, s.slave = some a → s.timeout = some T → s.idle = some I →
        readResponse s.params a s.arg0.toNat T.toNat I.toNat s.now s.rxq = (r, n, q) →
        ∃ t, exec .rxRead s = .next t ∧
          (∀ buf, r = .ok buf →
            t = { s with valid := false, res := .ok, exc := 0, rxlen := buf.length, mem := t.mem, now := n, rxq := q } ∧
            t.bytes .rxb buf.length = some buf ∧ (∀ j, buf.length ≤ j → j < 256 → t.byte? .rxb j = none)) ∧
          ((∀ buf, r ≠ .ok buf) →
            t = { s with valid := false, res := t.res, exc := 0, rxlen := 0, mem := t.mem, now := n, rxq := q } ∧
            (r = .noResponse → t.res.code = 0x02#8) ∧ (r = .truncated → t.res.code = 0x03#8) ∧
            (r = .unterminated → t.res.code = 0x04#8) ∧ (r = .addressNeverSeen → t.res.code = 0x05#8) ∧
            (r = .overflow → t.res.code = 0x09#8) ∧
            (∀ j, j < 256 → t.byte? .rxb j = none)) ∧
          (∀ x, x < 0x0800 ∨ 0x0C00 ≤ x → Memory.read t.mem x = Memory.read s.mem x))

/-- R215: the reader ends at the latest when the overall timeout elapses, and never before it starts. -/
def Obligations.ReaderEndsByTheTimeout : Prop :=
  ∀ (p : Params) (A : Byte) (L T I start : Nat) (q : List RxEntry),
    start ≤ (readResponse p A L T I start q).2.1 ∧ (readResponse p A L T I start q).2.1 ≤ start + T

/-- R161, R162: a frame the reader returns starts at the first byte equal to the address, holds every byte from
there on to the end, meets the length condition within `RXB`, and is followed by `I` ticks in which nothing was
consumed; what was not consumed stays queued. -/
def Obligations.ReaderReturnsFromTheFirstMatch : Prop :=
  ∀ (p : Params) (A : Byte) (L T I start n : Nat) (q q' : List RxEntry) (buf : List Byte), 1 ≤ p.rxbCap →
    readResponse p A L T I start q = (.ok buf, n, q') →
    ∃ g f, q = g ++ f ++ q' ∧ (∀ e ∈ g, e.byte ≠ A) ∧ f.map RxEntry.byte = buf ∧ (∃ rest, buf = A :: rest) ∧
      lengthNeeded p.excEarly buf L ≤ buf.length ∧ buf.length ≤ p.rxbCap ∧
      (∀ e ∈ g ++ f, e.tick + I ≤ n) ∧ (∀ e ∈ q'.head?, n ≤ e.tick)

/-- R164: the kind of a timeout says what was consumed, and a timeout ends at tick `start + T` with nothing left in
the queue that had arrived before it, so ERR_NO_RESPONSE means that no byte arrived before the timeout (R201); with
`T = 0` nothing is consumed (R165). An overflow ends earlier, with one byte more than `RXB` holds consumed (R162). -/
def Obligations.ReaderFailuresSayWhatWasConsumed : Prop :=
  ∀ (p : Params) (A : Byte) (L T I start n : Nat) (q q' : List RxEntry) (r : ReadResult), 1 ≤ p.rxbCap →
    readResponse p A L T I start q = (r, n, q') → (∀ buf, r ≠ .ok buf) →
    ∃ g f, q = g ++ f ++ q' ∧ (∀ e ∈ g, e.byte ≠ A) ∧ (f = [] ∨ ∃ rest, f.map RxEntry.byte = A :: rest) ∧
      (r = .overflow → f.length = p.rxbCap + 1 ∧ n < start + T) ∧
      (r ≠ .overflow → n = start + T ∧ (1 ≤ T → ∀ e ∈ q'.head?, n ≤ e.tick) ∧
        (T = 0 → r = .noResponse ∧ q' = q) ∧
        (r = .noResponse ↔ g = [] ∧ f = []) ∧ (r = .addressNeverSeen ↔ g ≠ [] ∧ f = []) ∧
        (r = .truncated ↔ f ≠ [] ∧ f.length < lengthNeeded p.excEarly (f.map RxEntry.byte) L) ∧
        (r = .unterminated ↔ f ≠ [] ∧ lengthNeeded p.excEarly (f.map RxEntry.byte) L ≤ f.length))

/-- R167, resync correctness with its conditions: garbage without the address byte, then a frame that begins with
it, fits, is long enough, has no gap of `I` ticks and is followed by `I` quiet ticks within the timeout, is
received whole and alone. -/
def Obligations.ResynchronisationReceivesTheFrame : Prop :=
  ∀ (s : State) (a : Byte) (T I : DWord) (g f rest : List RxEntry) (lastTick : Nat),
    s.slave = some a → s.timeout = some T → s.idle = some I → 1 ≤ I.toNat →
    s.directed .receive → s.arg0.toNat ≤ s.params.rxbCap → f.length ≤ s.params.rxbCap → s.params.wf →
    s.rxq = g ++ f ++ rest → s.QueueInv → (∀ e ∈ g, e.byte ≠ a) → f.head?.map RxEntry.byte = some a →
    f.getLast?.map RxEntry.tick = some lastTick →
    lengthNeeded s.params.excEarly (f.map RxEntry.byte) s.arg0.toNat ≤ f.length →
    (∀ i x y, f[i]? = some x → f[i + 1]? = some y → y.tick < x.tick + I.toNat) →
    (∀ e ∈ rest.head?, max s.now lastTick + I.toNat ≤ e.tick) →
    max s.now lastTick + I.toNat ≤ s.now + T.toNat →
    ∃ t, exec .rxRead s = .next t ∧
      t = { s with valid := false, res := .ok, exc := 0, rxlen := f.length, mem := t.mem,
                   now := max s.now lastTick + I.toNat, rxq := rest } ∧
      t.bytes .rxb f.length = some (f.map RxEntry.byte)

/-! ## Validator and extraction -/

/-- R170, as what each verdict means. -/
def Obligations.ValidatorVerdicts : Prop :=
  ∀ r : List Byte,
    let short := r.length < 2 ∨ (r.length = 2 ∧ excBit (byteAt r 1) = true)
    (validate r = .tooShort ↔ short) ∧
    (validate r = .crcError ↔ ¬ short ∧ verify r = false) ∧
    (∀ x, validate r = .modbusException x ↔
      ¬ short ∧ verify r = true ∧ excBit (byteAt r 1) = true ∧ x = byteAt r 2) ∧
    (validate r = .ok ↔ ¬ short ∧ verify r = true ∧ excBit (byteAt r 1) = false)

/-- R171. It never faults, since `RXB[0:RXLEN)` always holds values (R41, `ResponseInv`). -/
def Obligations.DecValidateFollowsItsRule : Prop :=
  decodeCommand 0x00000031#32 = .ok .decValidate ∧
  (∀ s : State, s.ResponseInv → ∃ t, exec .decValidate s = .next t) ∧
  ∀ (s : State) (r : List Byte), s.bytes .rxb s.rxlen = some r →
    ∃ t, exec .decValidate s = .next t ∧
      (validate r = .ok → After s t { s with valid := true, res := .ok, exc := 0, crc := crc16 (r.take (r.length - 2)) }) ∧
      (validate r = .tooShort → After s t { s with valid := false, res := .tooShort, exc := 0 }) ∧
      (validate r = .crcError →
        After s t { s with valid := false, res := .crc, exc := 0, crc := crc16 (r.take (r.length - 2)) }) ∧
      (∀ x, validate r = .modbusException x →
        After s t { s with valid := false, res := .modbusException, exc := x, crc := crc16 (r.take (r.length - 2)) })

/-- R173: validating twice answers the same and leaves the same state, time apart. -/
def Obligations.ValidatingTwiceIsTheSame : Prop :=
  ∀ s t : State, exec .decValidate s = .next t → ∃ u, exec .decValidate t = .next u ∧ After t u t

/-- R173 for the extraction: extracting twice delivers the same registers and leaves the same state, time apart. The
length of the response is within `RXB` (`ResponseInv`). -/
def Obligations.ExtractingTwiceIsTheSame : Prop :=
  ∀ s t : State, s.params.wf → s.ResponseInv → exec .decExtract s = .next t →
    ∃ u, exec .decExtract t = .next u ∧ After t u t

/-- R176. -/
def Obligations.DecExtractFollowsItsRule : Prop :=
  decodeCommand 0x00000032#32 = .ok .decExtract ∧
  ∀ s : State,
    (s.valid = false → ∃ t, exec .decExtract s = .next t ∧ After s t { s with res := .notValidated, exc := 0 }) ∧
    (s.valid = true → s.rxlen < 3 →
      ∃ t, exec .decExtract s = .next t ∧ After s t { s with res := .tooShort, exc := 0 }) ∧
    ∀ r, s.valid = true → 3 ≤ s.rxlen → s.bytes .rxb s.rxlen = some r →
      let k := min s.arg0.toNat ((byteAt r 2).toNat / 2)
      (s.rxlen < 3 + 2 * k + 2 →
        ∃ t, exec .decExtract s = .next t ∧ After s t { s with res := .tooShort, exc := 0 }) ∧
      (3 + 2 * k + 2 ≤ s.rxlen →
        ∃ t, exec .decExtract s = .next t ∧
          After s t { s with res := .ok, exc := 0, mem := t.mem, regcnt := k } ∧
          (∀ i, i < k → t.word? .rout i = some (join (byteAt r (3 + 2 * i)) (byteAt r (4 + 2 * i)))) ∧
          SameOutside s.mem t.mem (Buf.rout.storesWords k))

/-- R83, R171 (the source's Scenario B): an exception response with a right CRC is reported as an exception, with
its code, and never makes the buffer valid. -/
def Obligations.ExceptionReplyIsReported : Prop :=
  ∀ (s : State) (a : Byte) (func : BitVec 7) (code : Byte),
    s.bytes .rxb s.rxlen = some (exceptionFrame a func code) →
    ∃ t, exec .decValidate s = .next t ∧ t.res = .modbusException ∧ t.exc = code ∧ t.valid = false

/-- R84, R58, R171, R176 (the source's Scenario A): a read response that carries registers `regs` is accepted, and
extraction delivers exactly the registers it carries, as many as asked for. -/
def Obligations.ReadReplyDeliversItsRegisters : Prop :=
  ∀ (s : State) (a : Byte) (func : BitVec 7) (regs : List Word), regs.length ≤ 127 →
    s.bytes .rxb s.rxlen = some (readResponseFrame a func (registerBytes regs)) →
    ∃ t, exec .decValidate s = .next t ∧ t.res = .ok ∧ t.valid = true ∧
      ∀ num : Word, ∃ u, exec .decExtract { t with arg0 := num } = .next u ∧ u.res = .ok ∧
        u.regcnt = min num.toNat regs.length ∧
        u.words .rout (min num.toNat regs.length) = some (regs.take (min num.toNat regs.length))

/-! ## Wire frames -/

/-- R78-R84 and R36 (log 4): a frame of the table on the wire appends exactly its bytes to the receive queue, and
changes nothing else of the block. The bytes are written out from the frame layouts. -/
def Obligations.WireFramesReachTheReceiver : Prop :=
  ∀ (s : State) (a fc code : Byte) (func : BitVec 7) (x y : Word) (v : Byte × Byte) (vs : List (Byte × Byte))
    (X : List Byte),
    let sends := fun i P => ∃ t, exec i s = .next t ∧ Delivered s t (P ++ [lo (crc16 P), hi (crc16 P)])
    sends (.frameReadHoldingReq a x y) [a, 0x03#8, hi x, lo x, hi y, lo y] ∧
    sends (.frameReadInputReq a x y) [a, 0x04#8, hi x, lo x, hi y, lo y] ∧
    sends (.frameWriteSingleReq a x v) [a, 0x06#8, hi x, lo x, v.1, v.2] ∧
    (vs.length ≤ 127 → sends (.frameWriteMultipleReq a x vs)
      ([a, 0x10#8, hi x, lo x, 0x00#8, BitVec.ofNat 8 vs.length, BitVec.ofNat 8 (2 * vs.length)] ++
        vs.flatMap (fun p => [p.1, p.2]))) ∧
    sends (.frameResetEnergyReq a none) [a, 0x42#8] ∧
    sends (.frameResetEnergyReq a (some code)) [a, 0x42#8, 0x00#8, code] ∧
    sends (.frameCustomReq a fc X) ([a, fc] ++ X) ∧
    sends (.frameExceptionRsp a func code) [a, func.setWidth 8 ||| 0x80#8, code] ∧
    sends (.frameReadRsp a func X) ([a, func.setWidth 8, BitVec.ofNat 8 X.length] ++ X)

/-! ## Whole-machine rules -/

/-- R22, R23, R32, R231: no instruction writes a parameter, the command register, a configuration register, an
operand register or the host's inputs. -/
def Obligations.NoInstructionWritesHostRegisters : Prop :=
  ∀ (i : Instr) (s t : State), exec i s = .next t →
    t.params = s.params ∧ t.cmd = s.cmd ∧ t.slave = s.slave ∧ t.timeout = s.timeout ∧ t.idle = s.idle ∧
      t.arg0 = s.arg0 ∧ t.arg1 = s.arg1 ∧ t.inputs = s.inputs ∧ t.busLog = s.busLog

/-- R28, R145: only DIR_TX and DIR_RX change the director or its line. -/
def Obligations.OnlyDirectionCommandsTurnTheDirector : Prop :=
  ∀ (i : Instr) (s t : State), exec i s = .next t → i ≠ .dirTx → i ≠ .dirRx → t.dir = s.dir ∧ t.de = s.de

/-- R27: `VALID` becomes 1 only by a DEC_VALIDATE that answers OK, RX_READ clears it, every other instruction
leaves it. -/
def Obligations.ValidIsSetOnlyByValidation : Prop :=
  ∀ (i : Instr) (s t : State), exec i s = .next t →
    (i = .decValidate → (t.valid = true ↔ t.res = .ok)) ∧ (i = .rxRead → t.valid = false) ∧
      (i ≠ .decValidate → i ≠ .rxRead → t.valid = s.valid)

/-- R37, R38: only TX_SEND adds to the transmit log, and only RX_READ and RX_DISCARD take from the receive queue,
always its oldest entries; no other command touches either. -/
def Obligations.StreamsChangeOnlyThroughTheirCommands : Prop :=
  ∀ (i : Instr) (s t : State), exec i s = .next t →
    (∃ new, t.txq = s.txq ++ new) ∧ (i ≠ .txSend → t.txq = s.txq) ∧
      (i = .rxRead ∨ i = .rxDiscard → ∃ old, s.rxq = old ++ t.rxq) ∧
      (∀ w, encode i = .command w → i ≠ .rxRead → i ≠ .rxDiscard → t.rxq = s.rxq)

/-- R203: each command reports only the codes its rule lists, an illegal word only its own. The last clause, that a
wire frame leaves `RES` as it was, rests on the model's choice to run a frame as a delivery (log 4). -/
def Obligations.EachCommandReportsItsOwnCodes : Prop :=
  (∀ (s : State) (w : DWord) (e : DecodeError), decodeCommand w = .error e →
    ∃ t, runFetched (.command w) s = .next t ∧ t.res = .illegalCommand) ∧
  ∀ (i : Instr) (s t : State), exec i s = .next t →
    match i with
    | .crcGen _ => t.res ∈ [ResCode.ok, .invalidArgument]
    | .crcVerify _ => t.res ∈ [ResCode.ok, .crc, .invalidArgument]
    | .encReadHolding => t.res = .ok
    | .encReadInput => t.res = .ok
    | .encWriteSingle _ => t.res = .ok
    | .encResetEnergy _ => t.res = .ok
    | .encWriteMultiple _ => t.res ∈ [ResCode.ok, .invalidArgument]
    | .encCustom _ => t.res ∈ [ResCode.ok, .invalidArgument]
    | .dirTx => t.res = .ok
    | .dirRx => t.res = .ok
    | .rxDiscard => t.res = .ok
    | .txSend => t.res ∈ [ResCode.ok, .direction]
    | .rxRead => t.res ∈ [ResCode.ok, .direction, .invalidArgument, .noResponse, .addressNeverSeen, .truncated,
        .unterminated, .rxOverflow]
    | .decValidate => t.res ∈ [ResCode.ok, .tooShort, .crc, .modbusException]
    | .decExtract => t.res ∈ [ResCode.ok, .notValidated, .tooShort]
    | _ => t.res = s.res

/-- R39: time never runs backwards. -/
def Obligations.TimeNeverRunsBackwards : Prop :=
  ∀ s t : State, step s = .next t → s.now ≤ t.now

/-! ## Reset and invariants -/

/-- R230: the reset value of every piece of state, for every parameter setting and whatever the receiver holds.
A register or element that holds no value faults when the host reads it (R49). -/
def Obligations.ResetLeavesTheTable : Prop :=
  ∀ (p : Params) (q : List RxEntry),
    let s := State.resetOf p q
    s.params = p ∧ s.cmd = 0x00000000#32 ∧ s.res.code = 0x00#8 ∧ s.exc = 0x00#8 ∧ s.valid = false ∧
      s.dir = .receive ∧ s.de = false ∧ s.slave = none ∧ s.timeout = none ∧ s.idle = none ∧ s.arg0 = 0x0000#16 ∧
      s.arg1 = 0x0000#16 ∧ s.crc = 0xFFFF#16 ∧ s.txlen = 0 ∧ s.rxlen = 0 ∧ s.regcnt = 0 ∧
      (∀ a, Memory.read s.mem a = none) ∧ s.now = 0 ∧ s.txq = [] ∧ s.rxq = q ∧
      s.capsWord.getLsbD 0 = p.dePresent ∧ s.capsWord.getLsbD 1 = p.excEarly ∧
      (∀ off, (off = 0x0008 ∨ off = 0x000C ∨ off = 0x0010) →
        step { s with inputs := [.hostRead .w32 (p.base + off)] } = .fault .unwrittenRead) ∧
      ∀ (b : Buf) (i : Nat), p.wf → i < b.cap p →
        step { s with inputs := [.hostRead .w32 (p.base + b.addr i)] } = .fault .unwrittenRead

/-- Every invariant below holds after reset, for every legal parameter setting and every queue in arrival order, and
`State.reset` is such a state: its parameters and its empty receiver are the model's own choice (logs 3 and 8). -/
def Obligations.ResetMeetsTheInvariants : Prop :=
  (Params.default.wf ∧ State.reset = State.resetOf Params.default []) ∧
  ∀ (p : Params) (q : List RxEntry), p.wf → q.Pairwise (fun x y => x.tick ≤ y.tick) →
    let s := State.resetOf p q
    s.MemoryInv ∧ s.FrameInv ∧ s.ResponseInv ∧ s.OutputInv ∧ s.TrustInv ∧ s.DirectorInv ∧ s.TransmitInv ∧
      s.QueueInv ∧ s.ExcInv

/-- Every step keeps memory in canonical form, with bytes of mapped elements only (20_memory.md R52). -/
def Obligations.StepsKeepMemoryCanonical : Prop :=
  ∀ s t : State, s.params.wf → s.MemoryInv → step s = .next t → t.params.wf ∧ t.MemoryInv

/-- Every step keeps `TXB[0:TXLEN)`, `RXB[0:RXLEN)` and `ROUT[0:REGCNT)` filled and within their buffers, and
`RXB` empty beyond `RXLEN` (R34, R41, R44). -/
def Obligations.StepsKeepLengthsCoveringValues : Prop :=
  ∀ s t : State, s.params.wf → s.FrameInv → s.ResponseInv → s.OutputInv → step s = .next t →
    t.params.wf ∧ t.FrameInv ∧ t.ResponseInv ∧ t.OutputInv

/-- Every step keeps the trust in `VALID` (R27, R177): what may be extracted has passed the validator. The length
of the response is within `RXB` (`ResponseInv`, kept by StepsKeepLengthsCoveringValues). -/
def Obligations.StepsKeepTrustInValidation : Prop :=
  ∀ s t : State, s.params.wf → s.ResponseInv → s.TrustInv → step s = .next t → t.TrustInv

/-- Every step keeps the director and its line in agreement, and with a line no byte is ever handed over but with
the line driven (R143, R145, R146). -/
def Obligations.StepsKeepTheDirectorInvariant : Prop :=
  ∀ s t : State, s.DirectorInv → s.TransmitInv → step s = .next t → t.DirectorInv ∧ t.TransmitInv

/-- Every step keeps the receive queue in arrival order and an exception code only beside its result (R26, R36). -/
def Obligations.StepsKeepQueueOrderAndExceptionCode : Prop :=
  ∀ s t : State, s.QueueInv → s.ExcInv → step s = .next t → t.QueueInv ∧ t.ExcInv

/-! ## The length condition of the reader -/

/-- R163: the length condition, 5 at most for a frame whose byte 1 has bit 7 set where `P_EXC_EARLY` is true, and the
length asked for in every other case. -/
def Obligations.LengthConditionFollowsItsRule : Prop :=
  ∀ (excEarly : Bool) (buf : List Byte) (L : Nat),
    (∀ b, excEarly = true → buf[1]? = some b → b &&& 0x80#8 ≠ 0#8 →
      lengthNeeded excEarly buf L = if L ≤ 5 then L else 5) ∧
    (excEarly = false ∨ buf.length < 2 ∨ (∃ b, buf[1]? = some b ∧ b &&& 0x80#8 = 0#8) →
      lengthNeeded excEarly buf L = L)
end

