-- ==== Sys2Proof/Laws/State.lean ====
section
/-! SUPPORT. One lemma per field of State for each named update: what it becomes, or that it is unchanged. -/

namespace Sys2Proof.Machine.State

section
variable (s : State)

@[simp] theorem setCrc_params (c : Word) : (s.setCrc c).params = s.params := rfl
@[simp] theorem setCrc_cmd (c : Word) : (s.setCrc c).cmd = s.cmd := rfl
@[simp] theorem setCrc_res (c : Word) : (s.setCrc c).res = s.res := rfl
@[simp] theorem setCrc_exc (c : Word) : (s.setCrc c).exc = s.exc := rfl
@[simp] theorem setCrc_valid (c : Word) : (s.setCrc c).valid = s.valid := rfl
@[simp] theorem setCrc_dir (c : Word) : (s.setCrc c).dir = s.dir := rfl
@[simp] theorem setCrc_de (c : Word) : (s.setCrc c).de = s.de := rfl
@[simp] theorem setCrc_slave (c : Word) : (s.setCrc c).slave = s.slave := rfl
@[simp] theorem setCrc_timeout (c : Word) : (s.setCrc c).timeout = s.timeout := rfl
@[simp] theorem setCrc_idle (c : Word) : (s.setCrc c).idle = s.idle := rfl
@[simp] theorem setCrc_arg0 (c : Word) : (s.setCrc c).arg0 = s.arg0 := rfl
@[simp] theorem setCrc_arg1 (c : Word) : (s.setCrc c).arg1 = s.arg1 := rfl
@[simp] theorem setCrc_crc (c : Word) : (s.setCrc c).crc = c := rfl
@[simp] theorem setCrc_txlen (c : Word) : (s.setCrc c).txlen = s.txlen := rfl
@[simp] theorem setCrc_rxlen (c : Word) : (s.setCrc c).rxlen = s.rxlen := rfl
@[simp] theorem setCrc_regcnt (c : Word) : (s.setCrc c).regcnt = s.regcnt := rfl
@[simp] theorem setCrc_mem (c : Word) : (s.setCrc c).mem = s.mem := rfl
@[simp] theorem setCrc_rxq (c : Word) : (s.setCrc c).rxq = s.rxq := rfl
@[simp] theorem setCrc_txq (c : Word) : (s.setCrc c).txq = s.txq := rfl
@[simp] theorem setCrc_now (c : Word) : (s.setCrc c).now = s.now := rfl
@[simp] theorem setCrc_draws (c : Word) : (s.setCrc c).draws = s.draws := rfl
@[simp] theorem setCrc_drawCount (c : Word) : (s.setCrc c).drawCount = s.drawCount := rfl
@[simp] theorem setCrc_inputs (c : Word) : (s.setCrc c).inputs = s.inputs := rfl
@[simp] theorem setCrc_busLog (c : Word) : (s.setCrc c).busLog = s.busLog := rfl

@[simp] theorem setTxlen_params (n : Nat) : (s.setTxlen n).params = s.params := rfl
@[simp] theorem setTxlen_cmd (n : Nat) : (s.setTxlen n).cmd = s.cmd := rfl
@[simp] theorem setTxlen_res (n : Nat) : (s.setTxlen n).res = s.res := rfl
@[simp] theorem setTxlen_exc (n : Nat) : (s.setTxlen n).exc = s.exc := rfl
@[simp] theorem setTxlen_valid (n : Nat) : (s.setTxlen n).valid = s.valid := rfl
@[simp] theorem setTxlen_dir (n : Nat) : (s.setTxlen n).dir = s.dir := rfl
@[simp] theorem setTxlen_de (n : Nat) : (s.setTxlen n).de = s.de := rfl
@[simp] theorem setTxlen_slave (n : Nat) : (s.setTxlen n).slave = s.slave := rfl
@[simp] theorem setTxlen_timeout (n : Nat) : (s.setTxlen n).timeout = s.timeout := rfl
@[simp] theorem setTxlen_idle (n : Nat) : (s.setTxlen n).idle = s.idle := rfl
@[simp] theorem setTxlen_arg0 (n : Nat) : (s.setTxlen n).arg0 = s.arg0 := rfl
@[simp] theorem setTxlen_arg1 (n : Nat) : (s.setTxlen n).arg1 = s.arg1 := rfl
@[simp] theorem setTxlen_crc (n : Nat) : (s.setTxlen n).crc = s.crc := rfl
@[simp] theorem setTxlen_txlen (n : Nat) : (s.setTxlen n).txlen = n := rfl
@[simp] theorem setTxlen_rxlen (n : Nat) : (s.setTxlen n).rxlen = s.rxlen := rfl
@[simp] theorem setTxlen_regcnt (n : Nat) : (s.setTxlen n).regcnt = s.regcnt := rfl
@[simp] theorem setTxlen_mem (n : Nat) : (s.setTxlen n).mem = s.mem := rfl
@[simp] theorem setTxlen_rxq (n : Nat) : (s.setTxlen n).rxq = s.rxq := rfl
@[simp] theorem setTxlen_txq (n : Nat) : (s.setTxlen n).txq = s.txq := rfl
@[simp] theorem setTxlen_now (n : Nat) : (s.setTxlen n).now = s.now := rfl
@[simp] theorem setTxlen_draws (n : Nat) : (s.setTxlen n).draws = s.draws := rfl
@[simp] theorem setTxlen_drawCount (n : Nat) : (s.setTxlen n).drawCount = s.drawCount := rfl
@[simp] theorem setTxlen_inputs (n : Nat) : (s.setTxlen n).inputs = s.inputs := rfl
@[simp] theorem setTxlen_busLog (n : Nat) : (s.setTxlen n).busLog = s.busLog := rfl

@[simp] theorem setRxlen_params (n : Nat) : (s.setRxlen n).params = s.params := rfl
@[simp] theorem setRxlen_cmd (n : Nat) : (s.setRxlen n).cmd = s.cmd := rfl
@[simp] theorem setRxlen_res (n : Nat) : (s.setRxlen n).res = s.res := rfl
@[simp] theorem setRxlen_exc (n : Nat) : (s.setRxlen n).exc = s.exc := rfl
@[simp] theorem setRxlen_valid (n : Nat) : (s.setRxlen n).valid = s.valid := rfl
@[simp] theorem setRxlen_dir (n : Nat) : (s.setRxlen n).dir = s.dir := rfl
@[simp] theorem setRxlen_de (n : Nat) : (s.setRxlen n).de = s.de := rfl
@[simp] theorem setRxlen_slave (n : Nat) : (s.setRxlen n).slave = s.slave := rfl
@[simp] theorem setRxlen_timeout (n : Nat) : (s.setRxlen n).timeout = s.timeout := rfl
@[simp] theorem setRxlen_idle (n : Nat) : (s.setRxlen n).idle = s.idle := rfl
@[simp] theorem setRxlen_arg0 (n : Nat) : (s.setRxlen n).arg0 = s.arg0 := rfl
@[simp] theorem setRxlen_arg1 (n : Nat) : (s.setRxlen n).arg1 = s.arg1 := rfl
@[simp] theorem setRxlen_crc (n : Nat) : (s.setRxlen n).crc = s.crc := rfl
@[simp] theorem setRxlen_txlen (n : Nat) : (s.setRxlen n).txlen = s.txlen := rfl
@[simp] theorem setRxlen_rxlen (n : Nat) : (s.setRxlen n).rxlen = n := rfl
@[simp] theorem setRxlen_regcnt (n : Nat) : (s.setRxlen n).regcnt = s.regcnt := rfl
@[simp] theorem setRxlen_mem (n : Nat) : (s.setRxlen n).mem = s.mem := rfl
@[simp] theorem setRxlen_rxq (n : Nat) : (s.setRxlen n).rxq = s.rxq := rfl
@[simp] theorem setRxlen_txq (n : Nat) : (s.setRxlen n).txq = s.txq := rfl
@[simp] theorem setRxlen_now (n : Nat) : (s.setRxlen n).now = s.now := rfl
@[simp] theorem setRxlen_draws (n : Nat) : (s.setRxlen n).draws = s.draws := rfl
@[simp] theorem setRxlen_drawCount (n : Nat) : (s.setRxlen n).drawCount = s.drawCount := rfl
@[simp] theorem setRxlen_inputs (n : Nat) : (s.setRxlen n).inputs = s.inputs := rfl
@[simp] theorem setRxlen_busLog (n : Nat) : (s.setRxlen n).busLog = s.busLog := rfl

@[simp] theorem setRegcnt_params (n : Nat) : (s.setRegcnt n).params = s.params := rfl
@[simp] theorem setRegcnt_cmd (n : Nat) : (s.setRegcnt n).cmd = s.cmd := rfl
@[simp] theorem setRegcnt_res (n : Nat) : (s.setRegcnt n).res = s.res := rfl
@[simp] theorem setRegcnt_exc (n : Nat) : (s.setRegcnt n).exc = s.exc := rfl
@[simp] theorem setRegcnt_valid (n : Nat) : (s.setRegcnt n).valid = s.valid := rfl
@[simp] theorem setRegcnt_dir (n : Nat) : (s.setRegcnt n).dir = s.dir := rfl
@[simp] theorem setRegcnt_de (n : Nat) : (s.setRegcnt n).de = s.de := rfl
@[simp] theorem setRegcnt_slave (n : Nat) : (s.setRegcnt n).slave = s.slave := rfl
@[simp] theorem setRegcnt_timeout (n : Nat) : (s.setRegcnt n).timeout = s.timeout := rfl
@[simp] theorem setRegcnt_idle (n : Nat) : (s.setRegcnt n).idle = s.idle := rfl
@[simp] theorem setRegcnt_arg0 (n : Nat) : (s.setRegcnt n).arg0 = s.arg0 := rfl
@[simp] theorem setRegcnt_arg1 (n : Nat) : (s.setRegcnt n).arg1 = s.arg1 := rfl
@[simp] theorem setRegcnt_crc (n : Nat) : (s.setRegcnt n).crc = s.crc := rfl
@[simp] theorem setRegcnt_txlen (n : Nat) : (s.setRegcnt n).txlen = s.txlen := rfl
@[simp] theorem setRegcnt_rxlen (n : Nat) : (s.setRegcnt n).rxlen = s.rxlen := rfl
@[simp] theorem setRegcnt_regcnt (n : Nat) : (s.setRegcnt n).regcnt = n := rfl
@[simp] theorem setRegcnt_mem (n : Nat) : (s.setRegcnt n).mem = s.mem := rfl
@[simp] theorem setRegcnt_rxq (n : Nat) : (s.setRegcnt n).rxq = s.rxq := rfl
@[simp] theorem setRegcnt_txq (n : Nat) : (s.setRegcnt n).txq = s.txq := rfl
@[simp] theorem setRegcnt_now (n : Nat) : (s.setRegcnt n).now = s.now := rfl
@[simp] theorem setRegcnt_draws (n : Nat) : (s.setRegcnt n).draws = s.draws := rfl
@[simp] theorem setRegcnt_drawCount (n : Nat) : (s.setRegcnt n).drawCount = s.drawCount := rfl
@[simp] theorem setRegcnt_inputs (n : Nat) : (s.setRegcnt n).inputs = s.inputs := rfl
@[simp] theorem setRegcnt_busLog (n : Nat) : (s.setRegcnt n).busLog = s.busLog := rfl

@[simp] theorem setValid_params (v : Bool) : (s.setValid v).params = s.params := rfl
@[simp] theorem setValid_cmd (v : Bool) : (s.setValid v).cmd = s.cmd := rfl
@[simp] theorem setValid_res (v : Bool) : (s.setValid v).res = s.res := rfl
@[simp] theorem setValid_exc (v : Bool) : (s.setValid v).exc = s.exc := rfl
@[simp] theorem setValid_valid (v : Bool) : (s.setValid v).valid = v := rfl
@[simp] theorem setValid_dir (v : Bool) : (s.setValid v).dir = s.dir := rfl
@[simp] theorem setValid_de (v : Bool) : (s.setValid v).de = s.de := rfl
@[simp] theorem setValid_slave (v : Bool) : (s.setValid v).slave = s.slave := rfl
@[simp] theorem setValid_timeout (v : Bool) : (s.setValid v).timeout = s.timeout := rfl
@[simp] theorem setValid_idle (v : Bool) : (s.setValid v).idle = s.idle := rfl
@[simp] theorem setValid_arg0 (v : Bool) : (s.setValid v).arg0 = s.arg0 := rfl
@[simp] theorem setValid_arg1 (v : Bool) : (s.setValid v).arg1 = s.arg1 := rfl
@[simp] theorem setValid_crc (v : Bool) : (s.setValid v).crc = s.crc := rfl
@[simp] theorem setValid_txlen (v : Bool) : (s.setValid v).txlen = s.txlen := rfl
@[simp] theorem setValid_rxlen (v : Bool) : (s.setValid v).rxlen = s.rxlen := rfl
@[simp] theorem setValid_regcnt (v : Bool) : (s.setValid v).regcnt = s.regcnt := rfl
@[simp] theorem setValid_mem (v : Bool) : (s.setValid v).mem = s.mem := rfl
@[simp] theorem setValid_rxq (v : Bool) : (s.setValid v).rxq = s.rxq := rfl
@[simp] theorem setValid_txq (v : Bool) : (s.setValid v).txq = s.txq := rfl
@[simp] theorem setValid_now (v : Bool) : (s.setValid v).now = s.now := rfl
@[simp] theorem setValid_draws (v : Bool) : (s.setValid v).draws = s.draws := rfl
@[simp] theorem setValid_drawCount (v : Bool) : (s.setValid v).drawCount = s.drawCount := rfl
@[simp] theorem setValid_inputs (v : Bool) : (s.setValid v).inputs = s.inputs := rfl
@[simp] theorem setValid_busLog (v : Bool) : (s.setValid v).busLog = s.busLog := rfl

@[simp] theorem setDe_params (v : Bool) : (s.setDe v).params = s.params := rfl
@[simp] theorem setDe_cmd (v : Bool) : (s.setDe v).cmd = s.cmd := rfl
@[simp] theorem setDe_res (v : Bool) : (s.setDe v).res = s.res := rfl
@[simp] theorem setDe_exc (v : Bool) : (s.setDe v).exc = s.exc := rfl
@[simp] theorem setDe_valid (v : Bool) : (s.setDe v).valid = s.valid := rfl
@[simp] theorem setDe_dir (v : Bool) : (s.setDe v).dir = s.dir := rfl
@[simp] theorem setDe_de (v : Bool) : (s.setDe v).de = v := rfl
@[simp] theorem setDe_slave (v : Bool) : (s.setDe v).slave = s.slave := rfl
@[simp] theorem setDe_timeout (v : Bool) : (s.setDe v).timeout = s.timeout := rfl
@[simp] theorem setDe_idle (v : Bool) : (s.setDe v).idle = s.idle := rfl
@[simp] theorem setDe_arg0 (v : Bool) : (s.setDe v).arg0 = s.arg0 := rfl
@[simp] theorem setDe_arg1 (v : Bool) : (s.setDe v).arg1 = s.arg1 := rfl
@[simp] theorem setDe_crc (v : Bool) : (s.setDe v).crc = s.crc := rfl
@[simp] theorem setDe_txlen (v : Bool) : (s.setDe v).txlen = s.txlen := rfl
@[simp] theorem setDe_rxlen (v : Bool) : (s.setDe v).rxlen = s.rxlen := rfl
@[simp] theorem setDe_regcnt (v : Bool) : (s.setDe v).regcnt = s.regcnt := rfl
@[simp] theorem setDe_mem (v : Bool) : (s.setDe v).mem = s.mem := rfl
@[simp] theorem setDe_rxq (v : Bool) : (s.setDe v).rxq = s.rxq := rfl
@[simp] theorem setDe_txq (v : Bool) : (s.setDe v).txq = s.txq := rfl
@[simp] theorem setDe_now (v : Bool) : (s.setDe v).now = s.now := rfl
@[simp] theorem setDe_draws (v : Bool) : (s.setDe v).draws = s.draws := rfl
@[simp] theorem setDe_drawCount (v : Bool) : (s.setDe v).drawCount = s.drawCount := rfl
@[simp] theorem setDe_inputs (v : Bool) : (s.setDe v).inputs = s.inputs := rfl
@[simp] theorem setDe_busLog (v : Bool) : (s.setDe v).busLog = s.busLog := rfl

@[simp] theorem setDir_params (d : Director) : (s.setDir d).params = s.params := rfl
@[simp] theorem setDir_cmd (d : Director) : (s.setDir d).cmd = s.cmd := rfl
@[simp] theorem setDir_res (d : Director) : (s.setDir d).res = s.res := rfl
@[simp] theorem setDir_exc (d : Director) : (s.setDir d).exc = s.exc := rfl
@[simp] theorem setDir_valid (d : Director) : (s.setDir d).valid = s.valid := rfl
@[simp] theorem setDir_dir (d : Director) : (s.setDir d).dir = d := rfl
@[simp] theorem setDir_de (d : Director) : (s.setDir d).de = s.de := rfl
@[simp] theorem setDir_slave (d : Director) : (s.setDir d).slave = s.slave := rfl
@[simp] theorem setDir_timeout (d : Director) : (s.setDir d).timeout = s.timeout := rfl
@[simp] theorem setDir_idle (d : Director) : (s.setDir d).idle = s.idle := rfl
@[simp] theorem setDir_arg0 (d : Director) : (s.setDir d).arg0 = s.arg0 := rfl
@[simp] theorem setDir_arg1 (d : Director) : (s.setDir d).arg1 = s.arg1 := rfl
@[simp] theorem setDir_crc (d : Director) : (s.setDir d).crc = s.crc := rfl
@[simp] theorem setDir_txlen (d : Director) : (s.setDir d).txlen = s.txlen := rfl
@[simp] theorem setDir_rxlen (d : Director) : (s.setDir d).rxlen = s.rxlen := rfl
@[simp] theorem setDir_regcnt (d : Director) : (s.setDir d).regcnt = s.regcnt := rfl
@[simp] theorem setDir_mem (d : Director) : (s.setDir d).mem = s.mem := rfl
@[simp] theorem setDir_rxq (d : Director) : (s.setDir d).rxq = s.rxq := rfl
@[simp] theorem setDir_txq (d : Director) : (s.setDir d).txq = s.txq := rfl
@[simp] theorem setDir_now (d : Director) : (s.setDir d).now = s.now := rfl
@[simp] theorem setDir_draws (d : Director) : (s.setDir d).draws = s.draws := rfl
@[simp] theorem setDir_drawCount (d : Director) : (s.setDir d).drawCount = s.drawCount := rfl
@[simp] theorem setDir_inputs (d : Director) : (s.setDir d).inputs = s.inputs := rfl
@[simp] theorem setDir_busLog (d : Director) : (s.setDir d).busLog = s.busLog := rfl

@[simp] theorem leftOff_params (n : Nat) (q : List RxEntry) : (s.leftOff n q).params = s.params := rfl
@[simp] theorem leftOff_cmd (n : Nat) (q : List RxEntry) : (s.leftOff n q).cmd = s.cmd := rfl
@[simp] theorem leftOff_res (n : Nat) (q : List RxEntry) : (s.leftOff n q).res = s.res := rfl
@[simp] theorem leftOff_exc (n : Nat) (q : List RxEntry) : (s.leftOff n q).exc = s.exc := rfl
@[simp] theorem leftOff_valid (n : Nat) (q : List RxEntry) : (s.leftOff n q).valid = s.valid := rfl
@[simp] theorem leftOff_dir (n : Nat) (q : List RxEntry) : (s.leftOff n q).dir = s.dir := rfl
@[simp] theorem leftOff_de (n : Nat) (q : List RxEntry) : (s.leftOff n q).de = s.de := rfl
@[simp] theorem leftOff_slave (n : Nat) (q : List RxEntry) : (s.leftOff n q).slave = s.slave := rfl
@[simp] theorem leftOff_timeout (n : Nat) (q : List RxEntry) : (s.leftOff n q).timeout = s.timeout := rfl
@[simp] theorem leftOff_idle (n : Nat) (q : List RxEntry) : (s.leftOff n q).idle = s.idle := rfl
@[simp] theorem leftOff_arg0 (n : Nat) (q : List RxEntry) : (s.leftOff n q).arg0 = s.arg0 := rfl
@[simp] theorem leftOff_arg1 (n : Nat) (q : List RxEntry) : (s.leftOff n q).arg1 = s.arg1 := rfl
@[simp] theorem leftOff_crc (n : Nat) (q : List RxEntry) : (s.leftOff n q).crc = s.crc := rfl
@[simp] theorem leftOff_txlen (n : Nat) (q : List RxEntry) : (s.leftOff n q).txlen = s.txlen := rfl
@[simp] theorem leftOff_rxlen (n : Nat) (q : List RxEntry) : (s.leftOff n q).rxlen = s.rxlen := rfl
@[simp] theorem leftOff_regcnt (n : Nat) (q : List RxEntry) : (s.leftOff n q).regcnt = s.regcnt := rfl
@[simp] theorem leftOff_mem (n : Nat) (q : List RxEntry) : (s.leftOff n q).mem = s.mem := rfl
@[simp] theorem leftOff_rxq (n : Nat) (q : List RxEntry) : (s.leftOff n q).rxq = q := rfl
@[simp] theorem leftOff_txq (n : Nat) (q : List RxEntry) : (s.leftOff n q).txq = s.txq := rfl
@[simp] theorem leftOff_now (n : Nat) (q : List RxEntry) : (s.leftOff n q).now = n := rfl
@[simp] theorem leftOff_draws (n : Nat) (q : List RxEntry) : (s.leftOff n q).draws = s.draws := rfl
@[simp] theorem leftOff_drawCount (n : Nat) (q : List RxEntry) : (s.leftOff n q).drawCount = s.drawCount := rfl
@[simp] theorem leftOff_inputs (n : Nat) (q : List RxEntry) : (s.leftOff n q).inputs = s.inputs := rfl
@[simp] theorem leftOff_busLog (n : Nat) (q : List RxEntry) : (s.leftOff n q).busLog = s.busLog := rfl

@[simp] theorem setInputs_params (l : List Input) : (s.setInputs l).params = s.params := rfl
@[simp] theorem setInputs_cmd (l : List Input) : (s.setInputs l).cmd = s.cmd := rfl
@[simp] theorem setInputs_res (l : List Input) : (s.setInputs l).res = s.res := rfl
@[simp] theorem setInputs_exc (l : List Input) : (s.setInputs l).exc = s.exc := rfl
@[simp] theorem setInputs_valid (l : List Input) : (s.setInputs l).valid = s.valid := rfl
@[simp] theorem setInputs_dir (l : List Input) : (s.setInputs l).dir = s.dir := rfl
@[simp] theorem setInputs_de (l : List Input) : (s.setInputs l).de = s.de := rfl
@[simp] theorem setInputs_slave (l : List Input) : (s.setInputs l).slave = s.slave := rfl
@[simp] theorem setInputs_timeout (l : List Input) : (s.setInputs l).timeout = s.timeout := rfl
@[simp] theorem setInputs_idle (l : List Input) : (s.setInputs l).idle = s.idle := rfl
@[simp] theorem setInputs_arg0 (l : List Input) : (s.setInputs l).arg0 = s.arg0 := rfl
@[simp] theorem setInputs_arg1 (l : List Input) : (s.setInputs l).arg1 = s.arg1 := rfl
@[simp] theorem setInputs_crc (l : List Input) : (s.setInputs l).crc = s.crc := rfl
@[simp] theorem setInputs_txlen (l : List Input) : (s.setInputs l).txlen = s.txlen := rfl
@[simp] theorem setInputs_rxlen (l : List Input) : (s.setInputs l).rxlen = s.rxlen := rfl
@[simp] theorem setInputs_regcnt (l : List Input) : (s.setInputs l).regcnt = s.regcnt := rfl
@[simp] theorem setInputs_mem (l : List Input) : (s.setInputs l).mem = s.mem := rfl
@[simp] theorem setInputs_rxq (l : List Input) : (s.setInputs l).rxq = s.rxq := rfl
@[simp] theorem setInputs_txq (l : List Input) : (s.setInputs l).txq = s.txq := rfl
@[simp] theorem setInputs_now (l : List Input) : (s.setInputs l).now = s.now := rfl
@[simp] theorem setInputs_draws (l : List Input) : (s.setInputs l).draws = s.draws := rfl
@[simp] theorem setInputs_drawCount (l : List Input) : (s.setInputs l).drawCount = s.drawCount := rfl
@[simp] theorem setInputs_inputs (l : List Input) : (s.setInputs l).inputs = l := rfl
@[simp] theorem setInputs_busLog (l : List Input) : (s.setInputs l).busLog = s.busLog := rfl

@[simp] theorem finishExc_params (c : ResCode) (x : Byte) : (s.finishExc c x).params = s.params := rfl
@[simp] theorem finishExc_cmd (c : ResCode) (x : Byte) : (s.finishExc c x).cmd = s.cmd := rfl
@[simp] theorem finishExc_res (c : ResCode) (x : Byte) : (s.finishExc c x).res = c := rfl
@[simp] theorem finishExc_exc (c : ResCode) (x : Byte) : (s.finishExc c x).exc = x := rfl
@[simp] theorem finishExc_valid (c : ResCode) (x : Byte) : (s.finishExc c x).valid = s.valid := rfl
@[simp] theorem finishExc_dir (c : ResCode) (x : Byte) : (s.finishExc c x).dir = s.dir := rfl
@[simp] theorem finishExc_de (c : ResCode) (x : Byte) : (s.finishExc c x).de = s.de := rfl
@[simp] theorem finishExc_slave (c : ResCode) (x : Byte) : (s.finishExc c x).slave = s.slave := rfl
@[simp] theorem finishExc_timeout (c : ResCode) (x : Byte) : (s.finishExc c x).timeout = s.timeout := rfl
@[simp] theorem finishExc_idle (c : ResCode) (x : Byte) : (s.finishExc c x).idle = s.idle := rfl
@[simp] theorem finishExc_arg0 (c : ResCode) (x : Byte) : (s.finishExc c x).arg0 = s.arg0 := rfl
@[simp] theorem finishExc_arg1 (c : ResCode) (x : Byte) : (s.finishExc c x).arg1 = s.arg1 := rfl
@[simp] theorem finishExc_crc (c : ResCode) (x : Byte) : (s.finishExc c x).crc = s.crc := rfl
@[simp] theorem finishExc_txlen (c : ResCode) (x : Byte) : (s.finishExc c x).txlen = s.txlen := rfl
@[simp] theorem finishExc_rxlen (c : ResCode) (x : Byte) : (s.finishExc c x).rxlen = s.rxlen := rfl
@[simp] theorem finishExc_regcnt (c : ResCode) (x : Byte) : (s.finishExc c x).regcnt = s.regcnt := rfl
@[simp] theorem finishExc_mem (c : ResCode) (x : Byte) : (s.finishExc c x).mem = s.mem := rfl
@[simp] theorem finishExc_rxq (c : ResCode) (x : Byte) : (s.finishExc c x).rxq = s.rxq := rfl
@[simp] theorem finishExc_txq (c : ResCode) (x : Byte) : (s.finishExc c x).txq = s.txq := rfl
@[simp] theorem finishExc_now (c : ResCode) (x : Byte) : (s.finishExc c x).now = s.now := rfl
@[simp] theorem finishExc_draws (c : ResCode) (x : Byte) : (s.finishExc c x).draws = s.draws := rfl
@[simp] theorem finishExc_drawCount (c : ResCode) (x : Byte) : (s.finishExc c x).drawCount = s.drawCount := rfl
@[simp] theorem finishExc_inputs (c : ResCode) (x : Byte) : (s.finishExc c x).inputs = s.inputs := rfl
@[simp] theorem finishExc_busLog (c : ResCode) (x : Byte) : (s.finishExc c x).busLog = s.busLog := rfl

@[simp] theorem finish_params (c : ResCode) : (s.finish c).params = s.params := rfl
@[simp] theorem finish_cmd (c : ResCode) : (s.finish c).cmd = s.cmd := rfl
@[simp] theorem finish_res (c : ResCode) : (s.finish c).res = c := rfl
@[simp] theorem finish_exc (c : ResCode) : (s.finish c).exc = 0 := rfl
@[simp] theorem finish_valid (c : ResCode) : (s.finish c).valid = s.valid := rfl
@[simp] theorem finish_dir (c : ResCode) : (s.finish c).dir = s.dir := rfl
@[simp] theorem finish_de (c : ResCode) : (s.finish c).de = s.de := rfl
@[simp] theorem finish_slave (c : ResCode) : (s.finish c).slave = s.slave := rfl
@[simp] theorem finish_timeout (c : ResCode) : (s.finish c).timeout = s.timeout := rfl
@[simp] theorem finish_idle (c : ResCode) : (s.finish c).idle = s.idle := rfl
@[simp] theorem finish_arg0 (c : ResCode) : (s.finish c).arg0 = s.arg0 := rfl
@[simp] theorem finish_arg1 (c : ResCode) : (s.finish c).arg1 = s.arg1 := rfl
@[simp] theorem finish_crc (c : ResCode) : (s.finish c).crc = s.crc := rfl
@[simp] theorem finish_txlen (c : ResCode) : (s.finish c).txlen = s.txlen := rfl
@[simp] theorem finish_rxlen (c : ResCode) : (s.finish c).rxlen = s.rxlen := rfl
@[simp] theorem finish_regcnt (c : ResCode) : (s.finish c).regcnt = s.regcnt := rfl
@[simp] theorem finish_mem (c : ResCode) : (s.finish c).mem = s.mem := rfl
@[simp] theorem finish_rxq (c : ResCode) : (s.finish c).rxq = s.rxq := rfl
@[simp] theorem finish_txq (c : ResCode) : (s.finish c).txq = s.txq := rfl
@[simp] theorem finish_now (c : ResCode) : (s.finish c).now = s.now := rfl
@[simp] theorem finish_draws (c : ResCode) : (s.finish c).draws = s.draws := rfl
@[simp] theorem finish_drawCount (c : ResCode) : (s.finish c).drawCount = s.drawCount := rfl
@[simp] theorem finish_inputs (c : ResCode) : (s.finish c).inputs = s.inputs := rfl
@[simp] theorem finish_busLog (c : ResCode) : (s.finish c).busLog = s.busLog := rfl

@[simp] theorem wait_params (n : Nat) : (s.wait n).params = s.params := rfl
@[simp] theorem wait_cmd (n : Nat) : (s.wait n).cmd = s.cmd := rfl
@[simp] theorem wait_res (n : Nat) : (s.wait n).res = s.res := rfl
@[simp] theorem wait_exc (n : Nat) : (s.wait n).exc = s.exc := rfl
@[simp] theorem wait_valid (n : Nat) : (s.wait n).valid = s.valid := rfl
@[simp] theorem wait_dir (n : Nat) : (s.wait n).dir = s.dir := rfl
@[simp] theorem wait_de (n : Nat) : (s.wait n).de = s.de := rfl
@[simp] theorem wait_slave (n : Nat) : (s.wait n).slave = s.slave := rfl
@[simp] theorem wait_timeout (n : Nat) : (s.wait n).timeout = s.timeout := rfl
@[simp] theorem wait_idle (n : Nat) : (s.wait n).idle = s.idle := rfl
@[simp] theorem wait_arg0 (n : Nat) : (s.wait n).arg0 = s.arg0 := rfl
@[simp] theorem wait_arg1 (n : Nat) : (s.wait n).arg1 = s.arg1 := rfl
@[simp] theorem wait_crc (n : Nat) : (s.wait n).crc = s.crc := rfl
@[simp] theorem wait_txlen (n : Nat) : (s.wait n).txlen = s.txlen := rfl
@[simp] theorem wait_rxlen (n : Nat) : (s.wait n).rxlen = s.rxlen := rfl
@[simp] theorem wait_regcnt (n : Nat) : (s.wait n).regcnt = s.regcnt := rfl
@[simp] theorem wait_mem (n : Nat) : (s.wait n).mem = s.mem := rfl
@[simp] theorem wait_rxq (n : Nat) : (s.wait n).rxq = s.rxq := rfl
@[simp] theorem wait_txq (n : Nat) : (s.wait n).txq = s.txq := rfl
@[simp] theorem wait_now (n : Nat) : (s.wait n).now = s.now + n := rfl
@[simp] theorem wait_draws (n : Nat) : (s.wait n).draws = s.draws := rfl
@[simp] theorem wait_drawCount (n : Nat) : (s.wait n).drawCount = s.drawCount := rfl
@[simp] theorem wait_inputs (n : Nat) : (s.wait n).inputs = s.inputs := rfl
@[simp] theorem wait_busLog (n : Nat) : (s.wait n).busLog = s.busLog := rfl

@[simp] theorem drawn_params : s.drawn.params = s.params := rfl
@[simp] theorem drawn_cmd : s.drawn.cmd = s.cmd := rfl
@[simp] theorem drawn_res : s.drawn.res = s.res := rfl
@[simp] theorem drawn_exc : s.drawn.exc = s.exc := rfl
@[simp] theorem drawn_valid : s.drawn.valid = s.valid := rfl
@[simp] theorem drawn_dir : s.drawn.dir = s.dir := rfl
@[simp] theorem drawn_de : s.drawn.de = s.de := rfl
@[simp] theorem drawn_slave : s.drawn.slave = s.slave := rfl
@[simp] theorem drawn_timeout : s.drawn.timeout = s.timeout := rfl
@[simp] theorem drawn_idle : s.drawn.idle = s.idle := rfl
@[simp] theorem drawn_arg0 : s.drawn.arg0 = s.arg0 := rfl
@[simp] theorem drawn_arg1 : s.drawn.arg1 = s.arg1 := rfl
@[simp] theorem drawn_crc : s.drawn.crc = s.crc := rfl
@[simp] theorem drawn_txlen : s.drawn.txlen = s.txlen := rfl
@[simp] theorem drawn_rxlen : s.drawn.rxlen = s.rxlen := rfl
@[simp] theorem drawn_regcnt : s.drawn.regcnt = s.regcnt := rfl
@[simp] theorem drawn_mem : s.drawn.mem = s.mem := rfl
@[simp] theorem drawn_rxq : s.drawn.rxq = s.rxq := rfl
@[simp] theorem drawn_txq : s.drawn.txq = s.txq := rfl
@[simp] theorem drawn_now : s.drawn.now = s.now := rfl
@[simp] theorem drawn_draws : s.drawn.draws = s.draws.tail := rfl
@[simp] theorem drawn_drawCount : s.drawn.drawCount = if s.draws.isEmpty then s.drawCount + 1 else s.drawCount := rfl
@[simp] theorem drawn_inputs : s.drawn.inputs = s.inputs := rfl
@[simp] theorem drawn_busLog : s.drawn.busLog = s.busLog := rfl

@[simp] theorem elapse_params : s.elapse.params = s.params := rfl
@[simp] theorem elapse_cmd : s.elapse.cmd = s.cmd := rfl
@[simp] theorem elapse_res : s.elapse.res = s.res := rfl
@[simp] theorem elapse_exc : s.elapse.exc = s.exc := rfl
@[simp] theorem elapse_valid : s.elapse.valid = s.valid := rfl
@[simp] theorem elapse_dir : s.elapse.dir = s.dir := rfl
@[simp] theorem elapse_de : s.elapse.de = s.de := rfl
@[simp] theorem elapse_slave : s.elapse.slave = s.slave := rfl
@[simp] theorem elapse_timeout : s.elapse.timeout = s.timeout := rfl
@[simp] theorem elapse_idle : s.elapse.idle = s.idle := rfl
@[simp] theorem elapse_arg0 : s.elapse.arg0 = s.arg0 := rfl
@[simp] theorem elapse_arg1 : s.elapse.arg1 = s.arg1 := rfl
@[simp] theorem elapse_crc : s.elapse.crc = s.crc := rfl
@[simp] theorem elapse_txlen : s.elapse.txlen = s.txlen := rfl
@[simp] theorem elapse_rxlen : s.elapse.rxlen = s.rxlen := rfl
@[simp] theorem elapse_regcnt : s.elapse.regcnt = s.regcnt := rfl
@[simp] theorem elapse_mem : s.elapse.mem = s.mem := rfl
@[simp] theorem elapse_rxq : s.elapse.rxq = s.rxq := rfl
@[simp] theorem elapse_txq : s.elapse.txq = s.txq := rfl
@[simp] theorem elapse_now : s.elapse.now = s.now + s.drawValue := rfl
@[simp] theorem elapse_draws : s.elapse.draws = s.draws.tail := rfl
@[simp] theorem elapse_drawCount : s.elapse.drawCount = if s.draws.isEmpty then s.drawCount + 1 else s.drawCount := rfl
@[simp] theorem elapse_inputs : s.elapse.inputs = s.inputs := rfl
@[simp] theorem elapse_busLog : s.elapse.busLog = s.busLog := rfl

@[simp] theorem complete_params (c : ResCode) : (s.complete c).params = s.params := rfl
@[simp] theorem complete_cmd (c : ResCode) : (s.complete c).cmd = s.cmd := rfl
@[simp] theorem complete_res (c : ResCode) : (s.complete c).res = c := rfl
@[simp] theorem complete_exc (c : ResCode) : (s.complete c).exc = 0 := rfl
@[simp] theorem complete_valid (c : ResCode) : (s.complete c).valid = s.valid := rfl
@[simp] theorem complete_dir (c : ResCode) : (s.complete c).dir = s.dir := rfl
@[simp] theorem complete_de (c : ResCode) : (s.complete c).de = s.de := rfl
@[simp] theorem complete_slave (c : ResCode) : (s.complete c).slave = s.slave := rfl
@[simp] theorem complete_timeout (c : ResCode) : (s.complete c).timeout = s.timeout := rfl
@[simp] theorem complete_idle (c : ResCode) : (s.complete c).idle = s.idle := rfl
@[simp] theorem complete_arg0 (c : ResCode) : (s.complete c).arg0 = s.arg0 := rfl
@[simp] theorem complete_arg1 (c : ResCode) : (s.complete c).arg1 = s.arg1 := rfl
@[simp] theorem complete_crc (c : ResCode) : (s.complete c).crc = s.crc := rfl
@[simp] theorem complete_txlen (c : ResCode) : (s.complete c).txlen = s.txlen := rfl
@[simp] theorem complete_rxlen (c : ResCode) : (s.complete c).rxlen = s.rxlen := rfl
@[simp] theorem complete_regcnt (c : ResCode) : (s.complete c).regcnt = s.regcnt := rfl
@[simp] theorem complete_mem (c : ResCode) : (s.complete c).mem = s.mem := rfl
@[simp] theorem complete_rxq (c : ResCode) : (s.complete c).rxq = s.rxq := rfl
@[simp] theorem complete_txq (c : ResCode) : (s.complete c).txq = s.txq := rfl
@[simp] theorem complete_now (c : ResCode) : (s.complete c).now = s.now + s.drawValue := rfl
@[simp] theorem complete_draws (c : ResCode) : (s.complete c).draws = s.draws.tail := rfl
@[simp] theorem complete_drawCount (c : ResCode) : (s.complete c).drawCount = if s.draws.isEmpty then s.drawCount + 1 else s.drawCount := rfl
@[simp] theorem complete_inputs (c : ResCode) : (s.complete c).inputs = s.inputs := rfl
@[simp] theorem complete_busLog (c : ResCode) : (s.complete c).busLog = s.busLog := rfl

@[simp] theorem storeBytes_params (b : Buf) (i : Nat) (F : List Byte) : (s.storeBytes b i F).params = s.params := rfl
@[simp] theorem storeBytes_cmd (b : Buf) (i : Nat) (F : List Byte) : (s.storeBytes b i F).cmd = s.cmd := rfl
@[simp] theorem storeBytes_res (b : Buf) (i : Nat) (F : List Byte) : (s.storeBytes b i F).res = s.res := rfl
@[simp] theorem storeBytes_exc (b : Buf) (i : Nat) (F : List Byte) : (s.storeBytes b i F).exc = s.exc := rfl
@[simp] theorem storeBytes_valid (b : Buf) (i : Nat) (F : List Byte) : (s.storeBytes b i F).valid = s.valid := rfl
@[simp] theorem storeBytes_dir (b : Buf) (i : Nat) (F : List Byte) : (s.storeBytes b i F).dir = s.dir := rfl
@[simp] theorem storeBytes_de (b : Buf) (i : Nat) (F : List Byte) : (s.storeBytes b i F).de = s.de := rfl
@[simp] theorem storeBytes_slave (b : Buf) (i : Nat) (F : List Byte) : (s.storeBytes b i F).slave = s.slave := rfl
@[simp] theorem storeBytes_timeout (b : Buf) (i : Nat) (F : List Byte) : (s.storeBytes b i F).timeout = s.timeout := rfl
@[simp] theorem storeBytes_idle (b : Buf) (i : Nat) (F : List Byte) : (s.storeBytes b i F).idle = s.idle := rfl
@[simp] theorem storeBytes_arg0 (b : Buf) (i : Nat) (F : List Byte) : (s.storeBytes b i F).arg0 = s.arg0 := rfl
@[simp] theorem storeBytes_arg1 (b : Buf) (i : Nat) (F : List Byte) : (s.storeBytes b i F).arg1 = s.arg1 := rfl
@[simp] theorem storeBytes_crc (b : Buf) (i : Nat) (F : List Byte) : (s.storeBytes b i F).crc = s.crc := rfl
@[simp] theorem storeBytes_txlen (b : Buf) (i : Nat) (F : List Byte) : (s.storeBytes b i F).txlen = s.txlen := rfl
@[simp] theorem storeBytes_rxlen (b : Buf) (i : Nat) (F : List Byte) : (s.storeBytes b i F).rxlen = s.rxlen := rfl
@[simp] theorem storeBytes_regcnt (b : Buf) (i : Nat) (F : List Byte) : (s.storeBytes b i F).regcnt = s.regcnt := rfl
@[simp] theorem storeBytes_mem (b : Buf) (i : Nat) (F : List Byte) : (s.storeBytes b i F).mem = Memory.storeBytes s.mem (b.addr i) F := rfl
@[simp] theorem storeBytes_rxq (b : Buf) (i : Nat) (F : List Byte) : (s.storeBytes b i F).rxq = s.rxq := rfl
@[simp] theorem storeBytes_txq (b : Buf) (i : Nat) (F : List Byte) : (s.storeBytes b i F).txq = s.txq := rfl
@[simp] theorem storeBytes_now (b : Buf) (i : Nat) (F : List Byte) : (s.storeBytes b i F).now = s.now := rfl
@[simp] theorem storeBytes_draws (b : Buf) (i : Nat) (F : List Byte) : (s.storeBytes b i F).draws = s.draws := rfl
@[simp] theorem storeBytes_drawCount (b : Buf) (i : Nat) (F : List Byte) : (s.storeBytes b i F).drawCount = s.drawCount := rfl
@[simp] theorem storeBytes_inputs (b : Buf) (i : Nat) (F : List Byte) : (s.storeBytes b i F).inputs = s.inputs := rfl
@[simp] theorem storeBytes_busLog (b : Buf) (i : Nat) (F : List Byte) : (s.storeBytes b i F).busLog = s.busLog := rfl

@[simp] theorem storeWords_params (b : Buf) (R : List Word) : (s.storeWords b R).params = s.params := rfl
@[simp] theorem storeWords_cmd (b : Buf) (R : List Word) : (s.storeWords b R).cmd = s.cmd := rfl
@[simp] theorem storeWords_res (b : Buf) (R : List Word) : (s.storeWords b R).res = s.res := rfl
@[simp] theorem storeWords_exc (b : Buf) (R : List Word) : (s.storeWords b R).exc = s.exc := rfl
@[simp] theorem storeWords_valid (b : Buf) (R : List Word) : (s.storeWords b R).valid = s.valid := rfl
@[simp] theorem storeWords_dir (b : Buf) (R : List Word) : (s.storeWords b R).dir = s.dir := rfl
@[simp] theorem storeWords_de (b : Buf) (R : List Word) : (s.storeWords b R).de = s.de := rfl
@[simp] theorem storeWords_slave (b : Buf) (R : List Word) : (s.storeWords b R).slave = s.slave := rfl
@[simp] theorem storeWords_timeout (b : Buf) (R : List Word) : (s.storeWords b R).timeout = s.timeout := rfl
@[simp] theorem storeWords_idle (b : Buf) (R : List Word) : (s.storeWords b R).idle = s.idle := rfl
@[simp] theorem storeWords_arg0 (b : Buf) (R : List Word) : (s.storeWords b R).arg0 = s.arg0 := rfl
@[simp] theorem storeWords_arg1 (b : Buf) (R : List Word) : (s.storeWords b R).arg1 = s.arg1 := rfl
@[simp] theorem storeWords_crc (b : Buf) (R : List Word) : (s.storeWords b R).crc = s.crc := rfl
@[simp] theorem storeWords_txlen (b : Buf) (R : List Word) : (s.storeWords b R).txlen = s.txlen := rfl
@[simp] theorem storeWords_rxlen (b : Buf) (R : List Word) : (s.storeWords b R).rxlen = s.rxlen := rfl
@[simp] theorem storeWords_regcnt (b : Buf) (R : List Word) : (s.storeWords b R).regcnt = s.regcnt := rfl
@[simp] theorem storeWords_mem (b : Buf) (R : List Word) : (s.storeWords b R).mem = Memory.storeWords s.mem (b.addr 0) R := rfl
@[simp] theorem storeWords_rxq (b : Buf) (R : List Word) : (s.storeWords b R).rxq = s.rxq := rfl
@[simp] theorem storeWords_txq (b : Buf) (R : List Word) : (s.storeWords b R).txq = s.txq := rfl
@[simp] theorem storeWords_now (b : Buf) (R : List Word) : (s.storeWords b R).now = s.now := rfl
@[simp] theorem storeWords_draws (b : Buf) (R : List Word) : (s.storeWords b R).draws = s.draws := rfl
@[simp] theorem storeWords_drawCount (b : Buf) (R : List Word) : (s.storeWords b R).drawCount = s.drawCount := rfl
@[simp] theorem storeWords_inputs (b : Buf) (R : List Word) : (s.storeWords b R).inputs = s.inputs := rfl
@[simp] theorem storeWords_busLog (b : Buf) (R : List Word) : (s.storeWords b R).busLog = s.busLog := rfl

@[simp] theorem emptyBuf_params (b : Buf) : (s.emptyBuf b).params = s.params := rfl
@[simp] theorem emptyBuf_cmd (b : Buf) : (s.emptyBuf b).cmd = s.cmd := rfl
@[simp] theorem emptyBuf_res (b : Buf) : (s.emptyBuf b).res = s.res := rfl
@[simp] theorem emptyBuf_exc (b : Buf) : (s.emptyBuf b).exc = s.exc := rfl
@[simp] theorem emptyBuf_valid (b : Buf) : (s.emptyBuf b).valid = s.valid := rfl
@[simp] theorem emptyBuf_dir (b : Buf) : (s.emptyBuf b).dir = s.dir := rfl
@[simp] theorem emptyBuf_de (b : Buf) : (s.emptyBuf b).de = s.de := rfl
@[simp] theorem emptyBuf_slave (b : Buf) : (s.emptyBuf b).slave = s.slave := rfl
@[simp] theorem emptyBuf_timeout (b : Buf) : (s.emptyBuf b).timeout = s.timeout := rfl
@[simp] theorem emptyBuf_idle (b : Buf) : (s.emptyBuf b).idle = s.idle := rfl
@[simp] theorem emptyBuf_arg0 (b : Buf) : (s.emptyBuf b).arg0 = s.arg0 := rfl
@[simp] theorem emptyBuf_arg1 (b : Buf) : (s.emptyBuf b).arg1 = s.arg1 := rfl
@[simp] theorem emptyBuf_crc (b : Buf) : (s.emptyBuf b).crc = s.crc := rfl
@[simp] theorem emptyBuf_txlen (b : Buf) : (s.emptyBuf b).txlen = s.txlen := rfl
@[simp] theorem emptyBuf_rxlen (b : Buf) : (s.emptyBuf b).rxlen = s.rxlen := rfl
@[simp] theorem emptyBuf_regcnt (b : Buf) : (s.emptyBuf b).regcnt = s.regcnt := rfl
@[simp] theorem emptyBuf_mem (b : Buf) : (s.emptyBuf b).mem = Memory.clear s.mem b.base (b.base + 0x400) := rfl
@[simp] theorem emptyBuf_rxq (b : Buf) : (s.emptyBuf b).rxq = s.rxq := rfl
@[simp] theorem emptyBuf_txq (b : Buf) : (s.emptyBuf b).txq = s.txq := rfl
@[simp] theorem emptyBuf_now (b : Buf) : (s.emptyBuf b).now = s.now := rfl
@[simp] theorem emptyBuf_draws (b : Buf) : (s.emptyBuf b).draws = s.draws := rfl
@[simp] theorem emptyBuf_drawCount (b : Buf) : (s.emptyBuf b).drawCount = s.drawCount := rfl
@[simp] theorem emptyBuf_inputs (b : Buf) : (s.emptyBuf b).inputs = s.inputs := rfl
@[simp] theorem emptyBuf_busLog (b : Buf) : (s.emptyBuf b).busLog = s.busLog := rfl

@[simp] theorem streamWrite_params (F : List Byte) : (s.streamWrite F).params = s.params := rfl
@[simp] theorem streamWrite_cmd (F : List Byte) : (s.streamWrite F).cmd = s.cmd := rfl
@[simp] theorem streamWrite_res (F : List Byte) : (s.streamWrite F).res = s.res := rfl
@[simp] theorem streamWrite_exc (F : List Byte) : (s.streamWrite F).exc = s.exc := rfl
@[simp] theorem streamWrite_valid (F : List Byte) : (s.streamWrite F).valid = s.valid := rfl
@[simp] theorem streamWrite_dir (F : List Byte) : (s.streamWrite F).dir = s.dir := rfl
@[simp] theorem streamWrite_de (F : List Byte) : (s.streamWrite F).de = s.de := rfl
@[simp] theorem streamWrite_slave (F : List Byte) : (s.streamWrite F).slave = s.slave := rfl
@[simp] theorem streamWrite_timeout (F : List Byte) : (s.streamWrite F).timeout = s.timeout := rfl
@[simp] theorem streamWrite_idle (F : List Byte) : (s.streamWrite F).idle = s.idle := rfl
@[simp] theorem streamWrite_arg0 (F : List Byte) : (s.streamWrite F).arg0 = s.arg0 := rfl
@[simp] theorem streamWrite_arg1 (F : List Byte) : (s.streamWrite F).arg1 = s.arg1 := rfl
@[simp] theorem streamWrite_crc (F : List Byte) : (s.streamWrite F).crc = s.crc := rfl
@[simp] theorem streamWrite_txlen (F : List Byte) : (s.streamWrite F).txlen = s.txlen := rfl
@[simp] theorem streamWrite_rxlen (F : List Byte) : (s.streamWrite F).rxlen = s.rxlen := rfl
@[simp] theorem streamWrite_regcnt (F : List Byte) : (s.streamWrite F).regcnt = s.regcnt := rfl
@[simp] theorem streamWrite_mem (F : List Byte) : (s.streamWrite F).mem = s.mem := rfl
@[simp] theorem streamWrite_rxq (F : List Byte) : (s.streamWrite F).rxq = s.rxq := rfl
@[simp] theorem streamWrite_txq (F : List Byte) : (s.streamWrite F).txq = s.txq ++ F.map (fun b => ⟨b, s.now, s.de⟩) := rfl
@[simp] theorem streamWrite_now (F : List Byte) : (s.streamWrite F).now = s.now := rfl
@[simp] theorem streamWrite_draws (F : List Byte) : (s.streamWrite F).draws = s.draws := rfl
@[simp] theorem streamWrite_drawCount (F : List Byte) : (s.streamWrite F).drawCount = s.drawCount := rfl
@[simp] theorem streamWrite_inputs (F : List Byte) : (s.streamWrite F).inputs = s.inputs := rfl
@[simp] theorem streamWrite_busLog (F : List Byte) : (s.streamWrite F).busLog = s.busLog := rfl

@[simp] theorem discardArrived_params : s.discardArrived.params = s.params := rfl
@[simp] theorem discardArrived_cmd : s.discardArrived.cmd = s.cmd := rfl
@[simp] theorem discardArrived_res : s.discardArrived.res = s.res := rfl
@[simp] theorem discardArrived_exc : s.discardArrived.exc = s.exc := rfl
@[simp] theorem discardArrived_valid : s.discardArrived.valid = s.valid := rfl
@[simp] theorem discardArrived_dir : s.discardArrived.dir = s.dir := rfl
@[simp] theorem discardArrived_de : s.discardArrived.de = s.de := rfl
@[simp] theorem discardArrived_slave : s.discardArrived.slave = s.slave := rfl
@[simp] theorem discardArrived_timeout : s.discardArrived.timeout = s.timeout := rfl
@[simp] theorem discardArrived_idle : s.discardArrived.idle = s.idle := rfl
@[simp] theorem discardArrived_arg0 : s.discardArrived.arg0 = s.arg0 := rfl
@[simp] theorem discardArrived_arg1 : s.discardArrived.arg1 = s.arg1 := rfl
@[simp] theorem discardArrived_crc : s.discardArrived.crc = s.crc := rfl
@[simp] theorem discardArrived_txlen : s.discardArrived.txlen = s.txlen := rfl
@[simp] theorem discardArrived_rxlen : s.discardArrived.rxlen = s.rxlen := rfl
@[simp] theorem discardArrived_regcnt : s.discardArrived.regcnt = s.regcnt := rfl
@[simp] theorem discardArrived_mem : s.discardArrived.mem = s.mem := rfl
@[simp] theorem discardArrived_rxq : s.discardArrived.rxq = s.rxq.dropWhile (fun e => decide (e.tick ≤ s.now)) := rfl
@[simp] theorem discardArrived_txq : s.discardArrived.txq = s.txq := rfl
@[simp] theorem discardArrived_now : s.discardArrived.now = s.now := rfl
@[simp] theorem discardArrived_draws : s.discardArrived.draws = s.draws := rfl
@[simp] theorem discardArrived_drawCount : s.discardArrived.drawCount = s.drawCount := rfl
@[simp] theorem discardArrived_inputs : s.discardArrived.inputs = s.inputs := rfl
@[simp] theorem discardArrived_busLog : s.discardArrived.busLog = s.busLog := rfl

@[simp] theorem arrive_params (b : Byte) : (s.arrive b).params = s.params := rfl
@[simp] theorem arrive_cmd (b : Byte) : (s.arrive b).cmd = s.cmd := rfl
@[simp] theorem arrive_res (b : Byte) : (s.arrive b).res = s.res := rfl
@[simp] theorem arrive_exc (b : Byte) : (s.arrive b).exc = s.exc := rfl
@[simp] theorem arrive_valid (b : Byte) : (s.arrive b).valid = s.valid := rfl
@[simp] theorem arrive_dir (b : Byte) : (s.arrive b).dir = s.dir := rfl
@[simp] theorem arrive_de (b : Byte) : (s.arrive b).de = s.de := rfl
@[simp] theorem arrive_slave (b : Byte) : (s.arrive b).slave = s.slave := rfl
@[simp] theorem arrive_timeout (b : Byte) : (s.arrive b).timeout = s.timeout := rfl
@[simp] theorem arrive_idle (b : Byte) : (s.arrive b).idle = s.idle := rfl
@[simp] theorem arrive_arg0 (b : Byte) : (s.arrive b).arg0 = s.arg0 := rfl
@[simp] theorem arrive_arg1 (b : Byte) : (s.arrive b).arg1 = s.arg1 := rfl
@[simp] theorem arrive_crc (b : Byte) : (s.arrive b).crc = s.crc := rfl
@[simp] theorem arrive_txlen (b : Byte) : (s.arrive b).txlen = s.txlen := rfl
@[simp] theorem arrive_rxlen (b : Byte) : (s.arrive b).rxlen = s.rxlen := rfl
@[simp] theorem arrive_regcnt (b : Byte) : (s.arrive b).regcnt = s.regcnt := rfl
@[simp] theorem arrive_mem (b : Byte) : (s.arrive b).mem = s.mem := rfl
@[simp] theorem arrive_rxq (b : Byte) : (s.arrive b).rxq = s.rxq ++ [⟨b, s.earliestArrival + s.drawValue⟩] := rfl
@[simp] theorem arrive_txq (b : Byte) : (s.arrive b).txq = s.txq := rfl
@[simp] theorem arrive_now (b : Byte) : (s.arrive b).now = s.now := rfl
@[simp] theorem arrive_draws (b : Byte) : (s.arrive b).draws = s.draws.tail := rfl
@[simp] theorem arrive_drawCount (b : Byte) : (s.arrive b).drawCount = if s.draws.isEmpty then s.drawCount + 1 else s.drawCount := rfl
@[simp] theorem arrive_inputs (b : Byte) : (s.arrive b).inputs = s.inputs := rfl
@[simp] theorem arrive_busLog (b : Byte) : (s.arrive b).busLog = s.busLog := rfl

@[simp] theorem streamFlush_params : s.streamFlush.params = s.params := rfl
@[simp] theorem streamFlush_cmd : s.streamFlush.cmd = s.cmd := rfl
@[simp] theorem streamFlush_res : s.streamFlush.res = s.res := rfl
@[simp] theorem streamFlush_exc : s.streamFlush.exc = s.exc := rfl
@[simp] theorem streamFlush_valid : s.streamFlush.valid = s.valid := rfl
@[simp] theorem streamFlush_dir : s.streamFlush.dir = s.dir := rfl
@[simp] theorem streamFlush_de : s.streamFlush.de = s.de := rfl
@[simp] theorem streamFlush_slave : s.streamFlush.slave = s.slave := rfl
@[simp] theorem streamFlush_timeout : s.streamFlush.timeout = s.timeout := rfl
@[simp] theorem streamFlush_idle : s.streamFlush.idle = s.idle := rfl
@[simp] theorem streamFlush_arg0 : s.streamFlush.arg0 = s.arg0 := rfl
@[simp] theorem streamFlush_arg1 : s.streamFlush.arg1 = s.arg1 := rfl
@[simp] theorem streamFlush_crc : s.streamFlush.crc = s.crc := rfl
@[simp] theorem streamFlush_txlen : s.streamFlush.txlen = s.txlen := rfl
@[simp] theorem streamFlush_rxlen : s.streamFlush.rxlen = s.rxlen := rfl
@[simp] theorem streamFlush_regcnt : s.streamFlush.regcnt = s.regcnt := rfl
@[simp] theorem streamFlush_mem : s.streamFlush.mem = s.mem := rfl
@[simp] theorem streamFlush_rxq : s.streamFlush.rxq = s.rxq := rfl
@[simp] theorem streamFlush_txq : s.streamFlush.txq = s.txq := rfl
@[simp] theorem streamFlush_now : s.streamFlush.now = s.now + s.drawValue := rfl
@[simp] theorem streamFlush_draws : s.streamFlush.draws = s.draws.tail := rfl
@[simp] theorem streamFlush_drawCount : s.streamFlush.drawCount = if s.draws.isEmpty then s.drawCount + 1 else s.drawCount := rfl
@[simp] theorem streamFlush_inputs : s.streamFlush.inputs = s.inputs := rfl
@[simp] theorem streamFlush_busLog : s.streamFlush.busLog = s.busLog := rfl

@[simp] theorem waitForHost_params : s.waitForHost.params = s.params := rfl
@[simp] theorem waitForHost_cmd : s.waitForHost.cmd = s.cmd := rfl
@[simp] theorem waitForHost_res : s.waitForHost.res = s.res := rfl
@[simp] theorem waitForHost_exc : s.waitForHost.exc = s.exc := rfl
@[simp] theorem waitForHost_valid : s.waitForHost.valid = s.valid := rfl
@[simp] theorem waitForHost_dir : s.waitForHost.dir = s.dir := rfl
@[simp] theorem waitForHost_de : s.waitForHost.de = s.de := rfl
@[simp] theorem waitForHost_slave : s.waitForHost.slave = s.slave := rfl
@[simp] theorem waitForHost_timeout : s.waitForHost.timeout = s.timeout := rfl
@[simp] theorem waitForHost_idle : s.waitForHost.idle = s.idle := rfl
@[simp] theorem waitForHost_arg0 : s.waitForHost.arg0 = s.arg0 := rfl
@[simp] theorem waitForHost_arg1 : s.waitForHost.arg1 = s.arg1 := rfl
@[simp] theorem waitForHost_crc : s.waitForHost.crc = s.crc := rfl
@[simp] theorem waitForHost_txlen : s.waitForHost.txlen = s.txlen := rfl
@[simp] theorem waitForHost_rxlen : s.waitForHost.rxlen = s.rxlen := rfl
@[simp] theorem waitForHost_regcnt : s.waitForHost.regcnt = s.regcnt := rfl
@[simp] theorem waitForHost_mem : s.waitForHost.mem = s.mem := rfl
@[simp] theorem waitForHost_rxq : s.waitForHost.rxq = s.rxq := rfl
@[simp] theorem waitForHost_txq : s.waitForHost.txq = s.txq := rfl
@[simp] theorem waitForHost_now : s.waitForHost.now = s.now + s.drawValue := rfl
@[simp] theorem waitForHost_draws : s.waitForHost.draws = s.draws.tail := rfl
@[simp] theorem waitForHost_drawCount : s.waitForHost.drawCount = if s.draws.isEmpty then s.drawCount + 1 else s.drawCount := rfl
@[simp] theorem waitForHost_inputs : s.waitForHost.inputs = s.inputs := rfl
@[simp] theorem waitForHost_busLog : s.waitForHost.busLog = s.busLog := rfl

@[simp] theorem illegalCommand_params : s.illegalCommand.params = s.params := rfl
@[simp] theorem illegalCommand_cmd : s.illegalCommand.cmd = s.cmd := rfl
@[simp] theorem illegalCommand_res : s.illegalCommand.res = .illegalCommand := rfl
@[simp] theorem illegalCommand_exc : s.illegalCommand.exc = 0 := rfl
@[simp] theorem illegalCommand_valid : s.illegalCommand.valid = s.valid := rfl
@[simp] theorem illegalCommand_dir : s.illegalCommand.dir = s.dir := rfl
@[simp] theorem illegalCommand_de : s.illegalCommand.de = s.de := rfl
@[simp] theorem illegalCommand_slave : s.illegalCommand.slave = s.slave := rfl
@[simp] theorem illegalCommand_timeout : s.illegalCommand.timeout = s.timeout := rfl
@[simp] theorem illegalCommand_idle : s.illegalCommand.idle = s.idle := rfl
@[simp] theorem illegalCommand_arg0 : s.illegalCommand.arg0 = s.arg0 := rfl
@[simp] theorem illegalCommand_arg1 : s.illegalCommand.arg1 = s.arg1 := rfl
@[simp] theorem illegalCommand_crc : s.illegalCommand.crc = s.crc := rfl
@[simp] theorem illegalCommand_txlen : s.illegalCommand.txlen = s.txlen := rfl
@[simp] theorem illegalCommand_rxlen : s.illegalCommand.rxlen = s.rxlen := rfl
@[simp] theorem illegalCommand_regcnt : s.illegalCommand.regcnt = s.regcnt := rfl
@[simp] theorem illegalCommand_mem : s.illegalCommand.mem = s.mem := rfl
@[simp] theorem illegalCommand_rxq : s.illegalCommand.rxq = s.rxq := rfl
@[simp] theorem illegalCommand_txq : s.illegalCommand.txq = s.txq := rfl
@[simp] theorem illegalCommand_now : s.illegalCommand.now = s.now + s.drawValue := rfl
@[simp] theorem illegalCommand_draws : s.illegalCommand.draws = s.draws.tail := rfl
@[simp] theorem illegalCommand_drawCount : s.illegalCommand.drawCount = if s.draws.isEmpty then s.drawCount + 1 else s.drawCount := rfl
@[simp] theorem illegalCommand_inputs : s.illegalCommand.inputs = s.inputs := rfl
@[simp] theorem illegalCommand_busLog : s.illegalCommand.busLog = s.busLog := rfl

@[simp] theorem send_params (F : List Byte) : (s.send F).params = s.params := by simp [send]
@[simp] theorem send_cmd (F : List Byte) : (s.send F).cmd = s.cmd := by simp [send]
@[simp] theorem send_res (F : List Byte) : (s.send F).res = .ok := by simp [send]
@[simp] theorem send_exc (F : List Byte) : (s.send F).exc = 0 := by simp [send]
@[simp] theorem send_valid (F : List Byte) : (s.send F).valid = s.valid := by simp [send]
@[simp] theorem send_dir (F : List Byte) : (s.send F).dir = s.dir := by simp [send]
@[simp] theorem send_de (F : List Byte) : (s.send F).de = s.de := by simp [send]
@[simp] theorem send_slave (F : List Byte) : (s.send F).slave = s.slave := by simp [send]
@[simp] theorem send_timeout (F : List Byte) : (s.send F).timeout = s.timeout := by simp [send]
@[simp] theorem send_idle (F : List Byte) : (s.send F).idle = s.idle := by simp [send]
@[simp] theorem send_arg0 (F : List Byte) : (s.send F).arg0 = s.arg0 := by simp [send]
@[simp] theorem send_arg1 (F : List Byte) : (s.send F).arg1 = s.arg1 := by simp [send]
@[simp] theorem send_crc (F : List Byte) : (s.send F).crc = s.crc := by simp [send]
@[simp] theorem send_txlen (F : List Byte) : (s.send F).txlen = s.txlen := by simp [send]
@[simp] theorem send_rxlen (F : List Byte) : (s.send F).rxlen = s.rxlen := by simp [send]
@[simp] theorem send_regcnt (F : List Byte) : (s.send F).regcnt = s.regcnt := by simp [send]
@[simp] theorem send_mem (F : List Byte) : (s.send F).mem = s.mem := by simp [send]
@[simp] theorem send_rxq (F : List Byte) : (s.send F).rxq = s.rxq := by simp [send]
@[simp] theorem send_txq (F : List Byte) : (s.send F).txq = s.txq ++ F.map (fun b => ⟨b, s.now, s.de⟩) := by simp [send]
@[simp] theorem send_now (F : List Byte) : (s.send F).now = s.now + s.drawValue + s.params.postTx := by simp [send, drawValue]
@[simp] theorem send_draws (F : List Byte) : (s.send F).draws = s.draws.tail := by simp [send]
@[simp] theorem send_drawCount (F : List Byte) : (s.send F).drawCount = if s.draws.isEmpty then s.drawCount + 1 else s.drawCount := by simp [send]
@[simp] theorem send_inputs (F : List Byte) : (s.send F).inputs = s.inputs := by simp [send]
@[simp] theorem send_busLog (F : List Byte) : (s.send F).busLog = s.busLog := by simp [send]

@[simp] theorem putFrame_params (F : List Byte) : (s.putFrame F).params = s.params := by simp [putFrame]
@[simp] theorem putFrame_cmd (F : List Byte) : (s.putFrame F).cmd = s.cmd := by simp [putFrame]
@[simp] theorem putFrame_res (F : List Byte) : (s.putFrame F).res = .ok := by simp [putFrame]
@[simp] theorem putFrame_exc (F : List Byte) : (s.putFrame F).exc = 0 := by simp [putFrame]
@[simp] theorem putFrame_valid (F : List Byte) : (s.putFrame F).valid = s.valid := by simp [putFrame]
@[simp] theorem putFrame_dir (F : List Byte) : (s.putFrame F).dir = s.dir := by simp [putFrame]
@[simp] theorem putFrame_de (F : List Byte) : (s.putFrame F).de = s.de := by simp [putFrame]
@[simp] theorem putFrame_slave (F : List Byte) : (s.putFrame F).slave = s.slave := by simp [putFrame]
@[simp] theorem putFrame_timeout (F : List Byte) : (s.putFrame F).timeout = s.timeout := by simp [putFrame]
@[simp] theorem putFrame_idle (F : List Byte) : (s.putFrame F).idle = s.idle := by simp [putFrame]
@[simp] theorem putFrame_arg0 (F : List Byte) : (s.putFrame F).arg0 = s.arg0 := by simp [putFrame]
@[simp] theorem putFrame_arg1 (F : List Byte) : (s.putFrame F).arg1 = s.arg1 := by simp [putFrame]
@[simp] theorem putFrame_crc (F : List Byte) : (s.putFrame F).crc = crc16 (body F) := by simp [putFrame]
@[simp] theorem putFrame_txlen (F : List Byte) : (s.putFrame F).txlen = F.length := by simp [putFrame]
@[simp] theorem putFrame_rxlen (F : List Byte) : (s.putFrame F).rxlen = s.rxlen := by simp [putFrame]
@[simp] theorem putFrame_regcnt (F : List Byte) : (s.putFrame F).regcnt = s.regcnt := by simp [putFrame]
@[simp] theorem putFrame_mem (F : List Byte) : (s.putFrame F).mem = Memory.storeBytes s.mem (Buf.txb.addr 0) F := by simp [putFrame]
@[simp] theorem putFrame_rxq (F : List Byte) : (s.putFrame F).rxq = s.rxq := by simp [putFrame]
@[simp] theorem putFrame_txq (F : List Byte) : (s.putFrame F).txq = s.txq := by simp [putFrame]
@[simp] theorem putFrame_now (F : List Byte) : (s.putFrame F).now = s.now + s.drawValue := by simp [putFrame, drawValue]
@[simp] theorem putFrame_draws (F : List Byte) : (s.putFrame F).draws = s.draws.tail := by simp [putFrame]
@[simp] theorem putFrame_drawCount (F : List Byte) : (s.putFrame F).drawCount = if s.draws.isEmpty then s.drawCount + 1 else s.drawCount := by simp [putFrame]
@[simp] theorem putFrame_inputs (F : List Byte) : (s.putFrame F).inputs = s.inputs := by simp [putFrame]
@[simp] theorem putFrame_busLog (F : List Byte) : (s.putFrame F).busLog = s.busLog := by simp [putFrame]

@[simp] theorem logRead_params (a : Nat) (v : DWord) : (s.logRead a v).params = s.params := rfl
@[simp] theorem logRead_cmd (a : Nat) (v : DWord) : (s.logRead a v).cmd = s.cmd := rfl
@[simp] theorem logRead_res (a : Nat) (v : DWord) : (s.logRead a v).res = s.res := rfl
@[simp] theorem logRead_exc (a : Nat) (v : DWord) : (s.logRead a v).exc = s.exc := rfl
@[simp] theorem logRead_valid (a : Nat) (v : DWord) : (s.logRead a v).valid = s.valid := rfl
@[simp] theorem logRead_dir (a : Nat) (v : DWord) : (s.logRead a v).dir = s.dir := rfl
@[simp] theorem logRead_de (a : Nat) (v : DWord) : (s.logRead a v).de = s.de := rfl
@[simp] theorem logRead_slave (a : Nat) (v : DWord) : (s.logRead a v).slave = s.slave := rfl
@[simp] theorem logRead_timeout (a : Nat) (v : DWord) : (s.logRead a v).timeout = s.timeout := rfl
@[simp] theorem logRead_idle (a : Nat) (v : DWord) : (s.logRead a v).idle = s.idle := rfl
@[simp] theorem logRead_arg0 (a : Nat) (v : DWord) : (s.logRead a v).arg0 = s.arg0 := rfl
@[simp] theorem logRead_arg1 (a : Nat) (v : DWord) : (s.logRead a v).arg1 = s.arg1 := rfl
@[simp] theorem logRead_crc (a : Nat) (v : DWord) : (s.logRead a v).crc = s.crc := rfl
@[simp] theorem logRead_txlen (a : Nat) (v : DWord) : (s.logRead a v).txlen = s.txlen := rfl
@[simp] theorem logRead_rxlen (a : Nat) (v : DWord) : (s.logRead a v).rxlen = s.rxlen := rfl
@[simp] theorem logRead_regcnt (a : Nat) (v : DWord) : (s.logRead a v).regcnt = s.regcnt := rfl
@[simp] theorem logRead_mem (a : Nat) (v : DWord) : (s.logRead a v).mem = s.mem := rfl
@[simp] theorem logRead_rxq (a : Nat) (v : DWord) : (s.logRead a v).rxq = s.rxq := rfl
@[simp] theorem logRead_txq (a : Nat) (v : DWord) : (s.logRead a v).txq = s.txq := rfl
@[simp] theorem logRead_now (a : Nat) (v : DWord) : (s.logRead a v).now = s.now := rfl
@[simp] theorem logRead_draws (a : Nat) (v : DWord) : (s.logRead a v).draws = s.draws := rfl
@[simp] theorem logRead_drawCount (a : Nat) (v : DWord) : (s.logRead a v).drawCount = s.drawCount := rfl
@[simp] theorem logRead_inputs (a : Nat) (v : DWord) : (s.logRead a v).inputs = s.inputs := rfl
@[simp] theorem logRead_busLog (a : Nat) (v : DWord) : (s.logRead a v).busLog = s.busLog ++ [⟨a, v⟩] := rfl

@[simp] theorem deliver_params (F : List Byte) : (s.deliver F).params = s.params := by
  induction F generalizing s with
  | nil => rfl
  | cons b F ih => exact ih _
@[simp] theorem deliver_cmd (F : List Byte) : (s.deliver F).cmd = s.cmd := by
  induction F generalizing s with
  | nil => rfl
  | cons b F ih => exact ih _
@[simp] theorem deliver_res (F : List Byte) : (s.deliver F).res = s.res := by
  induction F generalizing s with
  | nil => rfl
  | cons b F ih => exact ih _
@[simp] theorem deliver_exc (F : List Byte) : (s.deliver F).exc = s.exc := by
  induction F generalizing s with
  | nil => rfl
  | cons b F ih => exact ih _
@[simp] theorem deliver_valid (F : List Byte) : (s.deliver F).valid = s.valid := by
  induction F generalizing s with
  | nil => rfl
  | cons b F ih => exact ih _
@[simp] theorem deliver_dir (F : List Byte) : (s.deliver F).dir = s.dir := by
  induction F generalizing s with
  | nil => rfl
  | cons b F ih => exact ih _
@[simp] theorem deliver_de (F : List Byte) : (s.deliver F).de = s.de := by
  induction F generalizing s with
  | nil => rfl
  | cons b F ih => exact ih _
@[simp] theorem deliver_slave (F : List Byte) : (s.deliver F).slave = s.slave := by
  induction F generalizing s with
  | nil => rfl
  | cons b F ih => exact ih _
@[simp] theorem deliver_timeout (F : List Byte) : (s.deliver F).timeout = s.timeout := by
  induction F generalizing s with
  | nil => rfl
  | cons b F ih => exact ih _
@[simp] theorem deliver_idle (F : List Byte) : (s.deliver F).idle = s.idle := by
  induction F generalizing s with
  | nil => rfl
  | cons b F ih => exact ih _
@[simp] theorem deliver_arg0 (F : List Byte) : (s.deliver F).arg0 = s.arg0 := by
  induction F generalizing s with
  | nil => rfl
  | cons b F ih => exact ih _
@[simp] theorem deliver_arg1 (F : List Byte) : (s.deliver F).arg1 = s.arg1 := by
  induction F generalizing s with
  | nil => rfl
  | cons b F ih => exact ih _
@[simp] theorem deliver_crc (F : List Byte) : (s.deliver F).crc = s.crc := by
  induction F generalizing s with
  | nil => rfl
  | cons b F ih => exact ih _
@[simp] theorem deliver_txlen (F : List Byte) : (s.deliver F).txlen = s.txlen := by
  induction F generalizing s with
  | nil => rfl
  | cons b F ih => exact ih _
@[simp] theorem deliver_rxlen (F : List Byte) : (s.deliver F).rxlen = s.rxlen := by
  induction F generalizing s with
  | nil => rfl
  | cons b F ih => exact ih _
@[simp] theorem deliver_regcnt (F : List Byte) : (s.deliver F).regcnt = s.regcnt := by
  induction F generalizing s with
  | nil => rfl
  | cons b F ih => exact ih _
@[simp] theorem deliver_mem (F : List Byte) : (s.deliver F).mem = s.mem := by
  induction F generalizing s with
  | nil => rfl
  | cons b F ih => exact ih _
@[simp] theorem deliver_txq (F : List Byte) : (s.deliver F).txq = s.txq := by
  induction F generalizing s with
  | nil => rfl
  | cons b F ih => exact ih _
@[simp] theorem deliver_now (F : List Byte) : (s.deliver F).now = s.now := by
  induction F generalizing s with
  | nil => rfl
  | cons b F ih => exact ih _
@[simp] theorem deliver_inputs (F : List Byte) : (s.deliver F).inputs = s.inputs := by
  induction F generalizing s with
  | nil => rfl
  | cons b F ih => exact ih _
@[simp] theorem deliver_busLog (F : List Byte) : (s.deliver F).busLog = s.busLog := by
  induction F generalizing s with
  | nil => rfl
  | cons b F ih => exact ih _

@[simp] theorem putReg_params (r : Reg) (v : DWord) : (s.putReg r v).params = s.params := by
  cases r <;> rfl
@[simp] theorem putReg_res (r : Reg) (v : DWord) : (s.putReg r v).res = s.res := by
  cases r <;> rfl
@[simp] theorem putReg_exc (r : Reg) (v : DWord) : (s.putReg r v).exc = s.exc := by
  cases r <;> rfl
@[simp] theorem putReg_valid (r : Reg) (v : DWord) : (s.putReg r v).valid = s.valid := by
  cases r <;> rfl
@[simp] theorem putReg_dir (r : Reg) (v : DWord) : (s.putReg r v).dir = s.dir := by
  cases r <;> rfl
@[simp] theorem putReg_de (r : Reg) (v : DWord) : (s.putReg r v).de = s.de := by
  cases r <;> rfl
@[simp] theorem putReg_crc (r : Reg) (v : DWord) : (s.putReg r v).crc = s.crc := by
  cases r <;> rfl
@[simp] theorem putReg_txlen (r : Reg) (v : DWord) : (s.putReg r v).txlen = s.txlen := by
  cases r <;> rfl
@[simp] theorem putReg_rxlen (r : Reg) (v : DWord) : (s.putReg r v).rxlen = s.rxlen := by
  cases r <;> rfl
@[simp] theorem putReg_regcnt (r : Reg) (v : DWord) : (s.putReg r v).regcnt = s.regcnt := by
  cases r <;> rfl
@[simp] theorem putReg_mem (r : Reg) (v : DWord) : (s.putReg r v).mem = s.mem := by
  cases r <;> rfl
@[simp] theorem putReg_rxq (r : Reg) (v : DWord) : (s.putReg r v).rxq = s.rxq := by
  cases r <;> rfl
@[simp] theorem putReg_txq (r : Reg) (v : DWord) : (s.putReg r v).txq = s.txq := by
  cases r <;> rfl
@[simp] theorem putReg_now (r : Reg) (v : DWord) : (s.putReg r v).now = s.now := by
  cases r <;> rfl
@[simp] theorem putReg_draws (r : Reg) (v : DWord) : (s.putReg r v).draws = s.draws := by
  cases r <;> rfl
@[simp] theorem putReg_drawCount (r : Reg) (v : DWord) : (s.putReg r v).drawCount = s.drawCount := by
  cases r <;> rfl
@[simp] theorem putReg_inputs (r : Reg) (v : DWord) : (s.putReg r v).inputs = s.inputs := by
  cases r <;> rfl
@[simp] theorem putReg_busLog (r : Reg) (v : DWord) : (s.putReg r v).busLog = s.busLog := by
  cases r <;> rfl
@[simp] theorem putElem_params (b : Buf) (i : Nat) (v : DWord) : (s.putElem b i v).params = s.params := by
  cases b <;> rfl
@[simp] theorem putElem_cmd (b : Buf) (i : Nat) (v : DWord) : (s.putElem b i v).cmd = s.cmd := by
  cases b <;> rfl
@[simp] theorem putElem_res (b : Buf) (i : Nat) (v : DWord) : (s.putElem b i v).res = s.res := by
  cases b <;> rfl
@[simp] theorem putElem_exc (b : Buf) (i : Nat) (v : DWord) : (s.putElem b i v).exc = s.exc := by
  cases b <;> rfl
@[simp] theorem putElem_valid (b : Buf) (i : Nat) (v : DWord) : (s.putElem b i v).valid = s.valid := by
  cases b <;> rfl
@[simp] theorem putElem_dir (b : Buf) (i : Nat) (v : DWord) : (s.putElem b i v).dir = s.dir := by
  cases b <;> rfl
@[simp] theorem putElem_de (b : Buf) (i : Nat) (v : DWord) : (s.putElem b i v).de = s.de := by
  cases b <;> rfl
@[simp] theorem putElem_slave (b : Buf) (i : Nat) (v : DWord) : (s.putElem b i v).slave = s.slave := by
  cases b <;> rfl
@[simp] theorem putElem_timeout (b : Buf) (i : Nat) (v : DWord) : (s.putElem b i v).timeout = s.timeout := by
  cases b <;> rfl
@[simp] theorem putElem_idle (b : Buf) (i : Nat) (v : DWord) : (s.putElem b i v).idle = s.idle := by
  cases b <;> rfl
@[simp] theorem putElem_arg0 (b : Buf) (i : Nat) (v : DWord) : (s.putElem b i v).arg0 = s.arg0 := by
  cases b <;> rfl
@[simp] theorem putElem_arg1 (b : Buf) (i : Nat) (v : DWord) : (s.putElem b i v).arg1 = s.arg1 := by
  cases b <;> rfl
@[simp] theorem putElem_crc (b : Buf) (i : Nat) (v : DWord) : (s.putElem b i v).crc = s.crc := by
  cases b <;> rfl
@[simp] theorem putElem_txlen (b : Buf) (i : Nat) (v : DWord) : (s.putElem b i v).txlen = s.txlen := by
  cases b <;> rfl
@[simp] theorem putElem_rxlen (b : Buf) (i : Nat) (v : DWord) : (s.putElem b i v).rxlen = s.rxlen := by
  cases b <;> rfl
@[simp] theorem putElem_regcnt (b : Buf) (i : Nat) (v : DWord) : (s.putElem b i v).regcnt = s.regcnt := by
  cases b <;> rfl
@[simp] theorem putElem_rxq (b : Buf) (i : Nat) (v : DWord) : (s.putElem b i v).rxq = s.rxq := by
  cases b <;> rfl
@[simp] theorem putElem_txq (b : Buf) (i : Nat) (v : DWord) : (s.putElem b i v).txq = s.txq := by
  cases b <;> rfl
@[simp] theorem putElem_now (b : Buf) (i : Nat) (v : DWord) : (s.putElem b i v).now = s.now := by
  cases b <;> rfl
@[simp] theorem putElem_draws (b : Buf) (i : Nat) (v : DWord) : (s.putElem b i v).draws = s.draws := by
  cases b <;> rfl
@[simp] theorem putElem_drawCount (b : Buf) (i : Nat) (v : DWord) : (s.putElem b i v).drawCount = s.drawCount := by
  cases b <;> rfl
@[simp] theorem putElem_inputs (b : Buf) (i : Nat) (v : DWord) : (s.putElem b i v).inputs = s.inputs := by
  cases b <;> rfl
@[simp] theorem putElem_busLog (b : Buf) (i : Nat) (v : DWord) : (s.putElem b i v).busLog = s.busLog := by
  cases b <;> rfl
@[simp] theorem put_params (x : Target) (v : DWord) : (s.put x v).params = s.params := by
  cases x <;> simp [put]
@[simp] theorem put_res (x : Target) (v : DWord) : (s.put x v).res = s.res := by
  cases x <;> simp [put]
@[simp] theorem put_exc (x : Target) (v : DWord) : (s.put x v).exc = s.exc := by
  cases x <;> simp [put]
@[simp] theorem put_valid (x : Target) (v : DWord) : (s.put x v).valid = s.valid := by
  cases x <;> simp [put]
@[simp] theorem put_dir (x : Target) (v : DWord) : (s.put x v).dir = s.dir := by
  cases x <;> simp [put]
@[simp] theorem put_de (x : Target) (v : DWord) : (s.put x v).de = s.de := by
  cases x <;> simp [put]
@[simp] theorem put_crc (x : Target) (v : DWord) : (s.put x v).crc = s.crc := by
  cases x <;> simp [put]
@[simp] theorem put_txlen (x : Target) (v : DWord) : (s.put x v).txlen = s.txlen := by
  cases x <;> simp [put]
@[simp] theorem put_rxlen (x : Target) (v : DWord) : (s.put x v).rxlen = s.rxlen := by
  cases x <;> simp [put]
@[simp] theorem put_regcnt (x : Target) (v : DWord) : (s.put x v).regcnt = s.regcnt := by
  cases x <;> simp [put]
@[simp] theorem put_rxq (x : Target) (v : DWord) : (s.put x v).rxq = s.rxq := by
  cases x <;> simp [put]
@[simp] theorem put_txq (x : Target) (v : DWord) : (s.put x v).txq = s.txq := by
  cases x <;> simp [put]
@[simp] theorem put_now (x : Target) (v : DWord) : (s.put x v).now = s.now := by
  cases x <;> simp [put]
@[simp] theorem put_draws (x : Target) (v : DWord) : (s.put x v).draws = s.draws := by
  cases x <;> simp [put]
@[simp] theorem put_drawCount (x : Target) (v : DWord) : (s.put x v).drawCount = s.drawCount := by
  cases x <;> simp [put]
@[simp] theorem put_inputs (x : Target) (v : DWord) : (s.put x v).inputs = s.inputs := by
  cases x <;> simp [put]
@[simp] theorem put_busLog (x : Target) (v : DWord) : (s.put x v).busLog = s.busLog := by
  cases x <;> simp [put]

end

end Sys2Proof.Machine.State
end

