-- ==== Sys2Proof/Laws/Memory.lean ====
section
/-! SUPPORT. The memory laws: a read after a write, the canonical form, and ranges of elements. -/

namespace Sys2Proof.Machine.Memory

@[simp] theorem read_nil (a : Nat) : Memory.read [] a = none := rfl

theorem read_write_same (m : Memory) (a : Nat) (b : Byte) : Memory.read (Memory.write m a b) a = some b := by
  induction m with
  | nil => simp [Memory.write, Memory.read]
  | cons c m ih =>
    obtain ⟨k, v⟩ := c
    simp only [Memory.write]
    split
    · simp [Memory.read]
    · split
      · simp [Memory.read]
      · have : k ≠ a := by omega
        simp [Memory.read, this, ih]

theorem read_write_other (m : Memory) {a x : Nat} (b : Byte) (h : x ≠ a) :
    Memory.read (Memory.write m a b) x = Memory.read m x := by
  have h' : a ≠ x := fun e => h e.symm
  induction m with
  | nil => simp [Memory.write, Memory.read, h']
  | cons c m ih =>
    obtain ⟨k, v⟩ := c
    simp only [Memory.write]
    split
    · simp [Memory.read, h']
    · split
      · rename_i hk
        subst hk
        simp [Memory.read, h']
      · simp [Memory.read, ih]

theorem read_write (m : Memory) (a x : Nat) (b : Byte) :
    Memory.read (Memory.write m a b) x = if x = a then some b else Memory.read m x := by
  by_cases h : x = a
  · simp [h, read_write_same]
  · simp [h, read_write_other m b h]

theorem read_clear (m : Memory) (start stop x : Nat) :
    Memory.read (Memory.clear m start stop) x = if start ≤ x ∧ x < stop then none else Memory.read m x := by
  induction m with
  | nil => simp [Memory.clear, Memory.read]
  | cons c m ih =>
    obtain ⟨k, v⟩ := c
    unfold Memory.clear at ih ⊢
    rw [List.filter_cons]
    by_cases hk : start ≤ k ∧ k < stop
    · have hkf : (!(decide (start ≤ k) && decide (k < stop))) = false := by simp [hk.1, hk.2]
      simp only [hkf, Bool.false_eq_true, if_false, ih, Memory.read]
      by_cases hx : k = x
      · subst hx
        simp only [hk, and_self, if_true]
      · simp only [hx, if_false]
    · have hkt : (!(decide (start ≤ k) && decide (k < stop))) = true := by
        simp only [Bool.not_eq_true', Bool.and_eq_false_iff, decide_eq_false_iff_not]
        omega
      simp only [hkt, if_true, Memory.read, ih]
      by_cases hx : k = x
      · subst hx
        simp only [if_true, hk, if_false]
      · simp only [hx, if_false]

/-! ### The canonical form -/

theorem wf_iff (m : Memory) : Memory.wf m = true ↔ m.Pairwise (fun x y => x.1 < y.1) := by
  simp [Memory.wf]

theorem key_of_mem_write {m : Memory} {a : Nat} {b : Byte} {c : Host.Cell} (h : c ∈ Memory.write m a b) :
    c.1 = a ∨ c ∈ m := by
  induction m with
  | nil => simp only [Memory.write, List.mem_singleton] at h; simp [h]
  | cons d m ih =>
    obtain ⟨k, v⟩ := d
    simp only [Memory.write] at h
    split at h
    · simp only [List.mem_cons] at h ⊢
      rcases h with rfl | rfl | h
      · simp
      · simp
      · simp [h]
    · split at h
      · simp only [List.mem_cons] at h ⊢
        rcases h with rfl | h
        · simp
        · simp [h]
      · simp only [List.mem_cons] at h ⊢
        rcases h with rfl | h
        · simp
        · rcases ih h with h | h
          · simp [h]
          · simp [h]

theorem wf_write {m : Memory} (a : Nat) (b : Byte) (h : Memory.wf m = true) :
    Memory.wf (Memory.write m a b) = true := by
  rw [wf_iff] at h ⊢
  induction m with
  | nil => simp [Memory.write]
  | cons c m ih =>
    obtain ⟨k, v⟩ := c
    rw [List.pairwise_cons] at h
    simp only [Memory.write]
    split
    · refine List.pairwise_cons.2 ⟨fun d hd => ?_, List.pairwise_cons.2 h⟩
      rcases List.mem_cons.1 hd with rfl | hd
      · assumption
      · have := h.1 d hd
        simp only at this ⊢
        omega
    · split
      · rename_i hk
        subst hk
        exact List.pairwise_cons.2 h
      · refine List.pairwise_cons.2 ⟨fun d hd => ?_, ih h.2⟩
        rcases key_of_mem_write hd with hd | hd
        · simp only [hd]; omega
        · exact h.1 d hd

theorem wf_clear {m : Memory} (start stop : Nat) (h : Memory.wf m = true) :
    Memory.wf (Memory.clear m start stop) = true := by
  rw [wf_iff] at h ⊢
  exact h.filter _

theorem wf_writeWord {m : Memory} (a : Nat) (w : Word) (h : Memory.wf m = true) :
    Memory.wf (Memory.writeWord m a w) = true := wf_write _ _ (wf_write _ _ h)

theorem wf_storeBytes {m : Memory} (a : Nat) (F : List Byte) (h : Memory.wf m = true) :
    Memory.wf (Memory.storeBytes m a F) = true := by
  induction F generalizing m a with
  | nil => exact h
  | cons b F ih => exact ih _ (wf_write _ _ h)

theorem wf_storeWords {m : Memory} (a : Nat) (R : List Word) (h : Memory.wf m = true) :
    Memory.wf (Memory.storeWords m a R) = true := by
  induction R generalizing m a with
  | nil => exact h
  | cons w R ih => exact ih _ (wf_writeWord _ _ h)

/-- In canonical form equal reads are equal memories. -/
theorem ext_of_wf {m m' : Memory} (h : Memory.wf m = true) (h' : Memory.wf m' = true)
    (hr : ∀ a, Memory.read m a = Memory.read m' a) : m = m' := by
  rw [wf_iff] at h h'
  have none_of_lt : ∀ {l : Memory} {x : Nat}, (∀ c ∈ l, x < c.1) → Memory.read l x = none := by
    intro l x hl
    induction l with
    | nil => rfl
    | cons c l ih =>
      have h1 := hl c (by simp)
      have : c.1 ≠ x := by omega
      simp only [Memory.read, this, if_false]
      exact ih fun d hd => hl d (by simp [hd])
  induction m generalizing m' with
  | nil =>
    cases m' with
    | nil => rfl
    | cons c m' => have := hr c.1; simp [Memory.read] at this
  | cons c m ih =>
    cases m' with
    | nil => have := hr c.1; simp [Memory.read] at this
    | cons c' m' =>
      rw [List.pairwise_cons] at h h'
      have hk : c.1 = c'.1 := by
        rcases Nat.lt_trichotomy c.1 c'.1 with hlt | heq | hgt
        · have := hr c.1
          rw [none_of_lt (l := c' :: m') (x := c.1)] at this
          · simp [Memory.read] at this
          · intro d hd
            rcases List.mem_cons.1 hd with rfl | hd
            · exact hlt
            · have := h'.1 d hd; omega
        · exact heq
        · have := hr c'.1
          rw [none_of_lt (l := c :: m) (x := c'.1)] at this
          · simp [Memory.read] at this
          · intro d hd
            rcases List.mem_cons.1 hd with rfl | hd
            · exact hgt
            · have := h.1 d hd; omega
      have hv : c = c' := by
        have := hr c.1
        simp only [Memory.read, hk, if_true, Option.some.injEq] at this
        exact Prod.ext hk this
      subst hv
      congr 1
      refine ih h.2 h'.2 fun a => ?_
      have ha := hr a
      simp only [Memory.read] at ha
      by_cases hca : c.1 = a
      · subst hca
        rw [none_of_lt h.1, none_of_lt h'.1]
      · simpa [hca] using ha

/-! ### Elements -/

theorem read_storeBytes_before (m : Memory) {a x : Nat} (F : List Byte) (h : x < a) :
    Memory.read (Memory.storeBytes m a F) x = Memory.read m x := by
  induction F generalizing m a with
  | nil => rfl
  | cons b F ih =>
    rw [Memory.storeBytes, ih _ (by omega), read_write_other _ _ (by omega)]

/-- Storing byte elements from `a` on changes only the bytes at `a`, `a + 4`, .... -/
theorem read_storeBytes (m : Memory) (a x : Nat) (F : List Byte) :
    Memory.read (Memory.storeBytes m a F) x =
      if a ≤ x ∧ (x - a) % 4 = 0 ∧ (x - a) / 4 < F.length then F[(x - a) / 4]? else Memory.read m x := by
  induction F generalizing m a with
  | nil => simp [Memory.storeBytes]
  | cons b F ih =>
    rw [Memory.storeBytes, ih]
    by_cases hx : x = a
    · subst hx
      have : ¬ (x + 4 ≤ x) := by omega
      simp [this, read_write_same]
    · by_cases hc : a + 4 ≤ x ∧ (x - (a + 4)) % 4 = 0 ∧ (x - (a + 4)) / 4 < F.length
      · have e : (x - a) / 4 = (x - (a + 4)) / 4 + 1 := by omega
        have hc' : a ≤ x ∧ (x - a) % 4 = 0 ∧ (x - a) / 4 < (b :: F).length := by
          simp only [List.length_cons]; omega
        rw [if_pos hc, if_pos hc', e, List.getElem?_cons_succ]
      · have hc' : ¬ (a ≤ x ∧ (x - a) % 4 = 0 ∧ (x - a) / 4 < (b :: F).length) := by
          simp only [List.length_cons]; omega
        rw [if_neg hc, if_neg hc', read_write_other _ _ hx]

theorem bytes_congr {m m' : Memory} {a n : Nat}
    (h : ∀ j, j < n → Memory.read m (a + 4 * j) = Memory.read m' (a + 4 * j)) :
    Memory.bytes m a n = Memory.bytes m' a n := by
  induction n generalizing a with
  | zero => rfl
  | succ n ih =>
    have h0 := h 0 (by omega)
    simp only [Nat.mul_zero, Nat.add_zero] at h0
    have hn := ih (a := a + 4) fun j hj => by
      have := h (j + 1) (by omega)
      rwa [show a + 4 * (j + 1) = a + 4 + 4 * j by omega] at this
    simp only [Memory.bytes, h0, hn]

theorem bytes_eq_some {m : Memory} {a n : Nat} {F : List Byte} :
    Memory.bytes m a n = some F ↔ F.length = n ∧ ∀ j, j < n → Memory.read m (a + 4 * j) = F[j]? := by
  induction n generalizing a F with
  | zero =>
    simp only [Memory.bytes, Option.some.injEq]
    constructor
    · rintro rfl; simp
    · rintro ⟨h, -⟩; exact (List.eq_nil_of_length_eq_zero h).symm
  | succ n ih =>
    cases F with
    | nil =>
      simp only [Memory.bytes, List.length_nil]
      constructor
      · intro h; split at h <;> simp at h
      · rintro ⟨h, -⟩; omega
    | cons b F =>
      constructor
      · intro h
        simp only [Memory.bytes] at h
        split at h
        · rename_i b' bs hb hbs
          simp only [Option.some.injEq, List.cons.injEq] at h
          obtain ⟨rfl, rfl⟩ := h
          obtain ⟨hl, hj⟩ := ih.1 hbs
          refine ⟨by simp [hl], fun j hlt => ?_⟩
          cases j with
          | zero => simpa using hb
          | succ j =>
            rw [show a + 4 * (j + 1) = a + 4 + 4 * j by omega, hj j (by omega), List.getElem?_cons_succ]
        · simp at h
      · rintro ⟨hl, hj⟩
        have h0 := hj 0 (by omega)
        simp only [Nat.mul_zero, Nat.add_zero, List.getElem?_cons_zero] at h0
        have hn : Memory.bytes m (a + 4) n = some F := ih.2 ⟨by simpa using hl, fun j hlt => by
          have := hj (j + 1) (by omega)
          rwa [show a + 4 * (j + 1) = a + 4 + 4 * j by omega, List.getElem?_cons_succ] at this⟩
        simp [Memory.bytes, h0, hn]

theorem length_of_bytes {m : Memory} {a n : Nat} {F : List Byte} (h : Memory.bytes m a n = some F) :
    F.length = n := (bytes_eq_some.1 h).1

/-- What was stored is read back, together with the elements before it. -/
theorem bytes_storeBytes {m : Memory} {a n : Nat} {D F : List Byte} (h : Memory.bytes m a n = some D) :
    Memory.bytes (Memory.storeBytes m (a + 4 * n) F) a (n + F.length) = some (D ++ F) := by
  obtain ⟨hl, hj⟩ := bytes_eq_some.1 h
  refine bytes_eq_some.2 ⟨by simp [hl], fun j hlt => ?_⟩
  rw [read_storeBytes]
  by_cases hjn : j < n
  · have : ¬ (a + 4 * n ≤ a + 4 * j) := by omega
    rw [if_neg (fun hc => this hc.1), hj j hjn, List.getElem?_append_left (by omega)]
  · have hc : a + 4 * n ≤ a + 4 * j ∧ (a + 4 * j - (a + 4 * n)) % 4 = 0 ∧
        (a + 4 * j - (a + 4 * n)) / 4 < F.length := by omega
    have e : (a + 4 * j - (a + 4 * n)) / 4 = j - D.length := by omega
    rw [if_pos hc, List.getElem?_append_right (by omega), e]

theorem bytes_storeBytes_zero (m : Memory) (a : Nat) (F : List Byte) :
    Memory.bytes (Memory.storeBytes m a F) a F.length = some F := by
  have := bytes_storeBytes (m := m) (a := a) (n := 0) (D := []) (F := F) rfl
  simpa using this

/-! ### Word elements -/

theorem join_hi_lo (w : Word) : join (hi w) (lo w) = w := by
  apply BitVec.eq_of_getLsbD_eq
  intro i hi'
  simp only [join, hi, lo, BitVec.getLsbD_append, BitVec.getLsbD_extractLsb']
  split
  · simp [*]
  · have : i - 8 < 8 := by omega
    simp [this, show 8 + (i - 8) = i by omega]

theorem readWord_writeWord (m : Memory) (a : Nat) (w : Word) :
    Memory.readWord (Memory.writeWord m a w) a = some w := by
  simp [Memory.readWord, Memory.writeWord, read_write, join_hi_lo]

theorem read_writeWord_other (m : Memory) {a x : Nat} (w : Word) (h : x ≠ a) (h' : x ≠ a + 1) :
    Memory.read (Memory.writeWord m a w) x = Memory.read m x := by
  simp [Memory.writeWord, read_write, h, h']

theorem read_storeWords_other (m : Memory) {a x : Nat} (R : List Word)
    (h : ∀ j, j < R.length → x ≠ a + 4 * j ∧ x ≠ a + 4 * j + 1) :
    Memory.read (Memory.storeWords m a R) x = Memory.read m x := by
  induction R generalizing m a with
  | nil => rfl
  | cons w R ih =>
    have h0 := h 0 (by simp)
    rw [Memory.storeWords, ih, read_writeWord_other _ _ (by omega) (by omega)]
    intro j hj
    have := h (j + 1) (by simpa using hj)
    omega

theorem words_eq_some {m : Memory} {a n : Nat} {R : List Word} :
    Memory.words m a n = some R ↔ R.length = n ∧ ∀ j, j < n → Memory.readWord m (a + 4 * j) = R[j]? := by
  induction n generalizing a R with
  | zero =>
    simp only [Memory.words, Option.some.injEq]
    constructor
    · rintro rfl; simp
    · rintro ⟨h, -⟩; exact (List.eq_nil_of_length_eq_zero h).symm
  | succ n ih =>
    cases R with
    | nil =>
      simp only [Memory.words, List.length_nil]
      constructor
      · intro h; split at h <;> simp at h
      · rintro ⟨h, -⟩; omega
    | cons w R =>
      constructor
      · intro h
        simp only [Memory.words] at h
        split at h
        · rename_i w' ws hw hws
          simp only [Option.some.injEq, List.cons.injEq] at h
          obtain ⟨rfl, rfl⟩ := h
          obtain ⟨hl, hj⟩ := ih.1 hws
          refine ⟨by simp [hl], fun j hlt => ?_⟩
          cases j with
          | zero => simpa using hw
          | succ j =>
            rw [show a + 4 * (j + 1) = a + 4 + 4 * j by omega, hj j (by omega), List.getElem?_cons_succ]
        · simp at h
      · rintro ⟨hl, hj⟩
        have h0 := hj 0 (by omega)
        simp only [Nat.mul_zero, Nat.add_zero, List.getElem?_cons_zero] at h0
        have hn : Memory.words m (a + 4) n = some R := ih.2 ⟨by simpa using hl, fun j hlt => by
          have := hj (j + 1) (by omega)
          rwa [show a + 4 * (j + 1) = a + 4 + 4 * j by omega, List.getElem?_cons_succ] at this⟩
        simp [Memory.words, h0, hn]

theorem readWord_storeWords (m : Memory) (a : Nat) (R : List Word) (j : Nat) (h : j < R.length) :
    Memory.readWord (Memory.storeWords m a R) (a + 4 * j) = R[j]? := by
  induction R generalizing m a j with
  | nil => simp at h
  | cons w R ih =>
    cases j with
    | zero =>
      have h0 : ∀ x, x < a + 4 → Memory.read (Memory.storeWords (Memory.writeWord m a w) (a + 4) R) x =
          Memory.read (Memory.writeWord m a w) x := fun x hx =>
        read_storeWords_other _ _ fun j _ => by omega
      have := readWord_writeWord m a w
      simp only [Memory.storeWords, Memory.readWord, Nat.mul_zero, Nat.add_zero, List.getElem?_cons_zero,
        h0 a (by omega), h0 (a + 1) (by omega)] at this ⊢
      exact this
    | succ j =>
      rw [Memory.storeWords, show a + 4 * (j + 1) = a + 4 + 4 * j by omega, ih _ _ _ (by simpa using h),
        List.getElem?_cons_succ]

theorem words_storeWords (m : Memory) (a : Nat) (R : List Word) :
    Memory.words (Memory.storeWords m a R) a R.length = some R :=
  words_eq_some.2 ⟨rfl, fun j h => readWord_storeWords m a R j h⟩

theorem words_congr {m m' : Memory} {a n : Nat}
    (h : ∀ j, j < n → Memory.read m (a + 4 * j) = Memory.read m' (a + 4 * j) ∧
      Memory.read m (a + 4 * j + 1) = Memory.read m' (a + 4 * j + 1)) :
    Memory.words m a n = Memory.words m' a n := by
  induction n generalizing a with
  | zero => rfl
  | succ n ih =>
    have h0 := h 0 (by omega)
    simp only [Nat.mul_zero, Nat.add_zero] at h0
    have hn := ih (a := a + 4) fun j hj => by
      have := h (j + 1) (by omega)
      rwa [show a + 4 * (j + 1) = a + 4 + 4 * j by omega] at this
    simp only [Memory.words, Memory.readWord, h0.1, h0.2, hn]

end Sys2Proof.Machine.Memory
end

