-- ==== Sys2Proof/Laws/Wire.lean ====
section
/-! SUPPORT. Small laws of the pure functions: halves of a word, the CRC over an append, sealed frames, pairs. -/

namespace Sys2Proof

@[simp] theorem hi_join (h l : Byte) : hi (join h l) = h := by
  apply BitVec.eq_of_getLsbD_eq
  intro i hlt
  have h8 : ¬ (8 + i < 8) := by omega
  simp only [join, hi, BitVec.getLsbD_extractLsb', BitVec.getLsbD_append, hlt, h8, decide_true, Bool.true_and,
    if_false, show 8 + i - 8 = i by omega]

@[simp] theorem lo_join (h l : Byte) : lo (join h l) = l := by
  apply BitVec.eq_of_getLsbD_eq
  intro i hlt
  simp only [join, lo, BitVec.getLsbD_extractLsb', BitVec.getLsbD_append, hlt, Nat.zero_add, decide_true,
    Bool.true_and, if_true]

@[simp] theorem join_hi_lo (w : Word) : join (hi w) (lo w) = w := Machine.Memory.join_hi_lo w

theorem crcFrom_append (c : Word) (S T : List Byte) : crcFrom c (S ++ T) = crcFrom (crcFrom c S) T := by
  induction S generalizing c with
  | nil => rfl
  | cons b S ih => exact ih _

theorem crc16_append (S T : List Byte) : crc16 (S ++ T) = crcFrom (crc16 S) T := crcFrom_append _ S T

theorem sealed_eq (P : List Byte) : sealed P = P ++ [lo (crc16 P), hi (crc16 P)] := rfl

@[simp] theorem length_sealed (P : List Byte) : (sealed P).length = P.length + 2 := by simp [sealed_eq]

@[simp] theorem body_sealed (P : List Byte) : body (sealed P) = P := by simp [body, sealed_eq]

@[simp] theorem body_append_two (P : List Byte) (a b : Byte) : body (P ++ [a, b]) = P := by simp [body]

@[simp] theorem byteAt_append_two_last (P : List Byte) (a b : Byte) :
    byteAt (P ++ [a, b]) (P.length + 1) = b := by simp [byteAt, List.getD]

@[simp] theorem byteAt_append_two_prev (P : List Byte) (a b : Byte) : byteAt (P ++ [a, b]) P.length = a := by
  simp [byteAt, List.getD]

/-- `verify` on a sequence written as its body and its trailing pair. -/
theorem verify_append_two (P : List Byte) (a b : Byte) :
    verify (P ++ [a, b]) = decide (crc16 P = join b a) := by
  simp [verify]

/-- A sequence of at least two bytes is its body and its trailing pair. -/
theorem eq_body_append {F : List Byte} (h : 2 ≤ F.length) :
    F = body F ++ [byteAt F (F.length - 2), byteAt F (F.length - 1)] := by
  apply List.ext_getElem?
  intro i
  simp only [body, byteAt, List.getD]
  by_cases h1 : i < F.length - 2
  · rw [List.getElem?_append_left (by simp; omega), List.getElem?_take, if_pos h1]
  · rw [List.getElem?_append_right (by simp; omega)]
    simp only [List.length_take, Nat.min_eq_left (Nat.sub_le _ _)]
    by_cases h2 : i = F.length - 2
    · subst h2
      simp [List.getElem?_eq_getElem (show F.length - 2 < F.length by omega)]
    · by_cases h3 : i = F.length - 1
      · subst h3
        have : F.length - 1 - (F.length - 2) = 1 := by omega
        simp [this, List.getElem?_eq_getElem (show F.length - 1 < F.length by omega)]
      · rw [List.getElem?_eq_none (by omega), List.getElem?_eq_none (by simp; omega)]

@[simp] theorem length_unpair (vs : List (Byte × Byte)) : (unpair vs).length = 2 * vs.length := by
  induction vs with
  | nil => rfl
  | cons p vs ih => obtain ⟨a, b⟩ := p; simp [unpair, ih]; omega

@[simp] theorem pairUp_unpair (vs : List (Byte × Byte)) : pairUp (unpair vs) = some vs := by
  induction vs with
  | nil => rfl
  | cons p vs ih => obtain ⟨a, b⟩ := p; simp [unpair, pairUp, ih]

theorem unpair_pairUp {X : List Byte} {vs : List (Byte × Byte)} (h : pairUp X = some vs) : unpair vs = X := by
  induction vs generalizing X with
  | nil =>
    match X, h with
    | [], _ => rfl
    | [_], h => simp [pairUp] at h
    | _ :: _ :: r, h => simp [pairUp] at h
  | cons p vs ih =>
    match X, h with
    | [], h => simp [pairUp] at h
    | [_], h => simp [pairUp] at h
    | a :: b :: r, h =>
      simp only [pairUp, Option.map_eq_some_iff] at h
      obtain ⟨ws, hws, he⟩ := h
      simp only [List.cons.injEq] at he
      obtain ⟨rfl, rfl⟩ := he
      simp [unpair, ih hws]

theorem unpair_eq_flatMap (vs : List (Byte × Byte)) : unpair vs = vs.flatMap (fun p => [p.1, p.2]) := by
  induction vs with
  | nil => rfl
  | cons p vs ih => obtain ⟨a, b⟩ := p; simp [unpair, ih]

end Sys2Proof
end

