-- ==== Sys2Proof/Laws/Ops.lean ====
section
/-! SUPPORT. What each shared operation can do, said once: its frame as one equation, and what it answers. -/

namespace Sys2Proof.Machine.State

theorem bytes_eq (s : State) (b : Buf) (n : Nat) : s.bytes b n = Memory.bytes s.mem (b.addr 0) n := rfl

theorem addr_eq (b : Buf) (i : Nat) : b.addr i = b.addr 0 + 4 * i := by simp [Buf.addr]

/-- A command that ends leaves time and draws, the result and the exception code, and nothing else. -/
theorem complete_after (s : State) (c : ResCode) : After s (s.complete c) { s with res := c, exc := 0 } :=
  ⟨Nat.le_add_right _ _, rfl⟩

theorem complete_after_of {s u : State} (c : ResCode) (h : u.now = s.now) :
    After s (u.complete c) { u with res := c, exc := 0 } :=
  ⟨by simp [h], rfl⟩

/-- What was stored in a byte buffer is read back behind the elements before it. -/
theorem bytes_storeBytes {s : State} {b : Buf} {n : Nat} {D F : List Byte} (h : s.bytes b n = some D) :
    (s.storeBytes b n F).bytes b (n + F.length) = some (D ++ F) := by
  simp only [bytes, storeBytes, addr_eq b n]
  exact Memory.bytes_storeBytes h

/-- An element of a range that was read is the byte the range has there. -/
theorem byte_of_bytes {s : State} {b : Buf} {n j : Nat} {F : List Byte} (h : s.bytes b n = some F) (hj : j < n) :
    s.byte? b j = some (byteAt F j) := by
  obtain ⟨hl, hF⟩ := Memory.bytes_eq_some.1 h
  rw [byte?, addr_eq, hF j hj, byteAt, List.getD_eq_getElem?_getD, List.getElem?_eq_getElem (hl ▸ hj),
    Option.getD_some]

theorem bytes_storeBytes_zero (s : State) (b : Buf) (F : List Byte) :
    (s.storeBytes b 0 F).bytes b F.length = some F :=
  Memory.bytes_storeBytes_zero _ _ _

/-- Storing byte elements changes no byte but theirs. -/
theorem sameOutside_storeBytes (s : State) (b : Buf) (i : Nat) (F : List Byte) :
    SameOutside s.mem (s.storeBytes b i F).mem (b.stores i F.length) := by
  intro a ha
  simp only [storeBytes_mem, Memory.read_storeBytes]
  split
  · rename_i hc
    refine absurd ⟨i + (a - b.addr i) / 4, by omega, by omega, ?_⟩ ha
    simp only [Buf.addr] at hc ⊢
    omega
  · rfl

theorem sameOutside_storeWords (s : State) (b : Buf) (R : List Word) :
    SameOutside s.mem (s.storeWords b R).mem (b.storesWords R.length) := by
  intro a ha
  refine Memory.read_storeWords_other _ _ fun j hj => ?_
  constructor
  · exact fun e => ha ⟨j, hj, .inl (by rw [addr_eq]; exact e)⟩
  · exact fun e => ha ⟨j, hj, .inr (by rw [addr_eq]; exact e)⟩

/-- The common end of every ENC_* command, for a frame `P ++ crc16_le(P)`. -/
theorem putFrame_sealed (s : State) (P : List Byte) : FrameWritten s (s.putFrame (sealed P)) P := by
  refine ⟨⟨Nat.le_add_right _ _, ?_⟩, ?_, ?_⟩
  · simp only [putFrame, body_sealed, length_sealed]
    rfl
  · have := bytes_storeBytes_zero s .txb (sealed P)
    rw [length_sealed] at this
    exact this
  · have := sameOutside_storeBytes s .txb 0 (sealed P)
    rw [length_sealed] at this
    exact this

/-! ### The line -/

theorem earliestArrival_le (s : State) : s.now ≤ s.earliestArrival := by
  unfold earliestArrival
  split
  · exact Nat.le_max_left _ _
  · exact Nat.le_refl _

theorem last_le_earliestArrival (s : State) : ∀ e ∈ s.rxq.getLast?, e.tick ≤ s.earliestArrival := by
  intro e he
  simp only [Option.mem_def] at he
  simp [earliestArrival, he]

/-- A burst changes the receive queue and the draws, and appends its bytes at ticks the environment may choose. -/
theorem deliver_delivered (F : List Byte) (s : State) : Delivered s (s.deliver F) F := by
  induction F generalizing s with
  | nil => exact ⟨[], rfl, by simp [deliver], List.Pairwise.nil, by simp, rfl⟩
  | cons b F ih =>
    obtain ⟨ts, hlen, hq, hp, hge, hfr⟩ := ih (s.arrive b)
    have hlast : (s.arrive b).rxq.getLast? = some ⟨b, s.earliestArrival + s.drawValue⟩ := by simp
    refine ⟨(s.earliestArrival + s.drawValue) :: ts, by simp [hlen], ?_, ?_, ?_, ?_⟩
    · simp only [deliver, hq, arrive_rxq]
      simp
    · refine List.pairwise_cons.2 ⟨fun x hx => ?_, hp⟩
      exact (hge x hx).2 _ hlast
    · intro x hx
      have h0 : s.now ≤ s.earliestArrival + s.drawValue ∧
          ∀ e ∈ s.rxq.getLast?, e.tick ≤ s.earliestArrival + s.drawValue :=
        ⟨Nat.le_add_right_of_le s.earliestArrival_le,
          fun e he => Nat.le_add_right_of_le (s.last_le_earliestArrival e he)⟩
      rcases List.mem_cons.1 hx with rfl | hx
      · exact h0
      · have hx' := (hge x hx).2 _ hlast
        exact ⟨Nat.le_trans h0.1 hx', fun e he => Nat.le_trans (h0.2 e he) hx'⟩
    · simp only [deliver] at hfr ⊢
      rw [hfr]
      rfl

/-! ### The director and the end of a read -/

theorem misdirected_iff (s : State) (d : Director) : s.misdirected d = true ↔ ¬ s.directed d := by
  simp [misdirected, directed, and_comm]

theorem misdirected_eq_false (s : State) (d : Director) : s.misdirected d = false ↔ s.directed d := by
  rw [← Bool.not_eq_true, misdirected_iff, not_not]

/-- RX_READ's end changes only `RXB`, `RXLEN`, the result and the exception code. -/
theorem endRead_frame (s : State) (r : ReadResult) :
    s.endRead r = { s with res := (s.endRead r).res, exc := 0, rxlen := (s.endRead r).rxlen,
                           mem := (s.endRead r).mem } := by
  cases r <;> rfl

@[simp] theorem endRead_res (s : State) (r : ReadResult) : (s.endRead r).res = r.code := by
  cases r <;> rfl

/-- DEC_VALIDATE's judgement changes only `VALID`, `CRC`, the result and the exception code. -/
theorem judge_frame (s : State) (r : List Byte) (v : Verdict) :
    s.judge r v = { s with res := (s.judge r v).res, exc := (s.judge r v).exc, valid := (s.judge r v).valid,
                           crc := (s.judge r v).crc } := by
  cases v <;> rfl

end Sys2Proof.Machine.State
end

