-- ==== Sys2Proof/Laws/Reader.lean ====
section
/-! SUPPORT. What the response reader can do, said once: what one poll consumes, and how the loop of
43_decoder.md R162 ends. Callers cite `loop_ends` and never unfold the loop. -/

namespace Sys2Proof.Machine

/-- The reader has consumed the garbage `g` and then the frame bytes `f`, the last one at tick `r.last`. -/
structure Reader.Holds (cap : Nat) (A : Byte) (g f : List RxEntry) (r : Reader) : Prop where
  garbage : ∀ e ∈ g, e.byte ≠ A
  starts : f = [] ∨ ∃ rest, f.map RxEntry.byte = A :: rest
  buf : r.buf = f.map RxEntry.byte
  matched : r.matched = true ↔ f ≠ []
  seen : r.seen = g.length + f.length
  fits : f.length ≤ cap
  before : f ≠ [] → ∀ e ∈ g ++ f, e.tick ≤ r.last

namespace Reader

theorem holds_start (cap : Nat) (A : Byte) (start : Nat) :
    Holds cap A [] [] { buf := [], matched := false, seen := 0, last := start } where
  garbage := by simp
  starts := .inl rfl
  buf := rfl
  matched := by simp
  seen := rfl
  fits := Nat.zero_le _
  before := by simp

/-- A consumed byte that does not overflow joins the garbage or the frame. -/
theorem Holds.take {cap : Nat} {A : Byte} {g f : List RxEntry} {r : Reader} {now : Nat} {e : RxEntry}
    (h : Holds cap A g f r) (hcap : 1 ≤ cap) (hnow : ∀ x ∈ g ++ f, x.tick ≤ now) (he : e.tick ≤ now)
    (hroom : f ≠ [] → f.length < cap) :
    ∃ g' f', g' ++ f' = g ++ f ++ [e] ∧ Holds cap A g' f' (r.take A now e.byte) ∧
      ((r.take A now e.byte).last = r.last ∨ (r.take A now e.byte).last = now) := by
  by_cases hf : f = []
  · subst hf
    have hm : r.matched = false := by simpa using h.matched
    by_cases hA : e.byte = A
    · refine ⟨g, [e], by simp, ⟨h.garbage, .inr ⟨[], by simp [hA]⟩, ?_, ?_, ?_, by simpa using hcap, ?_⟩, ?_⟩
      · simp [Reader.take, hm, hA]
      · simp [Reader.take, hm, hA]
      · simp [Reader.take, hm, hA, h.seen]
      · intro _ x hx
        simp only [Reader.take, hm, hA]
        simp only [List.mem_append, List.mem_singleton] at hx
        rcases hx with hx | rfl
        · exact hnow x (by simp [hx])
        · exact he
      · simp [Reader.take, hm, hA]
    · refine ⟨g ++ [e], [], by simp, ⟨?_, .inl rfl, ?_, ?_, ?_, Nat.zero_le _, by simp⟩, ?_⟩
      · intro x hx
        simp only [List.mem_append, List.mem_singleton] at hx
        rcases hx with hx | rfl
        · exact h.garbage x hx
        · exact hA
      · simpa [Reader.take, hm, hA] using h.buf
      · simp [Reader.take, hm, hA]
      · simp [Reader.take, hm, hA, h.seen]
      · simp [Reader.take, hm, hA]
  · have hm : r.matched = true := h.matched.2 hf
    refine ⟨g, f ++ [e], by simp, ⟨h.garbage, ?_, ?_, ?_, ?_, ?_, ?_⟩, ?_⟩
    · obtain ⟨rest, hr⟩ := h.starts.resolve_left hf
      exact .inr ⟨rest ++ [e.byte], by simp [hr]⟩
    · simp [Reader.take, hm, h.buf]
    · simp [Reader.take, hm]
    · simp [Reader.take, hm, h.seen]; omega
    · have := hroom hf; simp; omega
    · intro _ x hx
      simp only [Reader.take, hm, if_true]
      simp only [List.mem_append, List.mem_singleton] at hx
      rcases hx with hx | hx | rfl
      · exact hnow x (by simp [hx])
      · exact hnow x (by simp [hx])
      · exact he
    · simp [Reader.take, hm]

/-- One poll consumes exactly the leading entries that have arrived, up to a byte that overflows. -/
theorem poll_spec {cap : Nat} {A : Byte} {now : Nat} (hcap : 1 ≤ cap) :
    ∀ (q : List RxEntry) (r : Reader) (g f : List RxEntry), Holds cap A g f r →
      (∀ x ∈ g ++ f, x.tick ≤ now) →
      ∃ c q', q = c ++ q' ∧ (∀ e ∈ c, e.tick ≤ now) ∧
        ((∃ r' g' f', poll cap A now q r = (q', some r') ∧ g' ++ f' = g ++ f ++ c ∧ Holds cap A g' f' r' ∧
            (r'.last = r.last ∨ r'.last = now) ∧ ∀ e ∈ q'.head?, now < e.tick) ∨
          (∃ g' f', poll cap A now q r = (q', none) ∧ g' ++ f' = g ++ f ++ c ∧ (∀ e ∈ g', e.byte ≠ A) ∧
            (∃ rest, f'.map RxEntry.byte = A :: rest) ∧ f'.length = cap + 1))
  | [], r, g, f, h, _ =>
    ⟨[], [], rfl, by simp, .inl ⟨r, g, f, rfl, by simp, h, .inl rfl, by simp⟩⟩
  | e :: q, r, g, f, h, hnow => by
    by_cases he : e.tick ≤ now
    · by_cases ho : (r.matched && decide (r.buf.length = cap)) = true
      · simp only [Bool.and_eq_true, decide_eq_true_eq] at ho
        have hf := h.matched.1 ho.1
        refine ⟨[e], q, rfl, by simpa using he, .inr ⟨g, f ++ [e], ?_, by simp, h.garbage, ?_, ?_⟩⟩
        · simp [poll, he, ho]
        · obtain ⟨rest, hr⟩ := h.starts.resolve_left hf
          exact ⟨rest ++ [e.byte], by simp [hr]⟩
        · have := ho.2
          rw [h.buf] at this
          simpa using this
      · have hroom : f ≠ [] → f.length < cap := by
          intro hf
          have h1 := h.matched.2 hf
          have h2 := h.fits
          have h3 : r.buf.length = f.length := by simp [h.buf]
          simp only [Bool.and_eq_true, h1, true_and, decide_eq_true_eq, h3] at ho
          omega
        obtain ⟨g1, f1, hgf, h1, hl⟩ := h.take hcap hnow he hroom
        have hnow1 : ∀ x ∈ g1 ++ f1, x.tick ≤ now := by
          intro x hx
          rw [hgf] at hx
          rcases List.mem_append.1 hx with hx | hx
          · exact hnow x hx
          · rw [List.mem_singleton.1 hx]; exact he
        obtain ⟨c, q', hq, hc, hres⟩ := poll_spec hcap q _ g1 f1 h1 hnow1
        refine ⟨e :: c, q', by simp [hq], ?_, ?_⟩
        · intro x hx
          rcases List.mem_cons.1 hx with rfl | hx
          · exact he
          · exact hc x hx
        · have hstep : poll cap A now (e :: q) r = poll cap A now q (r.take A now e.byte) := by
            rw [poll, if_pos he, if_neg ho]
          rcases hres with ⟨r', g', f', hp, hg, hh, hl', hhd⟩ | ⟨g', f', hp, hg, hrest⟩
          · refine .inl ⟨r', g', f', by rw [hstep, hp], by rw [hg, hgf]; simp, hh, ?_, hhd⟩
            rcases hl' with hl' | hl'
            · rw [hl']; exact hl
            · exact .inr hl'
          · exact .inr ⟨g', f', by rw [hstep, hp], by rw [hg, hgf]; simp, hrest⟩
    · exact ⟨[], e :: q, rfl, by simp, .inl ⟨r, g, f, by simp [poll, he], by simp, h, .inl rfl, by simp; omega⟩⟩

/-- A poll takes the oldest entries of the queue and leaves the rest. -/
theorem poll_suffix (cap : Nat) (A : Byte) (now : Nat) :
    ∀ (q : List RxEntry) (r : Reader), ∃ c, q = c ++ (poll cap A now q r).1
  | [], _ => ⟨[], rfl⟩
  | e :: q, r => by
    rw [poll]
    split
    · split
      · exact ⟨[e], rfl⟩
      · obtain ⟨c, hc⟩ := poll_suffix cap A now q (r.take A now e.byte)
        exact ⟨e :: c, by rw [List.cons_append, ← hc]⟩
    · exact ⟨[], rfl⟩

/-- The loop takes the oldest entries of the queue and leaves the rest. -/
theorem loop_suffix (p : Params) (A : Byte) (L I : Nat) :
    ∀ (left now : Nat) (q : List RxEntry) (r : Reader), ∃ c, q = c ++ (loop p A L I left now q r).2.2
  | 0, now, q, r => by rw [loop]; split <;> exact ⟨[], rfl⟩
  | left + 1, now, q, r => by
    rw [loop]
    obtain ⟨c, hc⟩ := poll_suffix p.rxbCap A now q r
    split
    · exact ⟨[], rfl⟩
    · split
      · rename_i q' r' hp
        rw [hp] at hc
        obtain ⟨d, hd⟩ := loop_suffix p A L I left (now + 1) q' r'
        exact ⟨c ++ d, by rw [List.append_assoc, ← hd, ← hc]⟩
      · rename_i q' hp
        rw [hp] at hc
        exact ⟨c, hc⟩

/-- How a read from tick `now` with `left` ticks to its timeout ends, on the received sequence `all`: with a
completed frame, with a timeout classified, or with an overflow. `g` and `f` are the garbage and the frame bytes
consumed. A timeout leaves nothing that had arrived before it, once the queue was polled (`polled`: it was, just
before `now`). -/
def Ended (p : Params) (A : Byte) (L I now left : Nat) (polled : Prop) (all : List RxEntry)
    (out : ReadResult × Nat × List RxEntry) : Prop :=
  ∃ g f, all = g ++ f ++ out.2.2 ∧ (∀ e ∈ g, e.byte ≠ A) ∧ (f = [] ∨ ∃ rest, f.map RxEntry.byte = A :: rest) ∧
    now ≤ out.2.1 ∧ out.2.1 ≤ now + left ∧
    ((out.1 = .ok (f.map RxEntry.byte) ∧ f ≠ [] ∧ f.length ≤ p.rxbCap ∧
        lengthNeeded p.excEarly (f.map RxEntry.byte) L ≤ f.length ∧ (∀ e ∈ g ++ f, e.tick + I ≤ out.2.1) ∧
        ∀ e ∈ out.2.2.head?, out.2.1 ≤ e.tick) ∨
      (out.2.1 = now + left ∧ (1 ≤ left ∨ polled → ∀ e ∈ out.2.2.head?, out.2.1 ≤ e.tick) ∧
        ((out.1 = .noResponse ∧ g = [] ∧ f = []) ∨ (out.1 = .addressNeverSeen ∧ g ≠ [] ∧ f = []) ∨
          (out.1 = .truncated ∧ f ≠ [] ∧ f.length < lengthNeeded p.excEarly (f.map RxEntry.byte) L) ∨
          (out.1 = .unterminated ∧ f ≠ [] ∧ lengthNeeded p.excEarly (f.map RxEntry.byte) L ≤ f.length))) ∨
      (out.1 = .overflow ∧ out.2.1 < now + left ∧ f.length = p.rxbCap + 1))

/-- The completion test answers only for a frame that ended. -/
theorem ended_of_complete {p : Params} {A : Byte} {L I left now : Nat} {q : List RxEntry} {r : Reader}
    {g f : List RxEntry} {polled : Prop} (h : Holds p.rxbCap A g f r) (hlast : r.last ≤ now)
    (hhead : f ≠ [] ∨ polled → ∀ e ∈ q.head?, now ≤ e.tick) (hc : r.complete p.excEarly L I now = true) :
    Ended p A L I now left polled (g ++ f ++ q) (.ok r.buf, now, q) := by
  simp only [complete, Bool.and_eq_true, decide_eq_true_eq] at hc
  obtain ⟨⟨hm, hl⟩, hi⟩ := hc
  have hf := h.matched.1 hm
  refine ⟨g, f, rfl, h.garbage, h.starts, Nat.le_refl _, Nat.le_add_right _ _,
    .inl ⟨by rw [h.buf], hf, h.fits, ?_, ?_, hhead (.inl hf)⟩⟩
  · simpa [h.buf] using hl
  · intro e he
    have := h.before hf e he
    show e.tick + I ≤ now
    omega

/-- The kind of a timeout says what was consumed. -/
theorem ended_of_timeout {p : Params} {A : Byte} {L I now : Nat} {q : List RxEntry} {r : Reader}
    {g f : List RxEntry} {polled : Prop} (h : Holds p.rxbCap A g f r)
    (hhead : polled → ∀ e ∈ q.head?, now ≤ e.tick) :
    Ended p A L I now 0 polled (g ++ f ++ q) (r.classify p.excEarly L, now, q) := by
  refine ⟨g, f, rfl, h.garbage, h.starts, Nat.le_refl _, Nat.le_refl _,
    .inr (.inl ⟨rfl, fun hp => hhead (hp.resolve_left (by omega)), ?_⟩)⟩
  by_cases hs : r.seen = 0
  · have hz : g.length = 0 ∧ f.length = 0 := by have := h.seen; omega
    exact .inl ⟨by rw [classify, if_pos hs], List.eq_nil_of_length_eq_zero hz.1,
      List.eq_nil_of_length_eq_zero hz.2⟩
  · by_cases hf : f = []
    · have hm : r.matched = false := by simpa [hf] using h.matched
      refine .inr (.inl ⟨by rw [classify, if_neg hs, if_pos hm], ?_, hf⟩)
      rintro rfl
      exact hs (by simp [h.seen, hf])
    · have hm : r.matched = true := h.matched.2 hf
      have hb : r.buf.length = f.length := by simp [h.buf]
      by_cases hl : r.buf.length < lengthNeeded p.excEarly r.buf L
      · refine .inr (.inr (.inl ⟨by rw [classify, if_neg hs, if_neg (by simp [hm]), if_pos hl], hf, ?_⟩))
        rwa [hb, h.buf] at hl
      · refine .inr (.inr (.inr ⟨by rw [classify, if_neg hs, if_neg (by simp [hm]), if_neg hl], hf, ?_⟩))
        rw [hb, h.buf] at hl
        omega

/-- Everything the loop can do. -/
theorem loop_ends {p : Params} {A : Byte} {L I : Nat} (hcap : 1 ≤ p.rxbCap) :
    ∀ (left now : Nat) (q : List RxEntry) (r : Reader) (g f : List RxEntry) (polled : Prop),
      Holds p.rxbCap A g f r → (∀ x ∈ g ++ f, x.tick ≤ now) → r.last ≤ now →
      (f ≠ [] ∨ polled → ∀ e ∈ q.head?, now ≤ e.tick) → Ended p A L I now left polled (g ++ f ++ q) (loop p A L I left now q r) := by
  intro left
  induction left with
  | zero =>
    intro now q r g f polled h hnow hlast hhead
    by_cases hc : r.complete p.excEarly L I now = true
    · rw [loop, if_pos hc]
      exact ended_of_complete h hlast hhead hc
    · rw [loop, if_neg hc]
      exact ended_of_timeout h (fun hp => hhead (.inr hp))
  | succ left ih =>
    intro now q r g f polled h hnow hlast hhead
    by_cases hc : r.complete p.excEarly L I now = true
    · rw [loop, if_pos hc]
      exact ended_of_complete h hlast hhead hc
    · obtain ⟨c, q1, hq, hcn, hres⟩ := poll_spec hcap q r g f h hnow
      rcases hres with ⟨r', g1, f1, hp, hg, hh, hl, hhd⟩ | ⟨g1, f1, hp, hg, hga, hst, hlen⟩
      · have hnow1 : ∀ x ∈ g1 ++ f1, x.tick ≤ now + 1 := by
          intro x hx
          rw [hg] at hx
          rcases List.mem_append.1 hx with hx | hx
          · exact Nat.le_succ_of_le (hnow x hx)
          · exact Nat.le_succ_of_le (hcn x hx)
        obtain ⟨g', f', hsp, h1, h2, h3, h4, h5⟩ :=
          ih (now + 1) q1 r' g1 f1 True hh hnow1 (by omega) (fun _ e he => hhd e he)
        rw [loop, if_neg hc, hp]
        rw [show now + 1 + left = now + (left + 1) by omega] at h4 h5
        exact ⟨g', f', by rw [← hsp, hg, hq]; simp, h1, h2, Nat.le_of_succ_le h3, h4,
          h5.imp_right (.imp_left (.imp_right (.imp_left fun hp _ => hp (.inr trivial))))⟩
      · rw [loop, if_neg hc, hp]
        exact ⟨g1, f1, by rw [hg, hq]; simp, hga, .inr hst, Nat.le_refl _, Nat.le_add_right _ _,
          .inr (.inr ⟨rfl, by simp, hlen⟩)⟩

end Reader

/-- Everything a read can do. -/
theorem readResponse_ends {p : Params} (hcap : 1 ≤ p.rxbCap) (A : Byte) (L T I start : Nat) (q : List RxEntry) :
    Reader.Ended p A L I start T False q (readResponse p A L T I start q) :=
  Reader.loop_ends hcap T start q _ [] [] False (Reader.holds_start _ _ _) (by simp) (Nat.le_refl _) (by simp)

end Sys2Proof.Machine
end

