-- ==== Sys2Proof/Laws/Exec.lean ====
section
/-! SUPPORT. What each instruction, and then a step, can do when it answers a next state: one inversion lemma per
meaning. Whole-machine rules and invariants split on these and never unfold a meaning. -/

namespace Sys2Proof.Machine

variable {s t : State}

theorem execCrcGen_next {append : Bool} (h : execCrcGen append s = .next t) :
    t = s.complete .invalidArgument ∨
      ∃ data, s.bytes .txb s.arg0n = some data ∧ s.arg0n ≤ s.params.txbCap ∧
        ((append = false ∧ t = (s.setCrc (crc16 data)).complete .ok) ∨
          (append = true ∧ s.arg0n + 2 ≤ s.params.txbCap ∧
            t = (((s.setCrc (crc16 data)).storeBytes .txb s.arg0n (le16 (crc16 data))).setTxlen
              (s.arg0n + 2)).complete .ok)) := by
  unfold execCrcGen at h
  split at h
  · exact .inl (by simpa using h.symm)
  · rename_i h1
    split at h
    · exact .inl (by simpa using h.symm)
    · rename_i h2
      split at h
      · simp at h
      · rename_i data hd
        refine .inr ⟨data, hd, by omega, ?_⟩
        cases append
        · exact .inl ⟨rfl, by simpa using h.symm⟩
        · exact .inr ⟨rfl, by simpa using h2, by simpa using h.symm⟩

theorem execCrcVerify_next {src : CrcSource} (h : execCrcVerify src s = .next t) :
    t = s.complete .invalidArgument ∨
      ∃ F, s.verifySource src = some F ∧
        t = (if 2 ≤ F.length then s.setCrc (crc16 (body F)) else s).complete (if verify F then .ok else .crc) := by
  unfold execCrcVerify at h
  split at h
  · exact .inl (by simpa using h.symm)
  · split at h
    · simp at h
    · exact .inr ⟨_, by assumption, by simpa using h.symm⟩

theorem execEncReadHolding_next (h : execEncReadHolding s = .next t) :
    ∃ a, s.slave = some a ∧ t = s.putFrame (encodeRead 0x03#8 a s.arg0 s.arg1) := by
  unfold execEncReadHolding at h
  split at h
  · simp at h
  · exact ⟨_, by assumption, by simpa using h.symm⟩

theorem execEncReadInput_next (h : execEncReadInput s = .next t) :
    ∃ a, s.slave = some a ∧ t = s.putFrame (encodeRead 0x04#8 a s.arg0 s.arg1) := by
  unfold execEncReadInput at h
  split at h
  · simp at h
  · exact ⟨_, by assumption, by simpa using h.symm⟩

theorem execEncWriteSingle_next {ord : ByteOrder} (h : execEncWriteSingle ord s = .next t) :
    ∃ a, s.slave = some a ∧ t = s.putFrame (encodeWriteSingle a s.arg0 s.arg1 ord) := by
  unfold execEncWriteSingle at h
  split at h
  · simp at h
  · exact ⟨_, by assumption, by simpa using h.symm⟩

theorem execEncResetEnergy_next {form : ResetForm} (h : execEncResetEnergy form s = .next t) :
    ∃ a, s.slave = some a ∧ t = s.putFrame (encodeResetEnergy a form (lo s.arg0)) := by
  unfold execEncResetEnergy at h
  split at h
  · simp at h
  · exact ⟨_, by assumption, by simpa using h.symm⟩

theorem execEncWriteMultiple_next {ord : ByteOrder} (h : execEncWriteMultiple ord s = .next t) :
    (writeMultipleFits s.params s.arg1n = false ∧ t = s.complete .invalidArgument) ∨
      ∃ a V, writeMultipleFits s.params s.arg1n = true ∧ s.slave = some a ∧ s.words .win s.arg1n = some V ∧
        t = s.putFrame (encodeWriteMultiple a s.arg0 V ord) := by
  unfold execEncWriteMultiple at h
  split at h
  · simp at h
  · split at h
    · split at h
      · simp at h
      · exact .inr ⟨_, _, by assumption, by assumption, by assumption, by simpa using h.symm⟩
    · rename_i hf
      exact .inl ⟨by simpa using hf, by simpa using h.symm⟩

theorem execEncCustom_next {fc : Byte} (h : execEncCustom fc s = .next t) :
    (customFits s.params s.arg1n = false ∧ t = s.complete .invalidArgument) ∨
      ∃ a X, customFits s.params s.arg1n = true ∧ s.slave = some a ∧ s.bytes .xb s.arg1n = some X ∧
        t = s.putFrame (encodeCustom a fc X) := by
  unfold execEncCustom at h
  split at h
  · simp at h
  · split at h
    · split at h
      · simp at h
      · exact .inr ⟨_, _, by assumption, by assumption, by assumption, by simpa using h.symm⟩
    · rename_i hf
      exact .inl ⟨by simpa using hf, by simpa using h.symm⟩

/-- Turning the director: nothing without a line, else the line, the wait and the director. -/
theorem State.turn_cases (s : State) (level : Bool) (d : Director) :
    (s.params.dePresent = false ∧ s.turn level d = s) ∨
      (s.params.dePresent = true ∧ s.turn level d = ((s.setDe level).wait s.params.settle).setDir d) := by
  unfold State.turn
  cases h : s.params.dePresent
  · exact .inl ⟨rfl, by simp⟩
  · exact .inr ⟨rfl, by simp⟩

theorem execDirTx_next (h : execDirTx s = .next t) : t = (s.turn true .transmit).finish .ok := by
  simpa [execDirTx] using h.symm

theorem execDirRx_next (h : execDirRx s = .next t) : t = (s.turn false .receive).finish .ok := by
  simpa [execDirRx] using h.symm

theorem execTxSend_next (h : execTxSend s = .next t) :
    (¬ s.directed .transmit ∧ t = s.finish .direction) ∨
      ∃ F, s.directed .transmit ∧ s.frame = some F ∧ t = s.send F := by
  unfold execTxSend at h
  cases hm : s.misdirected .transmit
  · split at h
    · rename_i F hF
      exact .inr ⟨F, (s.misdirected_eq_false _).1 hm, hF, by simpa [hm] using h.symm⟩
    · simp [hm] at h
  · refine .inl ⟨(s.misdirected_iff _).1 hm, ?_⟩
    split at h <;> simpa [hm] using h.symm

theorem execRxDiscard_next (h : execRxDiscard s = .next t) : t = s.discardArrived.complete .ok := by
  simpa [execRxDiscard] using h.symm

theorem execRxRead_next (h : execRxRead s = .next t) :
    t = (s.setValid false).finish .direction ∨ t = (s.setValid false).finish .invalidArgument ∨
      ∃ a T I r n q, s.directed .receive ∧ s.readerConfig = some (a, T, I) ∧
        readResponse s.params a s.arg0n T I s.now s.rxq = (r, n, q) ∧
        t = ((s.setValid false).leftOff n q).endRead r := by
  unfold execRxRead at h
  cases hm : s.misdirected .receive
  · simp only [hm, Bool.false_eq_true, if_false] at h
    split at h
    · exact .inr (.inl (by simpa using h.symm))
    · split at h
      · simp at h
      · rename_i a T I hc
        have hd := (s.misdirected_eq_false _).1 hm
        generalize hr : readResponse s.params a s.arg0n T I s.now s.rxq = out at h
        exact .inr (.inr ⟨a, T, I, out.1, out.2.1, out.2.2, hd, hc, hr, by simpa using h.symm⟩)
  · exact .inl (by simpa [hm] using h.symm)

theorem execDecValidate_next (h : execDecValidate s = .next t) :
    ∃ r, s.response = some r ∧ t = ((s.setValid false).judge r (validate r)).elapse := by
  unfold execDecValidate at h
  split at h
  · simp at h
  · exact ⟨_, by assumption, by simpa using h.symm⟩

theorem execDecExtract_next (h : execDecExtract s = .next t) :
    t = s.complete .notValidated ∨ t = s.complete .tooShort ∨
      ∃ r, s.valid = true ∧ 3 ≤ s.rxlen ∧ s.response = some r ∧
        3 + 2 * min s.arg0n ((byteAt r 2).toNat / 2) + 2 ≤ s.rxlen ∧
        t = ((s.storeWords .rout (extractRegisters r s.arg0n)).setRegcnt
          (min s.arg0n ((byteAt r 2).toNat / 2))).complete .ok := by
  unfold execDecExtract at h
  split at h
  · exact .inl (by simpa using h.symm)
  · rename_i hv
    split at h
    · exact .inr (.inl (by simpa using h.symm))
    · rename_i h3
      split at h
      · simp at h
      · rename_i bc hbc
        simp only at h
        split at h
        · exact .inr (.inl (by simpa using h.symm))
        · rename_i hk
          split at h
          · simp at h
          · rename_i r hr
            obtain rfl : bc = byteAt r 2 :=
              Option.some.inj (hbc.symm.trans (State.byte_of_bytes (n := s.rxlen) hr (by omega)))
            exact .inr (.inr ⟨r, by simpa using hv, by omega, hr, by omega, by simpa using h.symm⟩)

/-- A command takes exactly the arm `exec` calls; a frame delivers its bytes. -/
theorem exec_frame_next {i : Instr} (hi : ∀ w, encode i ≠ .command w) (h : exec i s = .next t) :
    ∃ o F, encode i = .frame o F ∧ t = s.deliver F := by
  cases i
  case frameReadHoldingReq a x y => exact ⟨_, _, rfl, by simpa [exec, execFrameReadHoldingReq] using h.symm⟩
  case frameReadInputReq a x y => exact ⟨_, _, rfl, by simpa [exec, execFrameReadInputReq] using h.symm⟩
  case frameWriteSingleReq a x v => exact ⟨_, _, rfl, by simpa [exec, execFrameWriteSingleReq] using h.symm⟩
  case frameWriteMultipleReq a x vs => exact ⟨_, _, rfl, by simpa [exec, execFrameWriteMultipleReq] using h.symm⟩
  case frameResetEnergyReq a p => exact ⟨_, _, rfl, by simpa [exec, execFrameResetEnergyReq] using h.symm⟩
  case frameCustomReq a fc X => exact ⟨_, _, rfl, by simpa [exec, execFrameCustomReq] using h.symm⟩
  case frameExceptionRsp a f c => exact ⟨_, _, rfl, by simpa [exec, execFrameExceptionRsp] using h.symm⟩
  case frameReadRsp a f d => exact ⟨_, _, rfl, by simpa [exec, execFrameReadRsp] using h.symm⟩
  all_goals exact absurd rfl (hi _)

/-- The ways an instruction ends in a next state, in the terms of the shared operations. -/
inductive Did (s : State) : State → Prop where
  /-- Only the result, the exception code and time. -/
  | reported (c : ResCode) : Did s (s.complete c)
  /-- Only the result and the exception code, with no tick spent. -/
  | refused (c : ResCode) : Did s (s.finish c)
  /-- The CRC was evaluated. -/
  | summed (c : Word) (code : ResCode) : Did s ((s.setCrc c).complete code)
  /-- The CRC was appended to `TXB[0:n)`. -/
  | appended (data : List Byte) (h : s.bytes .txb s.arg0n = some data) (hn : s.arg0n + 2 ≤ s.params.txbCap) :
      Did s ((((s.setCrc (crc16 data)).storeBytes .txb s.arg0n (le16 (crc16 data))).setTxlen
        (s.arg0n + 2)).complete .ok)
  /-- A frame was encoded. -/
  | encoded (P : List Byte) (h : s.params.wf → P.length + 2 ≤ s.params.txbCap) : Did s (s.putFrame (sealed P))
  /-- The director was turned. -/
  | turned (level : Bool) (d : Director) (h : level = d.bit) : Did s ((s.turn level d).finish .ok)
  /-- A frame was sent. -/
  | sent (F : List Byte) (hd : s.directed .transmit) (h : s.frame = some F) : Did s (s.send F)
  /-- What had arrived was discarded. -/
  | discarded : Did s (s.discardArrived.complete .ok)
  /-- RX_READ turned away. -/
  | unread (c : ResCode) : Did s ((s.setValid false).finish c)
  /-- RX_READ read. -/
  | read (a : Byte) (T I : Nat) (r : ReadResult) (n : Nat) (q : List RxEntry)
      (h : readResponse s.params a s.arg0n T I s.now s.rxq = (r, n, q)) :
      Did s (((s.setValid false).leftOff n q).endRead r)
  /-- DEC_VALIDATE judged. -/
  | judged (r : List Byte) (h : s.response = some r) :
      Did s ((s.setValid false).judge r (validate r)).elapse
  /-- DEC_EXTRACT extracted. -/
  | extracted (r : List Byte) (hv : s.valid = true) (h : s.response = some r) :
      Did s (((s.storeWords .rout (extractRegisters r s.arg0n)).setRegcnt
        (min s.arg0n ((byteAt r 2).toNat / 2))).complete .ok)
  /-- Bytes arrived on the line. -/
  | delivered (F : List Byte) : Did s (s.deliver F)

/-- Everything an instruction can do. -/
theorem exec_did {i : Instr} (h : exec i s = .next t) : Did s t := by
  have frame : (∀ w, encode i ≠ .command w) → Did s t := by
    intro hi
    obtain ⟨-, F, -, rfl⟩ := exec_frame_next hi h
    exact .delivered F
  cases i
  case crcGen ap =>
    rcases execCrcGen_next h with rfl | ⟨data, hd, -, ⟨-, rfl⟩ | ⟨-, hn, rfl⟩⟩
    · exact .reported _
    · exact .summed _ _
    · exact .appended data hd hn
  case crcVerify src =>
    rcases execCrcVerify_next h with rfl | ⟨F, -, rfl⟩
    · exact .reported _
    · split
      · exact .summed _ _
      · exact .reported _
  case encReadHolding =>
    obtain ⟨a, -, rfl⟩ := execEncReadHolding_next h
    exact .encoded _ (fun hp => by have := hp.1.1; simp; omega)
  case encReadInput =>
    obtain ⟨a, -, rfl⟩ := execEncReadInput_next h
    exact .encoded _ (fun hp => by have := hp.1.1; simp; omega)
  case encWriteSingle ord =>
    obtain ⟨a, -, rfl⟩ := execEncWriteSingle_next h
    exact .encoded _ (fun hp => by have := hp.1.1; simp; omega)
  case encWriteMultiple ord =>
    rcases execEncWriteMultiple_next h with ⟨-, rfl⟩ | ⟨a, V, hf, -, hV, rfl⟩
    · exact .reported _
    · refine .encoded _ (fun _ => ?_)
      simp only [writeMultipleFits, Bool.and_eq_true, decide_eq_true_eq] at hf
      have := (Memory.words_eq_some.1 hV).1
      simp
      omega
  case encCustom fc =>
    rcases execEncCustom_next h with ⟨-, rfl⟩ | ⟨a, X, hf, -, hX, rfl⟩
    · exact .reported _
    · refine .encoded _ (fun _ => ?_)
      simp only [customFits, Bool.and_eq_true, decide_eq_true_eq] at hf
      have := Memory.length_of_bytes hX
      simp
      omega
  case encResetEnergy form =>
    obtain ⟨a, -, rfl⟩ := execEncResetEnergy_next h
    cases form <;> exact .encoded _ (fun hp => by have := hp.1.1; simp; omega)
  case dirTx => rw [execDirTx_next h]; exact .turned _ _ rfl
  case dirRx => rw [execDirRx_next h]; exact .turned _ _ rfl
  case txSend =>
    rcases execTxSend_next h with ⟨-, rfl⟩ | ⟨F, hd, hF, rfl⟩
    · exact .refused _
    · exact .sent F hd hF
  case rxDiscard => rw [execRxDiscard_next h]; exact .discarded
  case rxRead =>
    rcases execRxRead_next h with rfl | rfl | ⟨a, T, I, r, n, q, -, -, hr, rfl⟩
    · exact .unread _
    · exact .unread _
    · exact .read a T I r n q hr
  case decValidate =>
    obtain ⟨r, hr, rfl⟩ := execDecValidate_next h
    exact .judged r hr
  case decExtract =>
    rcases execDecExtract_next h with rfl | rfl | ⟨r, hv, -, hr, -, rfl⟩
    · exact .reported _
    · exact .reported _
    · exact .extracted r hv hr
  all_goals exact frame (fun w => by simp [encode])

/-- Everything a step can do: time passes, the host reads or writes, an instruction runs, an illegal word is
reported, or bytes that are no frame arrive. -/
theorem step_did (h : step s = .next t) :
    t = s.waitForHost ∨ (∃ n rest, t = (s.setInputs rest).wait n) ∨
      (∃ rest a v, t = (s.setInputs rest).logRead a v) ∨
      (∃ rest w a x v, target? s.params w a = some x ∧ x ≠ .reg .cmd ∧ t = (s.setInputs rest).put x v) ∨
      (∃ rest w, t = ((s.setInputs rest).putReg .cmd w).illegalCommand) ∨
      (∃ rest F, t = (s.setInputs rest).deliver F) ∨
      (∃ rest i, exec i (s.setInputs rest) = .next t) ∨
      (∃ rest w i, exec i ((s.setInputs rest).putReg .cmd w) = .next t) := by
  unfold step at h
  split at h
  · exact .inl (by simpa using h.symm)
  · rename_i w a v rest _
    unfold hostWrite at h
    split at h
    · simp at h
    · simp only [runFetched] at h
      split at h
      · exact .inr (.inr (.inr (.inr (.inr (.inr (.inr ⟨rest, _, _, h⟩))))))
      · exact .inr (.inr (.inr (.inr (.inl ⟨rest, v, by simpa using h.symm⟩))))
    · rename_i x hx hne
      refine .inr (.inr (.inr (.inl ⟨rest, w, a, x, v, ?_, ?_, by simpa using h.symm⟩)))
      · simpa using hne
      · simpa using hx
  · rename_i w a rest _
    unfold hostRead at h
    split at h
    · simp at h
    · split at h
      · simp at h
      · exact .inr (.inr (.inl ⟨rest, a, _, by simpa using h.symm⟩))
  · exact .inr (.inl ⟨_, _, by simpa using h.symm⟩)
  · rename_i o F rest _
    simp only [runFetched] at h
    split at h
    · exact .inr (.inr (.inr (.inr (.inr (.inr (.inl ⟨rest, _, h⟩))))))
    · exact .inr (.inr (.inr (.inr (.inr (.inl ⟨rest, F, by simpa using h.symm⟩)))))

end Sys2Proof.Machine
end

