-- ==== Sys2Proof/Laws/HostBus.lean ====
section
/-! SUPPORT. What a host address names: the registers of 20_memory.md R51, the mapped elements of R52. -/

namespace Sys2Proof.Machine

/-- A register sits at its offset. -/
theorem targetAt_reg (p : Params) (r : Reg) : targetAt p r.offset = some (.reg r) := by
  cases r <;> rfl

/-- No buffer is longer than its window (R52, 00_scope.md R9). -/
theorem Buf.cap_le {p : Params} (hp : p.wf) (b : Buf) : b.cap p ≤ 256 := by
  obtain ⟨h1, h2, h3, h4⟩ := hp
  cases b <;> simp only [Buf.cap] <;> omega

/-- The window an offset lies in is the first that holds it. -/
theorem find_window (b : Buf) {off : Nat} (h1 : b.base ≤ off) (h2 : off < b.base + 0x400) :
    buffers.find? (fun c => decide (c.base ≤ off) && decide (off < c.base + 0x400)) = some b := by
  have h : (fun c : Buf => decide (c.base ≤ off) && decide (off < c.base + 0x400)) = fun c => decide (c = b) := by
    funext c
    rw [← Bool.decide_and, decide_eq_decide]
    constructor
    · cases b <;> cases c <;> simp [Buf.base] at h1 h2 ⊢ <;> omega
    · rintro rfl
      exact ⟨h1, h2⟩
  rw [h]
  cases b <;> rfl

/-- No register sits at an offset of 0x30 or more. -/
theorem find_register_none {off : Nat} (h : 0x30 ≤ off) : registers.find? (fun r => r.offset == off) = none := by
  refine List.find?_eq_none.2 fun r _ => ?_
  have : r.offset < 0x30 := by cases r <;> decide
  simp only [beq_iff_eq]
  omega

/-- A mapped element sits at its address. -/
theorem targetAt_elem {p : Params} (hp : p.wf) {b : Buf} {i : Nat} (h : i < b.cap p) :
    targetAt p (b.addr i) = some (.elem b i) := by
  have hi := Buf.cap_le hp b
  have hb : 0x400 ≤ b.base ∧ b.base % 4 = 0 := by cases b <;> decide
  have h4 : b.addr i % 4 = 0 := by simp only [Buf.addr]; omega
  have hd : (b.addr i - b.base) / 4 = i := by simp only [Buf.addr]; omega
  rw [targetAt, if_pos h4, find_register_none (by simp only [Buf.addr]; omega)]
  simp only [elementAt]
  rw [find_window b (by simp only [Buf.addr]; omega) (by simp only [Buf.addr]; omega)]
  simp only [hd, h, if_true]

/-- An aligned 32-bit access inside the window names what its offset names. -/
theorem target_of_offset (p : Params) (off : Nat) : target? p .w32 (p.base + off) = targetAt p off := by
  simp [target?]

theorem target_reg (p : Params) (r : Reg) : target? p .w32 (p.base + r.offset) = some (.reg r) := by
  rw [target_of_offset, targetAt_reg]

theorem target_elem {p : Params} (hp : p.wf) {b : Buf} {i : Nat} (h : i < b.cap p) :
    target? p .w32 (p.base + b.addr i) = some (.elem b i) := by
  rw [target_of_offset, targetAt_elem hp h]

end Sys2Proof.Machine
end

