-- ==== Sys2Proof/Laws/PerInstr.lean ====
section
/-! SUPPORT. Families of statements made once per instruction. -/

namespace Sys2Proof.Laws.EncodedForm

/-- What an encoding looks like from outside: a command word has its reserved bits clear (30_encoding.md R71), a
wire frame has room for address, function and CRC and its CRC verifies (R77). -/
def Statement (i : Instr) : Prop :=
  (∀ w, encode i = .command w → reservedField w = 0) ∧
    ∀ o F, encode i = .frame o F → 4 ≤ F.length ∧ verify F = true

/-- The reserved bits of a command word are clear. -/
theorem reserved_commandWord (op fc : Byte) (m : Bool) : reservedField (commandWord op fc m) = 0 := by
  apply BitVec.eq_of_getLsbD_eq
  intro i hi
  simp only [reservedField, commandWord, BitVec.getLsbD_extractLsb', BitVec.getLsbD_append, hi, decide_true,
    Bool.true_and, show ¬ (17 + i < 8) by omega, show ¬ (17 + i - 8 < 8) by omega,
    show ¬ (17 + i - 8 - 8 < 1) by omega, if_false]
  simp

/-- A sealed sequence verifies. -/
theorem verify_of_sealed (P : List Byte) : verify (sealed P) = true := by
  rw [sealed_eq, verify_append_two, join_hi_lo, decide_eq_true rfl]

theorem of_command {i : Instr} {op fc : Byte} {m : Bool} (h : encode i = .command (commandWord op fc m)) :
    Statement i := by
  refine ⟨fun w hw => ?_, fun o F hF => ?_⟩
  · rw [h, Fetched.command.injEq] at hw
    rw [← hw]
    exact reserved_commandWord op fc m
  · rw [h] at hF
    simp at hF

theorem of_frame {i : Instr} {o : Origin} {P : List Byte} (h : encode i = .frame o (sealed P)) (hP : 2 ≤ P.length) :
    Statement i := by
  refine ⟨fun w hw => ?_, fun o' F hF => ?_⟩
  · rw [h] at hw
    simp at hw
  · rw [h, Fetched.frame.injEq] at hF
    rw [← hF.2]
    exact ⟨by rw [length_sealed]; omega, verify_of_sealed P⟩

theorem crcGen (append : Bool) : Statement (.crcGen append) := of_command rfl
theorem crcVerify (src : CrcSource) : Statement (.crcVerify src) := of_command rfl
theorem encReadHolding : Statement .encReadHolding := of_command rfl
theorem encReadInput : Statement .encReadInput := of_command rfl
theorem encWriteSingle (ord : ByteOrder) : Statement (.encWriteSingle ord) := of_command rfl
theorem encWriteMultiple (ord : ByteOrder) : Statement (.encWriteMultiple ord) := of_command rfl
theorem encCustom (fc : Byte) : Statement (.encCustom fc) := of_command rfl
theorem encResetEnergy (form : ResetForm) : Statement (.encResetEnergy form) := of_command rfl
theorem dirTx : Statement .dirTx := of_command rfl
theorem dirRx : Statement .dirRx := of_command rfl
theorem txSend : Statement .txSend := of_command rfl
theorem rxDiscard : Statement .rxDiscard := of_command rfl
theorem rxRead : Statement .rxRead := of_command rfl
theorem decValidate : Statement .decValidate := of_command rfl
theorem decExtract : Statement .decExtract := of_command rfl

theorem frameReadHoldingReq (addr : Byte) (start count : Word) :
    Statement (.frameReadHoldingReq addr start count) := of_frame rfl (by simp)

theorem frameReadInputReq (addr : Byte) (start count : Word) :
    Statement (.frameReadInputReq addr start count) := of_frame rfl (by simp)

theorem frameWriteSingleReq (addr : Byte) (reg : Word) (value : Byte × Byte) :
    Statement (.frameWriteSingleReq addr reg value) := of_frame rfl (by simp)

theorem frameWriteMultipleReq (addr : Byte) (start : Word) (values : List (Byte × Byte)) :
    Statement (.frameWriteMultipleReq addr start values) := of_frame rfl (by simp)

theorem frameResetEnergyReq (addr : Byte) (phase : Option Byte) :
    Statement (.frameResetEnergyReq addr phase) := by
  cases phase <;> exact of_frame rfl (by simp)

theorem frameCustomReq (addr fc : Byte) (extra : List Byte) :
    Statement (.frameCustomReq addr fc extra) := of_frame rfl (by simp)

theorem frameExceptionRsp (addr : Byte) (func : BitVec 7) (code : Byte) :
    Statement (.frameExceptionRsp addr func code) := of_frame rfl (by simp)

theorem frameReadRsp (addr : Byte) (func : BitVec 7) (data : List Byte) :
    Statement (.frameReadRsp addr func data) := of_frame rfl (by simp)

end Sys2Proof.Laws.EncodedForm
end

