-- ==== Sys2Proof/Tests/Slice0.lean ====
section
/-! SUPPORT. Tests of the model against the spec's own words and vectors (30_encoding.md R72, 95_test_vectors.md),
and for every obligation with hypotheses a witness that meets them. -/

/- One theorem at a time: each of these waits for the kernel, and a thread that waits holds its stack. -/
set_option Elab.async false

namespace Sys2Proof.Tests
open Sys2Proof Sys2Proof.Machine

/-! ## Well-formedness refuses -/

/-- 128 values need a byte count of 256 (R80). -/
theorem test_wf_refuses_long_write_multiple :
    (Instr.frameWriteMultipleReq 1 0 (List.replicate 128 (0, 0))).wf = false := by decide +kernel

/-- 256 data bytes do not fit the byte count (R84). -/
theorem test_wf_refuses_long_read_response : (Instr.frameReadRsp 1 3 (List.replicate 256 0)).wf = false := by
  decide +kernel

/-- 253 extra bytes are more than any `P_XB_CAP` (R9). -/
theorem test_wf_refuses_long_custom : (Instr.frameCustomReq 1 0x41 (List.replicate 253 0)).wf = false := by
  decide +kernel

/-- The layout of a read request is FRAME_READ_HOLDING_REQ (R78), not a custom frame. -/
theorem test_wf_refuses_custom_read : (Instr.frameCustomReq 1 0x03 [0, 0, 0, 1]).wf = false := by decide

/-! ## Decoding: every row's word, written out from R72 and R77-R84 -/

theorem test_decode_crc :
    decodeCommand 0x00000001#32 = .ok (.crcGen false) ∧ decodeCommand 0x00010001#32 = .ok (.crcGen true) ∧
      decodeCommand 0x00000002#32 = .ok (.crcVerify .rxb) ∧ decodeCommand 0x00010002#32 = .ok (.crcVerify .txb) := by
  decide

theorem test_decode_encoder :
    decodeCommand 0x00000310#32 = .ok .encReadHolding ∧ decodeCommand 0x00000410#32 = .ok .encReadInput ∧
      decodeCommand 0x00000011#32 = .ok (.encWriteSingle .highFirst) ∧
      decodeCommand 0x00010011#32 = .ok (.encWriteSingle .lowFirst) ∧
      decodeCommand 0x00000012#32 = .ok (.encWriteMultiple .highFirst) ∧
      decodeCommand 0x00010012#32 = .ok (.encWriteMultiple .lowFirst) ∧
      decodeCommand 0x00004113#32 = .ok (.encCustom 0x41) ∧
      decodeCommand 0x00000014#32 = .ok (.encResetEnergy .bare) ∧
      decodeCommand 0x00010014#32 = .ok (.encResetEnergy .phase) := by decide

theorem test_decode_director :
    decodeCommand 0x00000020#32 = .ok .dirTx ∧ decodeCommand 0x00000021#32 = .ok .dirRx ∧
      decodeCommand 0x00000022#32 = .ok .txSend ∧ decodeCommand 0x00000023#32 = .ok .rxDiscard := by decide

theorem test_decode_decoder :
    decodeCommand 0x00000030#32 = .ok .rxRead ∧ decodeCommand 0x00000031#32 = .ok .decValidate ∧
      decodeCommand 0x00000032#32 = .ok .decExtract := by decide

/-- V-ILL-1 to V-ILL-15. -/
theorem test_decode_illegal :
    [0x00000000#32, 0x00000003#32, 0x00000015#32, 0x00000033#32, 0x000000FF#32, 0x00020000#32, 0x80000023#32,
      0x00000100#32, 0x00010020#32, 0x00010030#32, 0x00000120#32, 0x00010013#32, 0x00010410#32, 0x00000510#32,
      0x00010032#32].map (fun w => (decodeCommand w).toOption) = List.replicate 15 none := by decide

/-- Frames of V-ENC-1, 2, 8, 9, 11, 17, 18, 22. -/
theorem test_decode_requests :
    decodeFrame .request [0xF8, 0x04, 0x00, 0x00, 0x00, 0x01, 0x25, 0xA3] = .ok (.frameReadInputReq 0xF8 0 1) ∧
      decodeFrame .request [0x01, 0x03, 0x00, 0x00, 0x00, 0x0A, 0xC5, 0xCD] = .ok (.frameReadHoldingReq 1 0 10) ∧
      decodeFrame .request [0x01, 0x06, 0x00, 0x02, 0x12, 0x34, 0x25, 0x7D] =
        .ok (.frameWriteSingleReq 1 2 (0x12, 0x34)) ∧
      decodeFrame .request [0x01, 0x06, 0x00, 0x02, 0x34, 0x12, 0xBE, 0xC7] =
        .ok (.frameWriteSingleReq 1 2 (0x34, 0x12)) ∧
      decodeFrame .request [0x01, 0x10, 0x00, 0x10, 0x00, 0x02, 0x04, 0x12, 0x34, 0xAB, 0xCD, 0x08, 0xB0] =
        .ok (.frameWriteMultipleReq 1 0x0010 [(0x12, 0x34), (0xAB, 0xCD)]) ∧
      decodeFrame .request [0xF8, 0x42, 0xC2, 0x41] = .ok (.frameResetEnergyReq 0xF8 none) ∧
      decodeFrame .request [0x01, 0x42, 0x00, 0x01, 0x60, 0x0C] = .ok (.frameResetEnergyReq 1 (some 1)) ∧
      decodeFrame .request [0x11, 0x41, 0xDE, 0xAD, 0xCD, 0x11] = .ok (.frameCustomReq 0x11 0x41 [0xDE, 0xAD]) := by
  decide +kernel

/-- Frames of V-VAL-5, V-EXT-1; V-VAL-6 has a wrong CRC. -/
theorem test_decode_responses :
    decodeFrame .response [0xF8, 0x84, 0x02, 0x12, 0xF0] = .ok (.frameExceptionRsp 0xF8 4 2) ∧
      decodeFrame .response [0xF8, 0x04, 0x04, 0x00, 0x0A, 0xFF, 0xF6, 0x73, 0x3F] =
        .ok (.frameReadRsp 0xF8 4 [0x00, 0x0A, 0xFF, 0xF6]) ∧
      decodeFrame .response [0xF8, 0x84, 0x02, 0x12, 0xF1] = .error .frameCrc := by decide +kernel

/-- The words of the opcode table the host asks about (log 6). -/
theorem test_table_words :
    decodeTableWord 32 0x00000310 = some .encReadHolding ∧ decodeTableWord 32 0x00000022 = some .txSend ∧
      decodeTableWord 8 0x03 = some (.frameReadHoldingReq 0 0 0) ∧
      decodeTableWord 8 0x10 = some (.frameWriteMultipleReq 0 0 []) ∧
      decodeTableWord 8 0x42 = some (.frameResetEnergyReq 0 none) ∧
      decodeTableWord 8 0x80 = some (.frameExceptionRsp 0 0 0) ∧
      decodeTableWord 8 0x00 = some (.frameReadRsp 0 0 []) ∧ decodeTableWord 0 0 = some (.frameCustomReq 0 0 []) := by
  decide +kernel

/-! ## A small state -/

/-- The parameters of the vectors, with a line and a post-write delay of 2. -/
def params : Params :=
  { dePresent := true, excEarly := true, settle := 1, postTx := 2, txbCap := 256, rxbCap := 256, xbCap := 252,
    winCap := 123, base := 0 }

/-- The reply of Scenario A. -/
def reply : List Byte := [0xF8, 0x04, 0x02, 0x08, 0x98, 0x23, 0x4E]

/-- Bytes arriving one per tick. -/
def arriving (t : Nat) : List Byte → List RxEntry
  | [] => []
  | b :: bs => ⟨b, t⟩ :: arriving (t + 1) bs

/-- After reset, with a session configured (SLAVE F8, TIMEOUT 1000, IDLE 10) and every draw 0. -/
def ready : State :=
  { State.resetOf params [] with
    slave := some 0xF8, timeout := some 1000, idle := some 10, draws := List.replicate 16 0 }

/-- `ready` with `n` bytes in the transmit buffer's first elements. -/
def withTx (F : List Byte) : State := (ready.storeBytes .txb 0 F).setTxlen F.length

/-- `ready` with a response in the receive buffer. -/
def withRx (F : List Byte) : State := (ready.storeBytes .rxb 0 F).setRxlen F.length

/-- `ready` in Transmit. -/
def sending (F : List Byte) : State := { withTx F with de := true, dir := .transmit }

/-- What is seen of the next state. -/
def seen {α : Type} (o : Host.Outcome State Fault Refusal) (f : State → α) : Option α :=
  match o with
  | .next t => some (f t)
  | _ => none

/-- Why the machine stopped. -/
def stopped (o : Host.Outcome State Fault Refusal) : Option Fault :=
  match o with
  | .fault f => some f
  | _ => none

theorem test_reset_memory : Memory.wf State.reset.mem = true ∧ params.wf := by decide

/-! ## Single steps on the spec's vectors -/

/-- V-CRC-1, 5, 6. -/
theorem test_crc16 :
    crc16 [] = 0xFFFF ∧ crc16 [0x31, 0x32, 0x33, 0x34, 0x35, 0x36, 0x37, 0x38, 0x39] = 0x4B37 ∧
      crc16 [0xF8, 0x04, 0x00, 0x00, 0x00, 0x01] = 0xA325 := by decide +kernel

/-- V-CRC-10. -/
theorem test_crcGen_append :
    seen (exec (.crcGen true) { withTx [0xF8, 0x04, 0x00, 0x00, 0x00, 0x01] with arg0 := 6 })
      (fun t => (t.res, t.crc, t.txlen, t.bytes .txb 8)) =
    some (.ok, 0xA325, 8, some [0xF8, 0x04, 0x00, 0x00, 0x00, 0x01, 0x25, 0xA3]) := by decide +kernel

/-- V-CRC-14, V-CRC-21. -/
theorem test_crcGen_stops :
    seen (exec (.crcGen false) { ready with arg0 := 257 }) (fun t => (t.res, t.crc)) =
      some (.invalidArgument, 0xFFFF) ∧
    stopped (exec (.crcGen false) { ready with arg0 := 1 }) = some .unwrittenRead := by decide +kernel

/-- V-CRC-16. -/
theorem test_crcVerify_tx :
    seen (exec (.crcVerify .txb)
      { withTx [0xF8, 0x04, 0x00, 0x00, 0x00, 0x01, 0x25, 0xA3] with arg0 := 8 }) (fun t => (t.res, t.crc)) =
    some (.ok, 0xA325) := by decide +kernel

/-- V-CRC-17. -/
theorem test_crcVerify_rx :
    seen (exec (.crcVerify .rxb) ready) (fun t => (t.res, t.crc)) = some (.crc, 0xFFFF) := by decide +kernel

/-- V-ENC-2, 1. -/
theorem test_encRead :
    seen (exec .encReadHolding { ready with slave := some 1, arg1 := 10 }) (fun t => (t.crc, t.txlen, t.frame)) =
      some (0xCDC5, 8, some [0x01, 0x03, 0x00, 0x00, 0x00, 0x0A, 0xC5, 0xCD]) ∧
    seen (exec .encReadInput { ready with arg1 := 1 }) (fun t => (t.crc, t.txlen, t.frame)) =
      some (0xA325, 8, some [0xF8, 0x04, 0x00, 0x00, 0x00, 0x01, 0x25, 0xA3]) := by decide +kernel

/-- V-ENC-9. -/
theorem test_encWriteSingle_lowFirst :
    seen (exec (.encWriteSingle .lowFirst) { ready with slave := some 1, arg0 := 2, arg1 := 0x1234 }) State.frame =
      some (some [0x01, 0x06, 0x00, 0x02, 0x34, 0x12, 0xBE, 0xC7]) := by decide +kernel

/-- V-ENC-11 and V-ENC-12. -/
theorem test_encWriteMultiple :
    let s := { ready.storeWords .win [0x1234, 0xABCD] with slave := some 1, arg0 := 0x10, arg1 := 2 }
    seen (exec (.encWriteMultiple .highFirst) s) State.frame =
      some (some [0x01, 0x10, 0x00, 0x10, 0x00, 0x02, 0x04, 0x12, 0x34, 0xAB, 0xCD, 0x08, 0xB0]) ∧
    seen (exec (.encWriteMultiple .lowFirst) s) State.frame =
      some (some [0x01, 0x10, 0x00, 0x10, 0x00, 0x02, 0x04, 0x34, 0x12, 0xCD, 0xAB, 0x49, 0xB9]) := by
  decide +kernel

/-- V-ENC-20. -/
theorem test_encResetEnergy_phase :
    seen (exec (.encResetEnergy .phase) { ready with slave := some 1, arg0 := 0xAB01 }) State.frame =
      some (some [0x01, 0x42, 0x00, 0x01, 0x60, 0x0C]) := by decide +kernel

/-- V-ENC-22, V-ENC-25. -/
theorem test_encCustom :
    seen (exec (.encCustom 0x41) { ready.storeBytes .xb 0 [0xDE, 0xAD] with slave := some 0x11, arg1 := 2 })
      State.frame = some (some [0x11, 0x41, 0xDE, 0xAD, 0xCD, 0x11]) ∧
    seen (exec (.encCustom 0x41) { ready with arg1 := 253 }) (fun t => (t.res, t.txlen)) =
      some (.invalidArgument, 0) := by decide +kernel

/-- V-DIR-1. -/
theorem test_dirTx :
    seen (exec .dirTx { ready with now := 100 }) (fun t => (t.de, t.dir, t.now, t.statusWord)) =
      some (true, .transmit, 101, 0x00060000) := by decide +kernel

/-- V-DIR-3. -/
theorem test_dirRx :
    seen (exec .dirRx { sending [] with now := 102 }) (fun t => (t.de, t.dir, t.now, t.statusWord)) =
      some (false, .receive, 103, 0) := by decide +kernel

/-- V-DIR-6 with a line, in the time of program P1 (flush 8, post 2). -/
theorem test_txSend :
    seen (exec .txSend { sending [0xF8, 0x42] with now := 1, draws := [8] }) (fun t => (t.res, t.txq, t.now)) =
      some (.ok, [⟨0xF8, 1, true⟩, ⟨0x42, 1, true⟩], 11) := by decide +kernel

/-- V-DIR-5. -/
theorem test_txSend_misdirected :
    seen (exec .txSend (withTx [0xF8, 0x42])) (fun t => (t.res, t.txq, t.now)) = some (.direction, [], 0) := by
  decide +kernel

/-- V-DIR-8. -/
theorem test_rxDiscard :
    seen (exec .rxDiscard { ready with rxq := [⟨0x55, 3⟩, ⟨0xF8, 4⟩, ⟨0x00, 40⟩], now := 10 }) State.rxq =
      some [⟨0x00, 40⟩] := by decide +kernel

/-- V-RD-1. -/
theorem test_rxRead :
    seen (exec .rxRead { ready with rxq := arriving 50 reply, now := 20, arg0 := 7 })
      (fun t => (t.res, t.response, t.now, t.rxq)) = some (.ok, some reply, 66, []) := by decide +kernel

/-- V-RD-7: a garbage byte equal to the address starts the frame. V-RD-14: a gap of `IDLE` ends it. -/
theorem test_rxRead_boundaries :
    seen (exec .rxRead { ready with rxq := arriving 30 ([0x00, 0xF8, 0xAA] ++ reply), now := 20, arg0 := 7 })
      (fun t => (t.rxlen, t.response, t.now)) = some (9, some ([0xF8, 0xAA] ++ reply), 49) ∧
    seen (exec .rxRead
      { ready with rxq := arriving 30 [0xF8, 0x04, 0x02] ++ arriving 42 [0x08, 0x98], now := 20, arg0 := 3 })
      (fun t => (t.response, t.now, t.rxq)) =
        some (some [0xF8, 0x04, 0x02], 42, [⟨0x08, 42⟩, ⟨0x98, 43⟩]) := by decide +kernel

/-- V-VAL-8. -/
theorem test_decValidate :
    seen (exec .decValidate (withRx reply)) (fun t => (t.valid, t.crc, t.statusWord)) =
      some (true, 0x4E23, 0x00010000) := by decide +kernel

/-- V-VAL-5. -/
theorem test_decValidate_exception :
    seen (exec .decValidate (withRx [0xF8, 0x84, 0x02, 0x12, 0xF0])) (fun t => (t.crc, t.statusWord)) =
      some (0xF012, 0x00000206) := by decide +kernel

/-- V-EXT-5: an odd byte count drops its last byte. -/
theorem test_decExtract :
    seen (exec .decExtract { withRx [0xF8, 0x04, 0x03, 0x00, 0x0A, 0xFF, 0xA2, 0xC7] with valid := true, arg0 := 2 })
      (fun t => (t.res, t.regcnt, t.words .rout 1)) = some (.ok, 1, some [0x000A]) := by decide +kernel

/-- V-EXT-6: the declared payload would run into the CRC. -/
theorem test_decExtract_short :
    seen (exec .decExtract
      { withRx [0xF8, 0x04, 0x06, 0x00, 0x0A, 0xFF, 0xF6, 0x0A, 0xFF] with valid := true, arg0 := 3 })
      (fun t => (t.res, t.regcnt, t.valid)) = some (.tooShort, 0, true) := by decide +kernel

/-- The frames of V-ENC-2, 1, 8, 11 on the wire reach the receiver byte for byte (log 4). -/
theorem test_request_frames :
    [Instr.frameReadHoldingReq 1 0 10, .frameReadInputReq 0xF8 0 1, .frameWriteSingleReq 1 2 (0x12, 0x34),
      .frameWriteMultipleReq 1 0x10 [(0x12, 0x34), (0xAB, 0xCD)]].map
        (fun i => seen (exec i ready) (fun t => t.rxq.map RxEntry.byte)) =
      [some [0x01, 0x03, 0x00, 0x00, 0x00, 0x0A, 0xC5, 0xCD], some [0xF8, 0x04, 0x00, 0x00, 0x00, 0x01, 0x25, 0xA3],
        some [0x01, 0x06, 0x00, 0x02, 0x12, 0x34, 0x25, 0x7D],
        some [0x01, 0x10, 0x00, 0x10, 0x00, 0x02, 0x04, 0x12, 0x34, 0xAB, 0xCD, 0x08, 0xB0]] := by decide +kernel

/-- The frames of V-ENC-17, 22, V-VAL-5, V-VAL-8 on the wire (log 4). -/
theorem test_other_frames :
    [Instr.frameResetEnergyReq 0xF8 none, .frameCustomReq 0x11 0x41 [0xDE, 0xAD], .frameExceptionRsp 0xF8 4 2,
      .frameReadRsp 0xF8 4 [0x08, 0x98]].map (fun i => seen (exec i ready) (fun t => t.rxq.map RxEntry.byte)) =
      [some [0xF8, 0x42, 0xC2, 0x41], some [0x11, 0x41, 0xDE, 0xAD, 0xCD, 0x11], some [0xF8, 0x84, 0x02, 0x12, 0xF0],
        some reply] := by decide +kernel

/-- V-MEM-1 to V-MEM-4. -/
theorem test_host_access :
    let ask := fun (l : List Input) => step { ready with inputs := l }
    seen (ask [.hostWrite .w32 0x0000 0x00000410]) State.cmd = some 0x00000410 ∧
      seen (ask [.hostWrite .w32 0x0004 0xFFFFFFFF]) (fun t => decide (t = ready)) = some true ∧
      seen (ask [.hostWrite .w32 0x0014 0x12345678]) State.arg0 = some 0x5678 ∧
      seen (ask [.hostRead .w32 0x002C]) State.busLog = some [⟨0x2C, 3⟩] := by decide +kernel

/-- V-MEM-5 to V-MEM-10. -/
theorem test_host_faults :
    [Input.hostRead .w32 0x0030, .hostRead .w8 0x0004, .hostRead .w32 0x0402, .hostRead .w32 0x0FF0,
      .hostRead .w32 0x1800, .hostRead .w32 0x0800, .hostRead .w32 0x0008].map
        (fun i => stopped (step { State.resetOf params [] with inputs := [i] })) =
      [some .busError, some .busError, some .busError, some .busError, some .busError, some .unwrittenRead,
        some .unwrittenRead] := by decide +kernel

/-- A host write of an opcode-table word runs that command, and no other input. -/
theorem test_withFetchWord :
    (ready.withFetchWord 32 0x00000020).inputs = [.hostWrite .w32 0 0x00000020] ∧
      seen (step (ready.withFetchWord 32 0x00000020)) State.dir = some .transmit ∧
      seen (step (ready.withFetchWord 8 0x42)) (fun t => t.rxq.map RxEntry.byte) =
        some (sealed [0x00, 0x42]) := by decide +kernel

/-! ## Witnesses: a state and operands that meet each statement's hypotheses, clause by clause -/

theorem witness_DecodeOfEncode :
    (Instr.frameWriteMultipleReq 1 0 (List.replicate 127 (0, 0))).wf = true ∧
      (Instr.frameCustomReq 0x11 0x41 (List.replicate 252 0)).wf = true ∧
      (Instr.frameReadRsp 1 3 (List.replicate 255 0)).wf = true ∧ Instr.rxRead.wf = true := by decide +kernel

theorem witness_EncodeOfDecode :
    decode (.command 0x0000FF13#32) = .ok (.encCustom 0xFF) ∧
      decode (.frame .response (sealed [0xF8, 0x84, 0x02])) = .ok (.frameExceptionRsp 0xF8 4 2) := by decide +kernel

/-- The start state of the step statements: SLAVE set, and the host is about to do `l`. -/
def before (l : List Input) : State := { ready with inputs := l }

theorem witness_StepRunsTheCommandWritten :
    (before [.hostWrite .w32 0 0x20]).inputs = [.hostWrite .w32 (before []).params.base 0x20] ∧
      decode (.command 0x20) = .ok .dirTx := by decide

theorem witness_StepRunsTheFrameOnTheWire :
    (before [.line .request (sealed [0x01, 0x42])]).inputs = [.line .request (sealed [0x01, 0x42])] ∧
      decode (.frame .request (sealed [0x01, 0x42])) = .ok (.frameResetEnergyReq 1 none) ∧
      (before [.line .response [0x55]]).inputs = [.line .response [0x55]] ∧
      decode (.frame .response [0x55]) = .error .frameTooShort := by decide +kernel

/-- One word for each of R75's conditions, and a legal one. -/
theorem witness_IllegalWordsOnlyReport :
    IllegalWord 0x00000000#32 ∧ IllegalWord 0x80000023#32 ∧ IllegalWord 0x00000100#32 ∧ IllegalWord 0x00000510#32 ∧
      IllegalWord 0x00010013#32 ∧ ¬ IllegalWord 0x0000FF13#32 ∧
      (before [.hostWrite .w32 0 0]).inputs = [.hostWrite .w32 (before []).params.base 0] := by
  refine ⟨?_, ?_, ?_, ?_, ?_, ?_, rfl⟩ <;> simp only [IllegalWord] <;> decide

theorem witness_WaitingOnlyTakesTime :
    (before []).inputs = [] ∧ (before [.hostTime 3]).inputs = [.hostTime 3] := by decide

/-- The last mapped element of `WIN`, the first unmapped one, and a write. -/
theorem witness_BusErrors :
    params.wf ∧ goodAccess params .w32 (0x1000 + 4 * 122) ∧ ¬ goodAccess params .w32 (0x1000 + 4 * 123) ∧
      (before [.hostRead .w32 0x1000]).inputs = [.hostRead .w32 0x1000] ∧
      (before [.hostWrite .w8 4 0]).inputs = [.hostWrite .w8 4 0] ∧
      (before [.hostRead .other 4]).inputs = [.hostRead .other 4] ∧ ¬ goodAccess params .other 4 := by
  simp only [goodAccess, mapped]
  decide

theorem witness_HostReadsHaveNoSideEffect :
    (before [.hostRead .w32 4]).inputs = [.hostRead .w32 4] ∧ ∃ t, step (before [.hostRead .w32 4]) = .next t :=
  ⟨rfl, _, rfl⟩

theorem witness_StatusAndCaps :
    (before [.hostRead .w32 4]).inputs = [.hostRead .w32 ((before []).params.base + 0x0004)] ∧
      (before [.hostRead .w32 0x2C]).inputs = [.hostRead .w32 ((before []).params.base + 0x002C)] := by decide

/-- Registers with a value and without, and lengths at the top of their ranges. -/
theorem witness_RegistersReadAsTheyHold :
    ready.slave = some 0xF8 ∧ ready.timeout = some 1000 ∧ ready.idle = some 10 ∧
      (State.resetOf params []).slave = none ∧ (State.resetOf params []).timeout = none ∧
      (State.resetOf params []).idle = none ∧ (ready.setTxlen 256).txlen < 512 ∧ (ready.setRxlen 256).rxlen < 512 ∧
      (ready.setRegcnt 127).regcnt < 256 := by decide

theorem witness_HostWritesStoreTheRegister :
    ∃ off, off = 0x0008 ∧ seen (step (before [.hostWrite .w32 off 0x101])) State.slave = some (some 1) :=
  ⟨_, rfl, by decide +kernel⟩

theorem witness_WritesToReadOnlyState :
    ready.params.wf ∧ 255 < ready.params.rxbCap ∧ 126 < 127 := by decide

/-- The last element of each writable buffer. -/
theorem witness_HostWritesStoreTheElement :
    ready.params.wf ∧ 255 < Buf.txb.cap ready.params ∧ 251 < Buf.xb.cap ready.params ∧ 122 < ready.params.winCap := by
  decide

/-- The last element of each buffer, without a value and, for one of each width, with one. -/
theorem witness_HostReadReturnsTheElementOrFaults :
    ready.params.wf ∧ 255 < Buf.txb.cap ready.params ∧ ready.byte? .txb 255 = none ∧
      255 < Buf.rxb.cap ready.params ∧ ready.byte? .rxb 255 = none ∧
      (ready.storeBytes .rxb 255 [0xA5]).byte? .rxb 255 = some 0xA5 ∧
      251 < Buf.xb.cap ready.params ∧ ready.byte? .xb 251 = none ∧
      122 < Buf.win.cap ready.params ∧ ready.word? .win 122 = none ∧
      126 < Buf.rout.cap ready.params ∧ ready.word? .rout 126 = none ∧
      (ready.storeWords .rout (List.replicate 127 0x0898)).word? .rout 126 = some 0x0898 := by decide +kernel

theorem witness_CrcRoundTrip :
    (7 : Nat) < 8 ∧ ([0xF8, 0x42] ++ crc16le [0xF8, 0x42])[3]? = some (0x41#8) ∧
      (([] : List Byte) ++ crc16le [])[0]? = some (0xFF#8) := by decide +kernel

theorem witness_CrcResidue : 2 ≤ [(0xFF#8), 0xFF#8].length := by decide

theorem witness_TrailingZero : verify [0xFF#8, 0xFF#8] = true ∧ verify reply = true := by decide +kernel

/-- Too long by one; no room for the CRC by one; just room; an element that holds no value; a data length. -/
theorem witness_CrcGen :
    params.txbCap < ({ ready with arg0 := 257 } : State).arg0.toNat ∧
      params.txbCap < ({ ready with arg0 := 255 } : State).arg0.toNat + 2 ∧
      ({ ready with arg0 := 254 } : State).arg0.toNat + 2 ≤ params.txbCap ∧ ready.bytes .txb 254 = none ∧
      (withTx reply).bytes .txb 7 = some reply := by decide +kernel

theorem witness_CrcVerify :
    params.txbCap < ({ ready with arg0 := 257 } : State).arg0.toNat ∧ ready.bytes .txb 1 = none ∧
      ready.bytes .rxb ready.rxlen = some [] ∧ (withTx [0x12]).bytes .txb 1 = some [0x12] ∧
      (withRx reply).bytes .rxb 7 = some reply := by decide +kernel

/-- For EncRead, EncWriteSingle and EncResetEnergy (and the `slave` hypotheses of the two below): SLAVE with no value,
and with one. -/
theorem witness_EncReadAndWriteSingle :
    (State.resetOf params []).slave = none ∧ ready.slave = some 0xF8 := by decide

/-- 123 values fit and 124 do not (V-ENC-14, V-ENC-15); values that hold no value, and that do. -/
theorem witness_EncWriteMultiple :
    (123 ≤ params.winCap ∧ 2 * 123 ≤ 255 ∧ 9 + 2 * 123 ≤ params.txbCap) ∧ ¬ 124 ≤ params.winCap ∧
      ready.words .win 1 = none ∧ (ready.storeWords .win [0x1234, 0xABCD]).words .win 2 = some [0x1234, 0xABCD] := by
  decide +kernel

/-- 252 extra bytes fit and 253 do not (V-ENC-24, V-ENC-25). -/
theorem witness_EncCustom :
    (252 ≤ params.xbCap ∧ 4 + 252 ≤ params.txbCap) ∧ ¬ 253 ≤ params.xbCap ∧ ready.bytes .xb 1 = none ∧
      (ready.storeBytes .xb 0 [0xDE, 0xAD]).bytes .xb 2 = some [0xDE, 0xAD] := by decide +kernel

theorem witness_EncodedRequests :
    let s := { ready.storeWords .win [0x1234, 0xABCD] with arg1 := 2 }
    s.slave = some 0xF8 ∧ s.words .win 2 = some [0x1234, 0xABCD] ∧
      seen (exec (.encWriteMultiple .highFirst) s) State.res = some .ok ∧
      seen (exec .encReadHolding s) State.res = some .ok ∧ seen (exec .encReadInput s) State.res = some .ok ∧
      seen (exec (.encWriteSingle .highFirst) s) State.res = some .ok ∧
      seen (exec (.encResetEnergy .bare) s) State.res = some .ok ∧
      seen (exec (.encResetEnergy .phase) s) State.res = some .ok := by decide +kernel

/-- For DirTx and DirRx: a line, and none. -/
theorem witness_Dir :
    ready.params.dePresent = true ∧
      (State.resetOf { params with dePresent := false } []).params.dePresent = false := by decide

theorem witness_TxSend :
    ¬ ready.directed .transmit ∧ (sending reply).directed .transmit ∧ (sending []).directed .transmit ∧
      (sending reply).bytes .txb (sending reply).txlen = some reply ∧ (sending reply).DirectorInv ∧
      ((sending []).setTxlen 1).bytes .txb 1 = none := by
  simp only [State.directed, State.DirectorInv]
  decide +kernel

/-- V-DIR-8, with a byte that arrives at the very tick. -/
theorem witness_RxDiscard :
    let old : List RxEntry := [⟨0x55, 3⟩, ⟨0xF8, 10⟩]
    let rest : List RxEntry := [⟨0x00, 11⟩]
    let s := { ready with rxq := old ++ rest, now := 10 }
    s.rxq = old ++ rest ∧ (∀ e ∈ old, e.tick ≤ s.now) ∧ (∀ e ∈ rest.head?, s.now < e.tick) := by decide

/-- The boundary of `P_RXB_CAP`, a missing configuration register, and a read that succeeds and one that fails. -/
theorem witness_RxRead :
    ready.params.wf ∧ ¬ (sending []).directed .receive ∧ ready.directed .receive ∧
      params.rxbCap < ({ ready with arg0 := 257 } : State).arg0.toNat ∧
      ({ ready with arg0 := 256 } : State).arg0.toNat ≤ params.rxbCap ∧ (State.resetOf params []).timeout = none ∧
      readResponse params 0xF8 7 1000 10 20 (arriving 50 reply) = (.ok reply, 66, []) ∧
      readResponse params 0xF8 7 100 10 20 [] = (.noResponse, 120, []) := by
  simp only [State.directed]
  decide +kernel

theorem witness_ReaderReturnsFromTheFirstMatch :
    1 ≤ params.rxbCap ∧
      readResponse params 0xF8 7 1000 10 20 (arriving 30 ([0x00, 0x55, 0xAA] ++ reply)) = (.ok reply, 49, []) := by
  decide +kernel

/-- Byte 1 with bit 7 set, with it clear, and no byte 1. -/
theorem witness_LengthCondition :
    [0xF8#8, 0x84#8][1]? = some 0x84#8 ∧ 0x84#8 &&& 0x80#8 ≠ 0#8 ∧ [0xF8#8, 0x7F#8][1]? = some 0x7F#8 ∧
      0x7F#8 &&& 0x80#8 = 0#8 ∧ [0xF8#8].length < 2 := by decide

/-- Every way to fail: V-RD-3, V-RD-4, V-RD-5, V-RD-8, V-RD-9. -/
theorem witness_ReaderFailures :
    readResponse params 0xF8 7 100 10 20 [] = (.noResponse, 120, []) ∧
      readResponse params 0xF8 7 100 10 20 (arriving 30 [0x55, 0xAA, 0x01]) = (.addressNeverSeen, 120, []) ∧
      readResponse params 0xF8 7 100 10 20 (arriving 30 [0xF8, 0x04, 0x02, 0x08]) = (.truncated, 120, []) ∧
      (readResponse params 0xF8 7 100 10 20 (arriving 30 (reply ++ List.replicate 100 0))).1 = .unterminated ∧
      1 ≤ ({ params with rxbCap := 8 } : Params).rxbCap ∧
      readResponse { params with rxbCap := 8 } 0xF8 7 1000 10 20 (arriving 30 (reply ++ [0x01, 0x02, 0x03])) =
        (.overflow, 38, [⟨0x03, 39⟩]) ∧
      readResponse params 0xF8 7 0 10 20 (arriving 10 [0xF8]) = (.noResponse, 20, arriving 10 [0xF8]) ∧
      readResponse params 0xF8 7 1 10 20 [⟨0xF8, 21⟩] = (.noResponse, 21, [⟨0xF8, 21⟩]) := by decide +kernel

/-- V-RD-6 with a byte that arrives at the completing tick (V-RD-19), and the timeout at its least (V-RD-12). -/
theorem witness_Resynchronisation :
    let g := arriving 30 [0x00, 0x55, 0xAA]
    let f := arriving 33 reply
    let rest : List RxEntry := [⟨0x00, 49⟩]
    let s := { ready with rxq := g ++ f ++ rest, now := 20, arg0 := 7, timeout := some 29 }
    s.slave = some 0xF8 ∧ s.idle = some 10 ∧ s.directed .receive ∧ s.arg0.toNat ≤ s.params.rxbCap ∧
      f.length ≤ s.params.rxbCap ∧ s.params.wf ∧ s.QueueInv ∧ (∀ e ∈ g, e.byte ≠ 0xF8) ∧
      f.head?.map RxEntry.byte = some 0xF8 ∧ f.getLast?.map RxEntry.tick = some 39 ∧
      lengthNeeded s.params.excEarly (f.map RxEntry.byte) s.arg0.toNat ≤ f.length ∧
      (∀ i, i < f.length → ∀ x ∈ f[i]?, ∀ y ∈ f[i + 1]?, y.tick < x.tick + 10) ∧
      (∀ e ∈ rest.head?, max s.now 39 + 10 ≤ e.tick) ∧ max s.now 39 + 10 ≤ s.now + 29 := by
  simp only [State.directed, State.QueueInv]
  decide +kernel

/-- A response for each verdict, the first within `RXB` as `witness_StepsKeepLengthsCoveringValues` shows: V-VAL-8, 4, 6, 5. -/
theorem witness_DecValidate :
    (withRx reply).bytes .rxb (withRx reply).rxlen = some reply ∧ validate reply = .ok ∧
      validate [0xF8, 0x84] = .tooShort ∧ validate [0xF8, 0x84, 0x02, 0x12, 0xF1] = .crcError ∧
      validate [0xF8, 0x84, 0x02, 0x12, 0xF0] = .modbusException 2 := by decide +kernel

theorem witness_ValidatingTwice : ∃ t, exec .decValidate (withRx []) = .next t := ⟨_, rfl⟩

/-- Not validated; shorter than 3; a payload that ends exactly before the CRC, and one that does not (V-EXT-6). -/
theorem witness_DecExtract :
    ready.valid = false ∧ (withRx [0xF8, 0x04]).rxlen < 3 ∧ 3 ≤ (withRx reply).rxlen ∧
      (withRx reply).bytes .rxb (withRx reply).rxlen = some reply ∧
      3 + 2 * min 1 ((byteAt reply 2).toNat / 2) + 2 ≤ (withRx reply).rxlen ∧
      9 < 3 + 2 * min 3 ((byteAt [0xF8, 0x04, 0x06, 0x00, 0x0A, 0xFF, 0xF6, 0x0A, 0xFF] 2).toNat / 2) + 2 := by
  decide +kernel

/-- For ExceptionReplyIsReported and ReadReplyDeliversItsRegisters. -/
theorem witness_Replies :
    (withRx [0xF8, 0x84, 0x02, 0x12, 0xF0]).bytes .rxb 5 = some (exceptionFrame 0xF8 4 2) ∧
      [(0x0898#16)].length ≤ 127 ∧ (withRx reply).bytes .rxb 7 = some (readResponseFrame 0xF8 4 (registerBytes [0x0898])) := by
  decide +kernel

theorem witness_WireFrames : (List.replicate 127 ((0#8), (0#8))).length ≤ 127 := by decide +kernel

/-- Instructions that answer a next state, for NoInstructionWritesHostRegisters, OnlyDirectionCommandsTurnTheDirector,
ValidIsSetOnlyByValidation, StreamsChangeOnlyThroughTheirCommands, EachCommandReportsItsOwnCodes and
TimeNeverRunsBackwards. -/
theorem witness_WholeMachineRules :
    (∃ t, exec .encReadInput ready = .next t) ∧ (∃ t, exec .txSend ready = .next t) ∧
      (∃ t, exec .rxRead (sending []) = .next t) ∧ (∃ t, exec .rxDiscard ready = .next t) ∧
      (∃ t, exec .decValidate ready = .next t) ∧ (∃ t, exec .dirTx ready = .next t) ∧
      (∃ t, exec (.frameExceptionRsp 1 3 2) ready = .next t) ∧ encode .txSend = .command 0x22 ∧
      (∃ t, step (before [.hostTime 3]) = .next t) :=
  ⟨⟨_, rfl⟩, ⟨_, rfl⟩, ⟨_, rfl⟩, ⟨_, rfl⟩, ⟨_, rfl⟩, ⟨_, rfl⟩, ⟨_, rfl⟩, by decide, ⟨_, rfl⟩⟩

theorem witness_ResetMeetsTheInvariants :
    params.wf ∧ (arriving 0 reply).Pairwise (fun x y => x.tick ≤ y.tick) := by decide

/-- A validated response in `RXB` and a request in `TXB`, the director in Transmit, a byte sent, and DEC_EXTRACT about
to be commanded. -/
def busy : State :=
  { (sending reply).storeBytes .rxb 0 reply with
    rxlen := 7, valid := true, txq := [⟨0xF8, 0, true⟩], rxq := arriving 50 reply,
    inputs := [.hostWrite .w32 0 0x32] }

/-- The step of every StepsKeep statement below. -/
theorem witness_StepsKeep_step : ∃ t, step busy = .next t := ⟨_, rfl⟩

theorem witness_StepsKeepMemoryCanonical : ready.params.wf ∧ ready.MemoryInv :=
  ⟨by decide, rfl, fun _ h => absurd h (by simp [ready, State.resetOf])⟩

theorem witness_StepsKeepLengthsCoveringValues : busy.params.wf ∧ busy.FrameInv ∧ busy.ResponseInv ∧ busy.OutputInv :=
  ⟨by decide, ⟨by decide, reply, by decide +kernel⟩,
    ⟨by decide, ⟨reply, by decide +kernel⟩, fun i h h' =>
      (by decide +kernel : ∀ i, i < 256 → 7 ≤ i → busy.byte? .rxb i = none) i h' h⟩,
    ⟨by decide, [], rfl⟩⟩

theorem witness_StepsKeepTrustInValidation : busy.params.wf ∧ busy.ResponseInv ∧ busy.valid = true ∧ busy.TrustInv :=
  ⟨by decide, witness_StepsKeepLengthsCoveringValues.2.2.1, rfl,
    fun _ => ⟨by decide, reply, by decide +kernel, by decide +kernel⟩⟩

theorem witness_StepsKeepTheDirectorInvariant : busy.DirectorInv ∧ busy.TransmitInv := by
  simp only [State.DirectorInv, State.TransmitInv]
  decide +kernel

theorem witness_StepsKeepQueueOrderAndExceptionCode :
    busy.QueueInv ∧ busy.ExcInv ∧
      ({ busy with exc := 2, res := .modbusException } : State).ExcInv := by
  simp only [State.QueueInv, State.ExcInv]
  decide +kernel

/-- An extraction from a validated response within `RXB`. -/
theorem witness_ExtractingTwice : busy.params.wf ∧ busy.ResponseInv ∧ ∃ t, exec .decExtract busy = .next t :=
  ⟨by decide, witness_StepsKeepLengthsCoveringValues.2.2.1, _, rfl⟩

/-- The last element of a buffer, and a command word that encodes nothing. -/
theorem witness_ResetLeavesTheTable_EachCommand :
    params.wf ∧ 251 < Buf.xb.cap params ∧ decodeCommand 0 = .error .unknownOpcode := by decide

end Sys2Proof.Tests
end

/-! PROOFS. The scope (00_scope.md): what an input that is fetched comes to run. -/

namespace Sys2Proof.Machine

/-- A fetched word or frame that decodes runs the instruction it decodes to (R70). -/
theorem runFetched_of_decode_ok {f : Fetched} {i : Instr} (h : decode f = .ok i) (s : State) :
    runFetched f s = exec i s := by
  simp only [runFetched, h]

/-- Bytes on the wire that are no frame of the table only arrive (R36). -/
theorem runFetched_frame_of_decode_error {o : Origin} {F : List Byte} {e : DecodeError}
    (h : decode (.frame o F) = .error e) (s : State) :
    runFetched (.frame o F) s = .next (s.deliver F) := by
  simp only [runFetched, h]

/-- A step whose next input is a burst takes the burst and runs it as a frame (R15, R36). -/
theorem step_of_line {s : State} {rest : List Input} {o : Origin} {F : List Byte}
    (h : s.inputs = .line o F :: rest) :
    step s = runFetched (.frame o F) { s with inputs := rest } := by
  simp only [step, h, State.setInputs]

/-- Settles O6: the step is `runFetched` of the burst, by whether the burst decodes. -/
theorem stepRunsTheFrameOnTheWire : Obligations.StepRunsTheFrameOnTheWire := by
  intro s rest o F hin
  constructor
  · intro i hi
    rw [step_of_line hin, runFetched_of_decode_ok hi]
  · intro e he
    refine ⟨State.deliver { s with inputs := rest } F, ?_, State.deliver_delivered F _⟩
    rw [step_of_line hin, runFetched_frame_of_decode_error he]

end Sys2Proof.Machine

/-! PROOFS. The state (10_state.md): what an instruction leaves unchanged, what a step is made of, and the
invariants of time, of the receive queue and of the exception code. -/

namespace Sys2Proof.Machine

variable {s t : State}

/-! ### What an instruction leaves unchanged -/

/-- No instruction writes a parameter, a register the host writes, an input or the log of host reads (R22, R231). -/
theorem Did.frame (h : Did s t) :
    t = { s with res := t.res, exc := t.exc, valid := t.valid, dir := t.dir, de := t.de, crc := t.crc,
                 txlen := t.txlen, rxlen := t.rxlen, regcnt := t.regcnt, mem := t.mem, rxq := t.rxq, txq := t.txq,
                 now := t.now, draws := t.draws, drawCount := t.drawCount } := by
  cases h with
  | turned level d _ => rcases s.turn_cases level d with ⟨-, e⟩ | ⟨-, e⟩ <;> rw [e] <;> rfl
  | read _ _ _ r n q _ => rw [State.endRead_frame]; rfl
  | judged r _ => rw [State.judge_frame]; rfl
  | delivered F =>
    obtain ⟨-, -, -, -, -, e⟩ := State.deliver_delivered F s
    rw [e]
  | _ => rfl

/-- Settles O47: the frame of every instruction holds these fields. -/
theorem noInstructionWritesHostRegisters : Obligations.NoInstructionWritesHostRegisters := by
  intro i s t h
  rw [(exec_did h).frame]
  exact ⟨rfl, rfl, rfl, rfl, rfl, rfl, rfl, rfl, rfl⟩

/-! ### What a step is made of -/

/-- What the host and the passing of time do to the block, an instruction apart (R22, R39, R55). -/
inductive HostChange (s : State) : State → Prop where
  /-- The block waits for the host. -/
  | waited : HostChange s s.waitForHost
  /-- Host time passes. -/
  | passed (n : Nat) : HostChange s (s.wait n)
  /-- The next input is taken. -/
  | took (rest : List Input) : HostChange s (s.setInputs rest)
  /-- A host read has returned a value. -/
  | read (a : Nat) (v : DWord) : HostChange s (s.logRead a v)
  /-- A host write stores a value at what its address names. -/
  | wrote {w : AccessWidth} {a : Nat} {x : Target} (h : target? s.params w a = some x) (v : DWord) :
      HostChange s (s.put x v)

/-- What every host change and every instruction keeps, every step keeps. -/
theorem step_keeps {P : State → Prop} (host : ∀ {u v}, HostChange u v → P u → P v)
    (did : ∀ {u v}, Did u v → P u → P v) (hs : P s) (h : step s = .next t) : P t := by
  have took (rest) : P (s.setInputs rest) := host (.took rest) hs
  have commanded (rest w) : P ((s.setInputs rest).putReg .cmd w) :=
    host (.wrote (target_reg _ .cmd) w) (took rest)
  rcases step_did h with rfl | ⟨n, rest, rfl⟩ | ⟨rest, a, v, rfl⟩ | ⟨rest, w, a, x, v, hx, -, rfl⟩ |
    ⟨rest, w, rfl⟩ | ⟨rest, F, rfl⟩ | ⟨rest, i, hi⟩ | ⟨rest, w, i, hi⟩
  · exact host .waited hs
  · exact host (.passed n) (took rest)
  · exact host (.read a v) (took rest)
  · exact host (.wrote (s := s.setInputs rest) hx v) (took rest)
  · exact did (.reported _) (commanded rest w)
  · exact did (.delivered F) (took rest)
  · exact did (exec_did hi) (took rest)
  · exact did (exec_did hi) (commanded rest w)

/-! ### Time -/

/-- A read ends no earlier than it starts (R162). -/
theorem Reader.le_loop_now (p : Params) (A : Byte) (L I : Nat) :
    ∀ (left now : Nat) (q : List RxEntry) (r : Reader), now ≤ (Reader.loop p A L I left now q r).2.1
  | 0, now, q, r => by rw [Reader.loop]; split <;> exact Nat.le_refl _
  | left + 1, now, q, r => by
    rw [Reader.loop]
    split
    · exact Nat.le_refl _
    · split
      · exact Nat.le_of_succ_le (Reader.le_loop_now p A L I left (now + 1) _ _)
      · exact Nat.le_refl _

theorem HostChange.now_le (h : HostChange s t) : s.now ≤ t.now := by
  cases h <;> simp

theorem Did.now_le (h : Did s t) : s.now ≤ t.now := by
  cases h with
  | turned level d _ => rcases s.turn_cases level d with ⟨-, e⟩ | ⟨-, e⟩ <;> simp [e]
  | sent F _ _ => simp [Nat.add_assoc]
  | read a T I r n q h =>
    rw [State.endRead_frame]
    have := Reader.le_loop_now s.params a s.arg0n I T s.now s.rxq
      { buf := [], matched := false, seen := 0, last := s.now }
    rw [← readResponse, h] at this
    exact this
  | judged r _ => rw [State.judge_frame]; simp
  | _ => simp

/-- Settles O52: no host change and no instruction sets the clock back. -/
theorem timeNeverRunsBackwards : Obligations.TimeNeverRunsBackwards := by
  intro s t h
  exact step_keeps (P := fun u => s.now ≤ u.now) (fun hc hle => hle.trans hc.now_le)
    (fun hd hle => hle.trans hd.now_le) (Nat.le_refl _) h

/-! ### The receive queue and the exception code -/

/-- A read takes the oldest entries of the queue and leaves the rest (R38). -/
theorem readResponse_suffix {p : Params} {A : Byte} {L T I start n : Nat} {q q' : List RxEntry} {r : ReadResult}
    (h : readResponse p A L T I start q = (r, n, q')) : ∃ old, q = old ++ q' := by
  have := Reader.loop_suffix p A L I T start q { buf := [], matched := false, seen := 0, last := start }
  rwa [← readResponse, h] at this

/-- Discarding takes the oldest entries of the queue and leaves the rest (R144). -/
theorem State.discardArrived_suffix (s : State) : ∃ old, s.rxq = old ++ s.discardArrived.rxq :=
  ⟨_, List.takeWhile_append_dropWhile.symm⟩

/-- An instruction takes the oldest entries of the queue, or bytes arrive. -/
theorem Did.rxq_cases (h : Did s t) : (∃ old, s.rxq = old ++ t.rxq) ∨ ∃ F, t = s.deliver F := by
  cases h with
  | delivered F => exact .inr ⟨F, rfl⟩
  | read a T I r n q h =>
    rw [State.endRead_frame]
    exact .inl (readResponse_suffix h)
  | discarded => exact .inl s.discardArrived_suffix
  | turned level d _ =>
    rcases s.turn_cases level d with ⟨-, e⟩ | ⟨-, e⟩ <;> exact .inl ⟨[], by simp [e]⟩
  | judged r _ => rw [State.judge_frame]; exact .inl ⟨[], rfl⟩
  | _ => exact .inl ⟨[], by simp⟩

/-- A byte arrives behind every entry of an ordered queue (R36). -/
theorem State.QueueInv.arrive (h : s.QueueInv) (b : Byte) : (s.arrive b).QueueInv := by
  simp only [State.QueueInv, State.arrive_rxq, List.pairwise_append, List.pairwise_singleton, true_and]
  refine ⟨h, fun x hx y hy => ?_⟩
  obtain rfl := List.mem_singleton.1 hy
  obtain ⟨l, e, hl⟩ := (List.eq_nil_or_concat' s.rxq).resolve_left (List.ne_nil_of_mem hx)
  have hlast : x.tick ≤ e.tick := by
    rw [State.QueueInv, hl, List.pairwise_append] at h
    rw [hl] at hx
    rcases List.mem_append.1 hx with hx | hx
    · exact h.2.2 x hx e (List.mem_singleton_self e)
    · rw [List.mem_singleton.1 hx]
  have := s.last_le_earliestArrival e (by simp [hl])
  exact Nat.le_add_right_of_le (hlast.trans this)

theorem State.QueueInv.deliver (h : s.QueueInv) (F : List Byte) : (s.deliver F).QueueInv := by
  induction F generalizing s with
  | nil => exact h
  | cons b F ih => exact ih (h.arrive b)

theorem Did.queueInv (h : Did s t) (hq : s.QueueInv) : t.QueueInv := by
  rcases h.rxq_cases with ⟨old, e⟩ | ⟨F, rfl⟩
  · rw [State.QueueInv, e, List.pairwise_append] at hq
    exact hq.2.1
  · exact hq.deliver F

/-- DEC_VALIDATE stores an exception code only with ERR_MODBUS_EXCEPTION (R171). -/
theorem State.judge_excInv (s : State) (r : List Byte) (v : Verdict) : (s.judge r v).ExcInv := by
  cases v <;> simp [State.judge, State.ExcInv]

theorem Did.excInv (h : Did s t) (he : s.ExcInv) : t.ExcInv := by
  cases h with
  | delivered F => simpa [State.ExcInv] using he
  | judged r _ => exact State.judge_excInv (s.setValid false) r (validate r)
  | read a T I r n q _ => rw [State.endRead_frame]; exact fun hne => absurd rfl hne
  | _ => exact fun hne => absurd rfl hne

theorem HostChange.queueInv (h : HostChange s t) (hq : s.QueueInv) : t.QueueInv := by
  cases h <;> simpa [State.QueueInv] using hq

theorem HostChange.excInv (h : HostChange s t) (he : s.ExcInv) : t.ExcInv := by
  cases h <;> simpa [State.ExcInv] using he

/-- Settles O59: the queue loses its oldest entries or gains bytes at its end, and every result comes with its code. -/
theorem stepsKeepQueueOrderAndExceptionCode : Obligations.StepsKeepQueueOrderAndExceptionCode := by
  intro s t hq he h
  exact step_keeps (P := fun u => u.QueueInv ∧ u.ExcInv) (fun hc hp => ⟨hc.queueInv hp.1, hc.excInv hp.2⟩)
    (fun hd hp => ⟨hd.queueInv hp.1, hd.excInv hp.2⟩) ⟨hq, he⟩ h

end Sys2Proof.Machine

/-! PROOFS. The state (10_state.md R27, R36, R37): which instructions change `VALID` and the two streams. -/

namespace Sys2Proof.Machine

variable {s t : State}

/-- `VALID` and both streams are as they were (R27, R36, R37). -/
def State.SameTrustAndStreams (s t : State) : Prop := t.valid = s.valid ∧ t.txq = s.txq ∧ t.rxq = s.rxq

theorem State.complete_same (s : State) (c : ResCode) : s.SameTrustAndStreams (s.complete c) := ⟨rfl, rfl, rfl⟩

theorem State.putFrame_same (s : State) (F : List Byte) : s.SameTrustAndStreams (s.putFrame F) := ⟨rfl, rfl, rfl⟩

theorem State.turn_same (s : State) (level : Bool) (d : Director) (c : ResCode) :
    s.SameTrustAndStreams ((s.turn level d).finish c) := by
  rcases s.turn_cases level d with ⟨-, e⟩ | ⟨-, e⟩ <;> rw [e] <;> exact ⟨rfl, rfl, rfl⟩

/-- Every command but RX_READ, RX_DISCARD, TX_SEND and DEC_VALIDATE leaves `VALID` and both streams alone. -/
theorem exec_same {i : Instr} {w : DWord} (hw : encode i = .command w) (h : exec i s = .next t)
    (hread : i ≠ .rxRead) (hdiscard : i ≠ .rxDiscard) (hsend : i ≠ .txSend) (hval : i ≠ .decValidate) :
    s.SameTrustAndStreams t := by
  cases i
  case crcGen ap =>
    rcases execCrcGen_next h with rfl | ⟨data, -, -, ⟨-, rfl⟩ | ⟨-, -, rfl⟩⟩
    · exact s.complete_same _
    · exact (s.setCrc _).complete_same _
    · exact ⟨rfl, rfl, rfl⟩
  case crcVerify src =>
    rcases execCrcVerify_next h with rfl | ⟨F, -, rfl⟩
    · exact s.complete_same _
    · split
      · exact (s.setCrc _).complete_same _
      · exact s.complete_same _
  case encReadHolding => obtain ⟨a, -, rfl⟩ := execEncReadHolding_next h; exact s.putFrame_same _
  case encReadInput => obtain ⟨a, -, rfl⟩ := execEncReadInput_next h; exact s.putFrame_same _
  case encWriteSingle ord => obtain ⟨a, -, rfl⟩ := execEncWriteSingle_next h; exact s.putFrame_same _
  case encResetEnergy form => obtain ⟨a, -, rfl⟩ := execEncResetEnergy_next h; exact s.putFrame_same _
  case encWriteMultiple ord =>
    rcases execEncWriteMultiple_next h with ⟨-, rfl⟩ | ⟨a, V, -, -, -, rfl⟩
    · exact s.complete_same _
    · exact s.putFrame_same _
  case encCustom fc =>
    rcases execEncCustom_next h with ⟨-, rfl⟩ | ⟨a, X, -, -, -, rfl⟩
    · exact s.complete_same _
    · exact s.putFrame_same _
  case dirTx => rw [execDirTx_next h]; exact s.turn_same _ _ _
  case dirRx => rw [execDirRx_next h]; exact s.turn_same _ _ _
  case decExtract =>
    rcases execDecExtract_next h with rfl | rfl | ⟨r, -, -, -, -, rfl⟩
    · exact s.complete_same _
    · exact s.complete_same _
    · exact ⟨rfl, rfl, rfl⟩
  case txSend => exact absurd rfl hsend
  case rxDiscard => exact absurd rfl hdiscard
  case rxRead => exact absurd rfl hread
  case decValidate => exact absurd rfl hval
  all_goals simp [encode] at hw

/-- TX_SEND appends to the transmit log and leaves `VALID` and the receive queue (R37, R143). -/
theorem execTxSend_keeps (h : execTxSend s = .next t) :
    t.valid = s.valid ∧ t.rxq = s.rxq ∧ ∃ new, t.txq = s.txq ++ new := by
  rcases execTxSend_next h with ⟨-, rfl⟩ | ⟨F, -, -, rfl⟩
  · exact ⟨rfl, rfl, [], by simp⟩
  · exact ⟨s.send_valid F, s.send_rxq F, _, s.send_txq F⟩

/-- RX_DISCARD takes the oldest entries of the receive queue and leaves `VALID` and the transmit log (R144). -/
theorem execRxDiscard_keeps (h : execRxDiscard s = .next t) :
    t.valid = s.valid ∧ t.txq = s.txq ∧ ∃ old, s.rxq = old ++ t.rxq := by
  rw [execRxDiscard_next h]
  exact ⟨rfl, rfl, s.discardArrived_suffix⟩

/-- RX_READ clears `VALID`, leaves the transmit log and takes the oldest entries of the receive queue (R165). -/
theorem execRxRead_keeps (h : execRxRead s = .next t) :
    t.valid = false ∧ t.txq = s.txq ∧ ∃ old, s.rxq = old ++ t.rxq := by
  rcases execRxRead_next h with rfl | rfl | ⟨a, T, I, r, n, q, -, -, hr, rfl⟩
  · exact ⟨rfl, rfl, [], rfl⟩
  · exact ⟨rfl, rfl, [], rfl⟩
  · rw [State.endRead_frame]
    exact ⟨rfl, rfl, readResponse_suffix hr⟩

/-- DEC_VALIDATE sets `VALID` exactly with the answer OK and leaves both streams (R171). -/
theorem execDecValidate_keeps (h : execDecValidate s = .next t) :
    (t.valid = true ↔ t.res = .ok) ∧ t.txq = s.txq ∧ t.rxq = s.rxq := by
  obtain ⟨r, -, rfl⟩ := execDecValidate_next h
  cases validate r <;> simp [State.judge]

/-- A frame on the wire leaves `VALID` and the transmit log alone (R36). -/
theorem exec_frame_keeps {i : Instr} {o : Origin} {F : List Byte} (hF : encode i = .frame o F)
    (h : exec i s = .next t) : t.valid = s.valid ∧ t.txq = s.txq := by
  obtain ⟨-, G, -, rfl⟩ := exec_frame_next (by simp [hF]) h
  simp

/-- Settles O49: by the instruction, DEC_VALIDATE and RX_READ apart. -/
theorem validIsSetOnlyByValidation : Obligations.ValidIsSetOnlyByValidation := by
  intro i s t h
  refine ⟨?_, ?_, fun hval hread => ?_⟩
  · rintro rfl
    exact (execDecValidate_keeps h).1
  · rintro rfl
    exact (execRxRead_keeps h).1
  · cases he : encode i with
    | frame o F => exact (exec_frame_keeps he h).1
    | command w =>
      by_cases hsend : i = .txSend
      · subst hsend; exact (execTxSend_keeps h).1
      by_cases hdiscard : i = .rxDiscard
      · subst hdiscard; exact (execRxDiscard_keeps h).1
      exact (exec_same he h hread hdiscard hsend hval).1

/-- Every instruction but TX_SEND leaves the transmit log alone (R37). -/
theorem exec_txq {i : Instr} (h : exec i s = .next t) (hsend : i ≠ .txSend) : t.txq = s.txq := by
  cases he : encode i with
  | frame o F => exact (exec_frame_keeps he h).2
  | command w =>
    by_cases hread : i = .rxRead
    · subst hread; exact (execRxRead_keeps h).2.1
    by_cases hdiscard : i = .rxDiscard
    · subst hdiscard; exact (execRxDiscard_keeps h).2.1
    by_cases hval : i = .decValidate
    · subst hval; exact (execDecValidate_keeps h).2.1
    exact (exec_same he h hread hdiscard hsend hval).2.1

/-- Every command but RX_READ and RX_DISCARD leaves the receive queue alone (R38). -/
theorem exec_rxq {i : Instr} {w : DWord} (he : encode i = .command w) (h : exec i s = .next t)
    (hread : i ≠ .rxRead) (hdiscard : i ≠ .rxDiscard) : t.rxq = s.rxq := by
  by_cases hsend : i = .txSend
  · subst hsend; exact (execTxSend_keeps h).2.1
  by_cases hval : i = .decValidate
  · subst hval; exact (execDecValidate_keeps h).2.2
  exact (exec_same he h hread hdiscard hsend hval).2.2

/-- Settles O50: each stream changes in the commands named only, the transmit log at its end, the receive queue at
its front. -/
theorem streamsChangeOnlyThroughTheirCommands : Obligations.StreamsChangeOnlyThroughTheirCommands := by
  intro i s t h
  refine ⟨?_, exec_txq h, ?_, fun w he hread hdiscard => exec_rxq he h hread hdiscard⟩
  · by_cases hsend : i = .txSend
    · subst hsend; exact (execTxSend_keeps h).2.2
    · exact ⟨[], by rw [exec_txq h hsend, List.append_nil]⟩
  · rintro (rfl | rfl)
    · exact (execRxRead_keeps h).2.2
    · exact (execRxDiscard_keeps h).2.2

end Sys2Proof.Machine

/-! PROOFS. The state (10_state.md R22-R35): what the host starts and what it reads. -/

namespace Sys2Proof.Machine

variable {s t : State}

/-- A host write of a word to `CMD` stores it and runs it (R23). -/
theorem step_of_cmd_write {rest : List Input} {w : DWord}
    (h : s.inputs = .hostWrite .w32 s.params.base w :: rest) :
    step s = runFetched (.command w) { s with inputs := rest, cmd := w } := by
  have hx : target? s.params .w32 s.params.base = some (.reg .cmd) := target_reg s.params .cmd
  simp only [step, h, hostWrite, State.setInputs_params, hx]
  rfl

/-- Settles O5: the step is `runFetched` of the word, which decodes. -/
theorem stepRunsTheCommandWritten : Obligations.StepRunsTheCommandWritten := by
  intro s rest w i hin hi
  rw [step_of_cmd_write hin, runFetched_of_decode_ok hi]

/-- Settles O8: waiting is a draw of ticks, host time is its own. -/
theorem waitingOnlyTakesTime : Obligations.WaitingOnlyTakesTime := by
  intro s
  constructor
  · intro hin
    exact ⟨s.waitForHost, by simp only [step, hin], Nat.le_add_right _ _, rfl⟩
  · intro n rest hin
    simp only [step, hin]
    rfl

/-- Which inputs are still to come is no part of what a register reads as. -/
theorem State.regValue_setInputs (s : State) (rest : List Input) (r : Reg) :
    (s.setInputs rest).regValue r = s.regValue r := by
  cases r <;> rfl

/-- A host read of a register that holds a value returns it (R22). -/
theorem step_of_reg_read {rest : List Input} {r : Reg} {v : DWord} (hv : s.regValue r = some v)
    (h : s.inputs = .hostRead .w32 (s.params.base + r.offset) :: rest) :
    step s = .next { s with inputs := rest, busLog := s.busLog ++ [⟨s.params.base + r.offset, v⟩] } := by
  simp only [step, h, hostRead, State.setInputs_params, target_reg, State.view, State.regValue_setInputs, hv]
  rfl

/-- A host read of a register that holds no value faults (R49). -/
theorem step_of_reg_read_none {rest : List Input} {r : Reg} (hv : s.regValue r = none)
    (h : s.inputs = .hostRead .w32 (s.params.base + r.offset) :: rest) :
    step s = .fault .unwrittenRead := by
  simp only [step, h, hostRead, State.setInputs_params, target_reg, State.view, State.regValue_setInputs, hv]

/-- A word of two bytes under three flags, read field by field. -/
theorem fields_of_append (d t v : Bool) (e c : Byte) :
    let x := (0 : BitVec 13) ++ BitVec.ofBool d ++ BitVec.ofBool t ++ BitVec.ofBool v ++ e ++ c
    x.extractLsb' 0 8 = c ∧ x.extractLsb' 8 8 = e ∧ x.getLsbD 16 = v ∧ x.getLsbD 17 = t ∧ x.getLsbD 18 = d ∧
      x.extractLsb' 19 13 = 0 := by
  refine ⟨?_, ?_, ?_, ?_, ?_, ?_⟩
  · simp only [BitVec.extractLsb'_append_eq_ite]; simp
  · simp only [BitVec.extractLsb'_append_eq_ite]; simp
  · simp only [BitVec.getLsbD_append]; simp
  · simp only [BitVec.getLsbD_append]; simp
  · simp only [BitVec.getLsbD_append]; simp
  · simp only [BitVec.extractLsb'_append_eq_ite]; simp

/-- The fields of `STATUS` (R24). -/
theorem State.statusWord_fields (s : State) :
    s.statusWord.extractLsb' 0 8 = s.res.code ∧ s.statusWord.extractLsb' 8 8 = s.exc ∧
      s.statusWord.getLsbD 16 = s.valid ∧ s.statusWord.getLsbD 17 = decide (s.dir = .transmit) ∧
      s.statusWord.getLsbD 18 = (s.de && s.params.dePresent) ∧ s.statusWord.extractLsb' 19 13 = 0 := by
  have hdir : decide (s.dir = .transmit) = s.dir.bit := by cases s.dir <;> rfl
  rw [hdir]
  exact fields_of_append _ _ _ _ _

/-- The fields of `CAPS` (R35). -/
theorem State.capsWord_fields (s : State) :
    s.capsWord.getLsbD 0 = s.params.dePresent ∧ s.capsWord.getLsbD 1 = s.params.excEarly ∧
      s.capsWord.extractLsb' 2 30 = 0 := by
  have fields (e d : Bool) :
      let x := (0 : BitVec 30) ++ BitVec.ofBool e ++ BitVec.ofBool d
      x.getLsbD 0 = d ∧ x.getLsbD 1 = e ∧ x.extractLsb' 2 30 = 0 := by
    cases e <;> cases d <;> decide
  exact fields _ _

/-- Settles O11: the read returns the word, and each field of it is what R24 and R35 say. -/
theorem statusAndCapsReadAsTheirFields : Obligations.StatusAndCapsReadAsTheirFields := by
  intro s rest
  exact ⟨fun h => ⟨s.statusWord, step_of_reg_read (r := .status) rfl h, s.statusWord_fields⟩,
    fun h => ⟨s.capsWord, step_of_reg_read (r := .caps) rfl h, s.capsWord_fields⟩⟩

/-- A count within a register's bits reads back as itself. -/
theorem setWidth_ofNat_of_lt {k n : Nat} (h : n < 2 ^ k) : (BitVec.ofNat k n).setWidth 32 = BitVec.ofNat 32 n := by
  apply BitVec.eq_of_toNat_eq
  simp [Nat.mod_eq_of_lt h]

/-- Settles O13: each register by its offset. -/
theorem registersReadAsTheyHold : Obligations.RegistersReadAsTheyHold := by
  intro s rest off read faults
  have reads (r : Reg) {v : DWord} (hv : s.regValue r = some v) (hoff : off = r.offset) : read v := by
    subst hoff
    exact step_of_reg_read (r := r) (s := { s with inputs := _ }) (by cases r <;> exact hv) rfl
  have stops (r : Reg) (hv : s.regValue r = none) (hoff : off = r.offset) : faults := by
    subst hoff
    exact step_of_reg_read_none (r := r) (s := { s with inputs := _ }) (by cases r <;> exact hv) rfl
  refine ⟨reads .cmd rfl,
    fun h => ⟨fun a ha => reads .slave (by simp [State.regValue, ha]) h,
      fun ha => stops .slave (by simp [State.regValue, ha]) h⟩,
    fun h => ⟨fun v hv => reads .timeout hv h, fun hv => stops .timeout hv h⟩,
    fun h => ⟨fun v hv => reads .idle hv h, fun hv => stops .idle hv h⟩,
    reads .arg0 rfl, reads .arg1 rfl, reads .crc rfl, ?_, ?_, ?_⟩
  · intro h hn
    exact reads .txlen (by rw [State.regValue, setWidth_ofNat_of_lt hn]) h
  · intro h hn
    exact reads .rxlen (by rw [State.regValue, setWidth_ofNat_of_lt hn]) h
  · intro h hn
    exact reads .regcnt (by rw [State.regValue, setWidth_ofNat_of_lt hn]) h

end Sys2Proof.Machine

/-! PROOFS. The state (10_state.md R34, R40-R44): which buffer an operation can write, so that the length registers
keep covering values and `VALID` stays a reason to trust `RXB`. -/

namespace Sys2Proof.Machine

variable {s t : State}

/-- The window of host addresses a buffer lies in (20_memory.md R52). -/
def Buf.window (b : Buf) (a : Nat) : Prop := b.base ≤ a ∧ a < b.base + 0x400

theorem Buf.not_window_of_window {b c : Buf} (hbc : b ≠ c) {a : Nat} (h : c.window a) : ¬ b.window a := by
  have apart : b.base + 0x400 ≤ c.base ∨ c.base + 0x400 ≤ b.base := by
    cases b <;> cases c <;> simp [Buf.base] at hbc ⊢
  simp only [Buf.window] at h ⊢
  omega

theorem Buf.addr_window (b : Buf) {i : Nat} (h : i < 256) : b.window (b.addr i) ∧ b.window (b.addr i + 1) := by
  simp only [Buf.window, Buf.addr]
  omega

theorem Buf.window_of_stores {b : Buf} {i n a : Nat} (hn : i + n ≤ 256) (h : b.stores i n a) : b.window a := by
  obtain ⟨j, -, hj, rfl⟩ := h
  exact (b.addr_window (by omega)).1

theorem Buf.window_of_storesWords {b : Buf} {n a : Nat} (hn : n ≤ 256) (h : b.storesWords n a) : b.window a := by
  obtain ⟨j, hj, rfl | rfl⟩ := h
  · exact (b.addr_window (by omega)).1
  · exact (b.addr_window (by omega)).2

theorem SameOutside.mono {m m' : Memory} {S S' : Nat → Prop} (h : SameOutside m m' S) (hS : ∀ a, S a → S' a) :
    SameOutside m m' S' :=
  fun a ha => h a fun hs => ha (hS a hs)

/-- Of the buffers and the length registers only `b` and its own length may differ. -/
structure OnlyBuf (b : Buf) (s t : State) : Prop where
  params : t.params = s.params
  outside : SameOutside s.mem t.mem b.window
  txlen : b ≠ .txb → t.txlen = s.txlen
  rxlen : b ≠ .rxb → t.rxlen = s.rxlen
  regcnt : b ≠ .rout → t.regcnt = s.regcnt

namespace OnlyBuf

variable {b : Buf}

theorem byte_eq (h : OnlyBuf b s t) {c : Buf} (hbc : b ≠ c) {i : Nat} (hi : i < 256) :
    t.byte? c i = s.byte? c i :=
  h.outside _ (Buf.not_window_of_window hbc (c.addr_window hi).1)

theorem bytes_eq (h : OnlyBuf b s t) {c : Buf} (hbc : b ≠ c) {n : Nat} (hn : n ≤ 256) :
    t.bytes c n = s.bytes c n :=
  Memory.bytes_congr fun j hj => by
    rw [← State.addr_eq]
    exact h.byte_eq hbc (by omega)

theorem words_eq (h : OnlyBuf b s t) {c : Buf} (hbc : b ≠ c) {n : Nat} (hn : n ≤ 256) :
    t.words c n = s.words c n :=
  Memory.words_congr fun j hj => by
    rw [← State.addr_eq]
    have hw := c.addr_window (i := j) (by omega)
    exact ⟨h.outside _ (Buf.not_window_of_window hbc hw.1), h.outside _ (Buf.not_window_of_window hbc hw.2)⟩

theorem frameInv (h : OnlyBuf b s t) (hb : b ≠ .txb) (hp : s.params.wf) (hs : s.FrameInv) : t.FrameInv := by
  obtain ⟨hle, F, hF⟩ := hs
  have hcap := Buf.cap_le hp .txb
  rw [State.FrameInv, h.params, h.txlen hb, h.bytes_eq hb (hle.trans hcap)]
  exact ⟨hle, F, hF⟩

theorem responseInv (h : OnlyBuf b s t) (hb : b ≠ .rxb) (hp : s.params.wf) (hs : s.ResponseInv) :
    t.ResponseInv := by
  obtain ⟨hle, hfill, hrest⟩ := hs
  have hcap := Buf.cap_le hp .rxb
  rw [State.ResponseInv, h.params, h.rxlen hb, h.bytes_eq hb (hle.trans hcap)]
  exact ⟨hle, hfill, fun i hi hlt => (h.byte_eq hb hlt).trans (hrest i hi hlt)⟩

theorem outputInv (h : OnlyBuf b s t) (hb : b ≠ .rout) (hs : s.OutputInv) : t.OutputInv := by
  obtain ⟨hle, R, hR⟩ := hs
  rw [State.OutputInv, h.regcnt hb, h.words_eq hb (by omega)]
  exact ⟨hle, R, hR⟩

theorem trustInv (h : OnlyBuf b s t) (hb : b ≠ .rxb) (hp : s.params.wf) (hr : s.ResponseInv)
    (hv : t.valid = s.valid) (hs : s.TrustInv) : t.TrustInv := by
  have hcap := Buf.cap_le hp .rxb
  rw [State.TrustInv, hv, h.rxlen hb, h.bytes_eq hb (hr.1.trans hcap)]
  exact hs

end OnlyBuf

/-- What a host change or an instruction can do to the buffers: it writes at most one of them. -/
inductive BufEffect (s t : State) : Prop where
  /-- `TXB` and `TXLEN` may change, and `TXB[0:TXLEN)` stays filled. -/
  | frame (h : OnlyBuf .txb s t) (hinv : s.FrameInv → t.FrameInv)
  /-- `RXB` holds a fresh response, which is not yet trusted. -/
  | response (h : OnlyBuf .rxb s t) (hinv : t.ResponseInv) (hv : t.valid = false)
  /-- `ROUT` holds freshly extracted values. -/
  | output (h : OnlyBuf .rout s t) (hinv : t.OutputInv)
  /-- At most a buffer changes that no length covers. -/
  | operands {b : Buf} (htx : b ≠ .txb) (hrx : b ≠ .rxb) (hout : b ≠ .rout) (h : OnlyBuf b s t)

namespace BufEffect

theorem unchanged (hp : t.params = s.params) (hm : t.mem = s.mem) (htx : t.txlen = s.txlen)
    (hrx : t.rxlen = s.rxlen) (hreg : t.regcnt = s.regcnt) : BufEffect s t :=
  .operands (b := .xb) (by decide) (by decide) (by decide)
    ⟨hp, fun a _ => by rw [hm], fun _ => htx, fun _ => hrx, fun _ => hreg⟩

theorem params_wf (e : BufEffect s t) (hp : s.params.wf) : t.params.wf := by
  obtain ⟨b, h⟩ : ∃ b, OnlyBuf b s t := by
    cases e with
    | frame h _ => exact ⟨_, h⟩
    | response h _ _ => exact ⟨_, h⟩
    | output h _ => exact ⟨_, h⟩
    | operands _ _ _ h => exact ⟨_, h⟩
  rwa [h.params]

theorem frameInv (e : BufEffect s t) (hp : s.params.wf) (hs : s.FrameInv) : t.FrameInv := by
  cases e with
  | frame _ hinv => exact hinv hs
  | response h _ _ => exact h.frameInv (by decide) hp hs
  | output h _ => exact h.frameInv (by decide) hp hs
  | operands htx _ _ h => exact h.frameInv htx hp hs

theorem responseInv (e : BufEffect s t) (hp : s.params.wf) (hs : s.ResponseInv) : t.ResponseInv := by
  cases e with
  | frame h _ => exact h.responseInv (by decide) hp hs
  | response _ hinv _ => exact hinv
  | output h _ => exact h.responseInv (by decide) hp hs
  | operands _ hrx _ h => exact h.responseInv hrx hp hs

theorem outputInv (e : BufEffect s t) (hs : s.OutputInv) : t.OutputInv := by
  cases e with
  | frame h _ => exact h.outputInv (by decide) hs
  | response h _ _ => exact h.outputInv (by decide) hs
  | output _ hinv => exact hinv
  | operands _ _ hout h => exact h.outputInv hout hs

/-- Trust outlives whatever leaves `VALID` alone (R27). -/
theorem trustInv (e : BufEffect s t) (hv : t.valid = s.valid) (hp : s.params.wf) (hr : s.ResponseInv)
    (hs : s.TrustInv) : t.TrustInv := by
  cases e with
  | frame h _ => exact h.trustInv (by decide) hp hr hv hs
  | response _ _ hfalse => exact fun htrue => absurd htrue (by simp [hfalse])
  | output h _ => exact h.trustInv (by decide) hp hr hv hs
  | operands _ hrx _ h => exact h.trustInv hrx hp hr hv hs

end BufEffect

/-! ### The buffers under a host access -/

theorem sameOutside_write (m : Memory) {a : Nat} (v : Byte) {S : Nat → Prop} (h : S a) :
    SameOutside m (Memory.write m a v) S :=
  fun x hx => Memory.read_write_other m v (by rintro rfl; exact hx h)

theorem sameOutside_writeWord (m : Memory) {a : Nat} (w : Word) {S : Nat → Prop} (h : S a ∧ S (a + 1)) :
    SameOutside m (Memory.writeWord m a w) S :=
  fun x hx => Memory.read_writeWord_other m w (by rintro rfl; exact hx h.1) (by rintro rfl; exact hx h.2)

/-- A range can be read exactly if each of its elements holds a value. -/
theorem Memory.exists_bytes_iff {m : Memory} {a n : Nat} :
    (∃ F, Memory.bytes m a n = some F) ↔ ∀ j < n, ∃ v, Memory.read m (a + 4 * j) = some v := by
  constructor
  · rintro ⟨F, hF⟩ j hj
    obtain ⟨hl, hr⟩ := Memory.bytes_eq_some.1 hF
    exact ⟨F[j], by rw [hr j hj, List.getElem?_eq_getElem (hl ▸ hj)]⟩
  · intro h
    refine ⟨(List.range n).map fun j => (Memory.read m (a + 4 * j)).getD 0,
      Memory.bytes_eq_some.2 ⟨by simp, fun j hj => ?_⟩⟩
    obtain ⟨v, hv⟩ := h j hj
    simp [hv, hj]

/-- A write fills elements and empties none. -/
theorem Memory.exists_bytes_write {m : Memory} {a n : Nat} (x : Nat) (v : Byte)
    (h : ∃ F, Memory.bytes m a n = some F) : ∃ F, Memory.bytes (Memory.write m x v) a n = some F := by
  rw [Memory.exists_bytes_iff] at h ⊢
  intro j hj
  rw [Memory.read_write]
  split
  · exact ⟨v, rfl⟩
  · exact h j hj

/-- Only a mapped element has an address (R52). -/
theorem lt_cap_of_target {p : Params} {w : AccessWidth} {a i : Nat} {b : Buf}
    (h : target? p w a = some (.elem b i)) : i < b.cap p := by
  unfold target? at h
  split at h
  · unfold targetAt at h
    split at h
    · split at h
      · simp at h
      · unfold elementAt at h
        split at h
        · split at h
          · simp only [Option.some.injEq, Target.elem.injEq] at h
            obtain ⟨rfl, rfl⟩ := h
            assumption
          · simp at h
        · simp at h
    · simp at h
  · simp at h

/-- The host fills an element of `TXB`, `XB` or `WIN`, or changes nothing (R54). -/
theorem State.putElem_bufEffect (s : State) (b : Buf) {i : Nat} (hi : i < 256) (v : DWord) :
    BufEffect s (s.putElem b i v) := by
  have hw := b.addr_window hi
  cases b with
  | txb =>
    refine .frame ⟨rfl, sameOutside_write _ _ hw.1, fun _ => rfl, fun _ => rfl, fun _ => rfl⟩ ?_
    rintro ⟨hle, hF⟩
    exact ⟨hle, Memory.exists_bytes_write _ _ hF⟩
  | xb =>
    exact .operands (by decide) (by decide) (by decide)
      ⟨rfl, sameOutside_write _ _ hw.1, fun _ => rfl, fun _ => rfl, fun _ => rfl⟩
  | win =>
    exact .operands (by decide) (by decide) (by decide)
      ⟨rfl, sameOutside_writeWord _ _ hw, fun _ => rfl, fun _ => rfl, fun _ => rfl⟩
  | rxb => exact .unchanged rfl rfl rfl rfl rfl
  | rout => exact .unchanged rfl rfl rfl rfl rfl

theorem HostChange.bufEffect (h : HostChange s t) (hp : s.params.wf) : BufEffect s t := by
  cases h with
  | @wrote w a x hx v =>
    cases x with
    | reg r =>
      exact .unchanged (s.putReg_params r v) (s.putReg_mem r v) (s.putReg_txlen r v) (s.putReg_rxlen r v)
        (s.putReg_regcnt r v)
    | elem b i => exact s.putElem_bufEffect b ((lt_cap_of_target hx).trans_le (Buf.cap_le hp b)) v
  | _ => exact .unchanged rfl rfl rfl rfl rfl

/-! ### The buffers under an instruction -/

/-- A completed read fits in `RXB` (R161). -/
theorem readResponse_ok_length {p : Params} (hp : p.wf) {A : Byte} {L T I start n : Nat} {q q' : List RxEntry}
    {buf : List Byte} (h : readResponse p A L T I start q = (.ok buf, n, q')) : buf.length ≤ p.rxbCap := by
  have hcap : 1 ≤ p.rxbCap := by have := hp.2.1.1; omega
  obtain ⟨g, f, -, -, -, -, -, hend⟩ := readResponse_ends hcap A L T I start q
  rw [h] at hend
  rcases hend with ⟨hok, -, hlen, -⟩ | ⟨-, -, hend⟩ | ⟨hov, -⟩
  · obtain rfl : buf = f.map RxEntry.byte := by simpa using hok
    simpa using hlen
  · simp at hend
  · simp at hov

/-- `RXB` emptied and filled with `F` from its start on, with the length of `F` (R165). -/
theorem State.refill_responseInv (s : State) {F : List Byte} (hF : F.length ≤ s.params.rxbCap) :
    (((s.emptyBuf .rxb).storeBytes .rxb 0 F).setRxlen F.length).ResponseInv := by
  refine ⟨hF, ⟨F, (s.emptyBuf .rxb).bytes_storeBytes_zero .rxb F⟩, fun i hi hlt => ?_⟩
  have hw := (Buf.rxb.addr_window hlt).1
  simp only [Buf.window, Buf.addr] at hw
  simp only [State.setRxlen_rxlen] at hi
  simp only [State.byte?, State.setRxlen_mem, State.storeBytes_mem, State.emptyBuf_mem, Buf.addr,
    Memory.read_storeBytes, Memory.read_clear]
  rw [if_neg (by omega), if_pos hw]

theorem State.refill_onlyBuf (s : State) {F : List Byte} (hF : F.length ≤ 256) :
    OnlyBuf .rxb s (((s.emptyBuf .rxb).storeBytes .rxb 0 F).setRxlen F.length) := by
  refine ⟨rfl, fun a ha => ?_, fun _ => rfl, fun h => absurd rfl h, fun _ => rfl⟩
  have hstore := ((s.emptyBuf .rxb).sameOutside_storeBytes .rxb 0 F).mono
    (fun a => Buf.window_of_stores (a := a) (by omega))
  have hclear : Memory.read (s.emptyBuf .rxb).mem a = Memory.read s.mem a := by
    rw [State.emptyBuf_mem, Memory.read_clear]
    exact if_neg ha
  exact (hstore a ha).trans hclear

/-- RX_READ leaves in `RXB` what was read, or nothing, with its length (R165). -/
theorem State.endRead_eq_refill (s : State) (r : ReadResult) :
    ∃ F c, (F = [] ∨ r = .ok F) ∧
      s.endRead r = (((s.emptyBuf .rxb).storeBytes .rxb 0 F).setRxlen F.length).finish c := by
  cases r with
  | ok buf => exact ⟨buf, _, .inr rfl, rfl⟩
  | _ => exact ⟨[], _, .inl rfl, rfl⟩

theorem length_extractRegisters (r : List Byte) (n : Nat) :
    (extractRegisters r n).length = min n ((byteAt r 2).toNat / 2) := by
  simp [extractRegisters]

/-- A byte count names at most 127 registers (R175). -/
theorem length_extractRegisters_le (r : List Byte) (n : Nat) : (extractRegisters r n).length ≤ 127 := by
  have := (byteAt r 2).isLt
  rw [length_extractRegisters]
  omega

/-- `ROUT` filled from its start on, with `REGCNT` the number of values (R176). -/
theorem State.putOutput_bufEffect (s : State) {R : List Word} (hR : R.length ≤ 127) :
    BufEffect s (((s.storeWords .rout R).setRegcnt R.length).complete .ok) := by
  have hout := (s.sameOutside_storeWords .rout R).mono (fun a => Buf.window_of_storesWords (a := a) (by omega))
  exact .output ⟨rfl, hout, fun _ => rfl, fun _ => rfl, fun h => absurd rfl h⟩
    ⟨hR, R, Memory.words_storeWords s.mem (Buf.rout.addr 0) R⟩

theorem Did.bufEffect (h : Did s t) (hp : s.params.wf) : BufEffect s t := by
  cases h with
  | appended data h hn =>
    have hcap := Buf.cap_le hp .txb
    have hout := (s.sameOutside_storeBytes .txb s.arg0n (le16 (crc16 data))).mono
      (fun a => Buf.window_of_stores (a := a) (hn.trans hcap))
    refine .frame ⟨rfl, hout, fun h => absurd rfl h, fun _ => rfl, fun _ => rfl⟩ fun _ => ?_
    exact ⟨hn, _, State.bytes_storeBytes h⟩
  | encoded P h =>
    have hcap := Buf.cap_le hp .txb
    obtain ⟨-, hbytes, hout⟩ := s.putFrame_sealed P
    have hlen : (s.putFrame (sealed P)).txlen = P.length + 2 := by simp
    refine .frame ⟨s.putFrame_params _, hout.mono fun a => Buf.window_of_stores (a := a) (by have := h hp; omega),
      fun h => absurd rfl h, fun _ => s.putFrame_rxlen _, fun _ => s.putFrame_regcnt _⟩ fun _ => ?_
    rw [State.FrameInv, hlen, s.putFrame_params]
    exact ⟨h hp, _, hbytes⟩
  | turned level d _ =>
    rcases s.turn_cases level d with ⟨-, e⟩ | ⟨-, e⟩ <;> rw [e] <;> exact .unchanged rfl rfl rfl rfl rfl
  | read a T I r n q hr =>
    obtain ⟨F, c, hF, e⟩ := ((s.setValid false).leftOff n q).endRead_eq_refill r
    have hlen : F.length ≤ s.params.rxbCap := by
      rcases hF with rfl | rfl
      · exact Nat.zero_le _
      · exact readResponse_ok_length hp hr
    have honly := ((s.setValid false).leftOff n q).refill_onlyBuf (hlen.trans (Buf.cap_le hp .rxb))
    rw [e]
    exact .response ⟨honly.params, honly.outside, honly.txlen, honly.rxlen, honly.regcnt⟩
      (((s.setValid false).leftOff n q).refill_responseInv hlen) rfl
  | judged r _ =>
    rw [State.judge_frame]
    exact .unchanged rfl rfl rfl rfl rfl
  | extracted r _ _ =>
    have hlen := length_extractRegisters r s.arg0n
    have hmax := length_extractRegisters_le r s.arg0n
    rw [← hlen]
    exact s.putOutput_bufEffect hmax
  | _ => exact .unchanged (by simp) (by simp) (by simp) (by simp) (by simp)

/-- Settles O56: every host change and every instruction writes at most one buffer, and leaves that one filled. -/
theorem stepsKeepLengthsCoveringValues : Obligations.StepsKeepLengthsCoveringValues := by
  intro s t hp hf hr ho h
  have keeps {u v : State} (e : u.params.wf → BufEffect u v) :
      (u.params.wf ∧ u.FrameInv ∧ u.ResponseInv ∧ u.OutputInv) →
        v.params.wf ∧ v.FrameInv ∧ v.ResponseInv ∧ v.OutputInv := by
    rintro ⟨hp, hf, hr, ho⟩
    exact ⟨(e hp).params_wf hp, (e hp).frameInv hp hf, (e hp).responseInv hp hr, (e hp).outputInv ho⟩
  exact step_keeps (P := fun u => u.params.wf ∧ u.FrameInv ∧ u.ResponseInv ∧ u.OutputInv)
    (fun hc => keeps hc.bufEffect) (fun hd => keeps hd.bufEffect) ⟨hp, hf, hr, ho⟩ h

/-! ### Trust in `VALID` -/

/-- A response the validator accepts has at least three bytes: of two bytes only `FF FF` carries its CRC, and that
has the exception bit set (R170, R177). -/
theorem three_le_length_of_validate_ok {r : List Byte} (h : validate r = .ok) : 3 ≤ r.length := by
  unfold validate at h
  split at h
  · simp at h
  · rename_i h2
    split at h
    · split at h
      · simp at h
      · omega
    · rename_i hexc
      split at h
      · rename_i hver
        by_contra hlt
        obtain ⟨a, b, rfl⟩ := List.length_eq_two.1 (show r.length = 2 by omega)
        have hsum : crc16 [] = join b a := of_decide_eq_true ((verify_append_two [] a b).symm.trans hver)
        have hb : 0xFF#8 = b := (congrArg hi hsum).trans (hi_join b a)
        subst hb
        exact hexc (show excBit 0xFF#8 = true by decide)
      · simp at h

theorem HostChange.valid (h : HostChange s t) : t.valid = s.valid := by
  cases h <;> simp

/-- A judgement of `OK` is the validator's, over the response held. -/
theorem judge_trustInv {r : List Byte} (hr : s.response = some r) :
    (((s.setValid false).judge r (validate r)).elapse).TrustInv := by
  cases hv : validate r with
  | ok =>
    intro _
    have hlen : r.length = s.rxlen := Memory.length_of_bytes hr
    exact ⟨hlen ▸ three_le_length_of_validate_ok hv, r, hr, hv⟩
  | _ => exact fun htrue => absurd htrue (by simp [State.judge])

theorem Did.trustInv (h : Did s t) (hp : s.params.wf) (hr : s.ResponseInv) (hs : s.TrustInv) : t.TrustInv := by
  have e := h.bufEffect hp
  cases h with
  | judged r hr => exact judge_trustInv hr
  | unread c => exact fun htrue => absurd htrue (by simp)
  | read a T I r n q _ =>
    rw [State.endRead_frame]
    exact fun htrue => absurd htrue (by simp)
  | turned level d _ =>
    refine e.trustInv ?_ hp hr hs
    rcases s.turn_cases level d with ⟨-, e⟩ | ⟨-, e⟩ <;> simp [e]
  | _ => exact e.trustInv (by simp) hp hr hs

/-- Settles O57: only DEC_VALIDATE makes `VALID` 1, over the response it accepts, and only RX_READ changes the
response, which clears `VALID`. -/
theorem stepsKeepTrustInValidation : Obligations.StepsKeepTrustInValidation := by
  intro s t hp hr ht h
  refine (step_keeps (P := fun u => u.params.wf ∧ u.ResponseInv ∧ u.TrustInv) ?_ ?_ ⟨hp, hr, ht⟩ h).2.2
  · rintro u v hc ⟨hp, hr, ht⟩
    have e := hc.bufEffect hp
    exact ⟨e.params_wf hp, e.responseInv hp hr, e.trustInv hc.valid hp hr ht⟩
  · rintro u v hd ⟨hp, hr, ht⟩
    have e := hd.bufEffect hp
    exact ⟨e.params_wf hp, e.responseInv hp hr, hd.trustInv hp hr ht⟩

end Sys2Proof.Machine

/-! PROOFS. The host register space (20_memory.md R52): what lies in the buffer memory. -/

namespace Sys2Proof.Machine

variable {s t : State}

/-- `a` is the address of a byte of a mapped element (R52). -/
def ElementByte (p : Params) (a : Nat) : Prop :=
  ∃ b : Buf, ∃ i, i < b.cap p ∧ (a = b.addr i ∨ (b.wide = true ∧ a = b.addr i + 1))

theorem ElementByte.of_stores {p : Params} {b : Buf} {i n a : Nat} (hn : i + n ≤ b.cap p) (h : b.stores i n a) :
    ElementByte p a := by
  obtain ⟨j, -, hj, rfl⟩ := h
  exact ⟨b, j, by omega, .inl rfl⟩

theorem ElementByte.of_storesWords {p : Params} {b : Buf} {n a : Nat} (hb : b.wide = true) (hn : n ≤ b.cap p)
    (h : b.storesWords n a) : ElementByte p a := by
  obtain ⟨j, hj, ha | ha⟩ := h
  · exact ⟨b, j, by omega, .inl ha⟩
  · exact ⟨b, j, by omega, .inr ⟨hb, ha⟩⟩

namespace State.MemoryInv

/-- Memory that changes only in bytes of mapped elements stays memory of mapped elements. -/
theorem of_sameOutside (h : s.MemoryInv) (hp : t.params = s.params) (hwf : Memory.wf t.mem = true)
    {S : Nat → Prop} (hout : SameOutside s.mem t.mem S) (hS : ∀ a, S a → ElementByte s.params a) :
    t.MemoryInv := by
  refine ⟨hwf, fun a ha => ?_⟩
  rw [hp]
  by_cases hSa : S a
  · exact hS a hSa
  · exact h.2 a (by rwa [← hout a hSa])

theorem congr (h : s.MemoryInv) (hp : t.params = s.params) (hm : t.mem = s.mem) : t.MemoryInv := by
  rw [State.MemoryInv, hp, hm]
  exact h

theorem emptyBuf (h : s.MemoryInv) (b : Buf) : (s.emptyBuf b).MemoryInv := by
  refine ⟨Memory.wf_clear _ _ h.1, fun a ha => h.2 a ?_⟩
  rw [State.emptyBuf_mem, Memory.read_clear] at ha
  split at ha
  · simp at ha
  · exact ha

theorem storeBytes (h : s.MemoryInv) {b : Buf} {i : Nat} {F : List Byte} (hF : i + F.length ≤ b.cap s.params) :
    (s.storeBytes b i F).MemoryInv :=
  h.of_sameOutside rfl (Memory.wf_storeBytes _ _ h.1) (s.sameOutside_storeBytes b i F)
    fun _ => ElementByte.of_stores hF

theorem storeWords (h : s.MemoryInv) {b : Buf} {R : List Word} (hb : b.wide = true)
    (hR : R.length ≤ b.cap s.params) : (s.storeWords b R).MemoryInv :=
  h.of_sameOutside rfl (Memory.wf_storeWords _ _ h.1) (s.sameOutside_storeWords b R)
    fun _ => ElementByte.of_storesWords hb hR

/-- A byte element the host writes is a store of one byte, a word element a store of one word (R54). -/
theorem putElem (h : s.MemoryInv) {b : Buf} {i : Nat} (hi : i < b.cap s.params) (v : DWord) :
    (s.putElem b i v).MemoryInv := by
  cases b with
  | txb => exact h.storeBytes (b := .txb) (F := [v.setWidth 8]) hi
  | xb => exact h.storeBytes (b := .xb) (F := [v.setWidth 8]) hi
  | win =>
    refine h.of_sameOutside (S := fun a => a = Buf.win.addr i ∨ a = Buf.win.addr i + 1) rfl
      (Memory.wf_writeWord _ _ h.1) (sameOutside_writeWord _ _ ⟨.inl rfl, .inr rfl⟩) ?_
    rintro a (ha | ha)
    · exact ⟨.win, i, hi, .inl ha⟩
    · exact ⟨.win, i, hi, .inr ⟨rfl, ha⟩⟩
  | rxb => exact h
  | rout => exact h

end State.MemoryInv

theorem HostChange.memoryInv (h : HostChange s t) (hm : s.MemoryInv) : t.MemoryInv := by
  cases h with
  | @wrote w a x hx v =>
    cases x with
    | reg r => exact hm.congr (s.putReg_params r v) (s.putReg_mem r v)
    | elem b i => exact hm.putElem (lt_cap_of_target hx) v
  | _ => exact hm

theorem Did.memoryInv (h : Did s t) (hp : s.params.wf) (hm : s.MemoryInv) : t.MemoryInv := by
  cases h with
  | appended data _ hn => exact hm.storeBytes (b := .txb) (F := le16 (crc16 data)) hn
  | encoded P h =>
    exact hm.storeBytes (b := .txb) (i := 0) (F := sealed P) (by rw [length_sealed, Nat.zero_add]; exact h hp)
  | turned level d _ =>
    rcases s.turn_cases level d with ⟨-, e⟩ | ⟨-, e⟩ <;> rw [e] <;> exact hm
  | read a T I r n q hr =>
    obtain ⟨F, c, hF, e⟩ := ((s.setValid false).leftOff n q).endRead_eq_refill r
    have hlen : 0 + F.length ≤ s.params.rxbCap := by
      rw [Nat.zero_add]
      rcases hF with rfl | rfl
      · exact Nat.zero_le _
      · exact readResponse_ok_length hp hr
    rw [e]
    exact (hm.emptyBuf .rxb).storeBytes (b := .rxb) hlen
  | judged r _ =>
    rw [State.judge_frame]
    exact hm
  | extracted r _ _ => exact hm.storeWords (b := .rout) rfl (length_extractRegisters_le r s.arg0n)
  | _ => exact hm.congr (by simp) (by simp)

/-- Settles O55: a host write fills a mapped element, and an instruction stores within the capacity of its buffer. -/
theorem stepsKeepMemoryCanonical : Obligations.StepsKeepMemoryCanonical := by
  intro s t hp hm h
  refine step_keeps (P := fun u => u.params.wf ∧ u.MemoryInv) ?_ ?_ ⟨hp, hm⟩ h
  · rintro u v hc ⟨hp, hm⟩
    exact ⟨(hc.bufEffect hp).params_wf hp, hc.memoryInv hm⟩
  · rintro u v hd ⟨hp, hm⟩
    exact ⟨(hd.bufEffect hp).params_wf hp, hd.memoryInv hp hm⟩

end Sys2Proof.Machine

/-! PROOFS. The host register space (20_memory.md R50-R55): which accesses are bus errors, what a host read returns
and what a host write stores. -/

namespace Sys2Proof.Machine

variable {s t : State}

/-! ### Which addresses name something -/

/-- The mapped offsets: the registers, and the elements of each buffer from its base on (R51, R52). -/
theorem mapped_iff {p : Params} {off : Nat} :
    mapped p off ↔ off < 0x30 ∨ ∃ b : Buf, b.base ≤ off ∧ off < b.base + 4 * b.cap p := by
  constructor
  · rintro (h | h | h | h | h | h)
    · exact .inl h
    · exact .inr ⟨.txb, h⟩
    · exact .inr ⟨.rxb, h⟩
    · exact .inr ⟨.xb, h⟩
    · exact .inr ⟨.win, h⟩
    · exact .inr ⟨.rout, h⟩
  · rintro (h | ⟨b, h⟩)
    · exact .inl h
    · cases b <;> simp only [Buf.base, Buf.cap] at h <;> simp only [mapped, h, true_and, true_or, or_true]

/-- Every aligned offset below 0x30 is a register's (R51). -/
theorem exists_register_of_lt {off : Nat} (h4 : off % 4 = 0) (h : off < 0x30) : ∃ r : Reg, off = r.offset := by
  have hall : ∀ k < 12, ∃ r ∈ registers, 4 * k = r.offset := by decide
  obtain ⟨r, -, hr⟩ := hall (off / 4) (by omega)
  exact ⟨r, by omega⟩

/-- Only an aligned, mapped offset names something (R53). -/
theorem mapped_of_targetAt {p : Params} {off : Nat} {x : Target} (h : targetAt p off = some x) :
    off % 4 = 0 ∧ mapped p off := by
  unfold targetAt at h
  split at h
  case isFalse => simp at h
  case isTrue h4 =>
    refine ⟨h4, mapped_iff.2 ?_⟩
    split at h
    case h_1 r hr =>
      have hoff : r.offset = off := by simpa using List.find?_some hr
      exact .inl (hoff ▸ by cases r <;> decide)
    case h_2 =>
      unfold elementAt at h
      split at h
      case h_2 => simp at h
      case h_1 b hb =>
        have hwin : b.base ≤ off ∧ off < b.base + 0x400 := by simpa using List.find?_some hb
        split at h
        case isFalse => simp at h
        case isTrue hcap => exact .inr ⟨b, hwin.1, by omega⟩

/-- Every aligned, mapped offset names something (R51, R52). -/
theorem exists_targetAt {p : Params} (hp : p.wf) {off : Nat} (h4 : off % 4 = 0) (h : mapped p off) :
    ∃ x, targetAt p off = some x := by
  rcases mapped_iff.1 h with hreg | ⟨b, hb, hcap⟩
  · obtain ⟨r, rfl⟩ := exists_register_of_lt h4 hreg
    exact ⟨_, targetAt_reg p r⟩
  · have hbase : b.base % 4 = 0 := by cases b <;> rfl
    obtain ⟨i, rfl⟩ : ∃ i, off = b.addr i := ⟨(off - b.base) / 4, by simp only [Buf.addr]; omega⟩
    exact ⟨_, targetAt_elem hp (by simp only [Buf.addr] at hcap; omega)⟩

/-- An access names something exactly if R53 allows it. -/
theorem target_eq_none_iff {p : Params} (hp : p.wf) {w : AccessWidth} {a : Nat} :
    target? p w a = none ↔ ¬ goodAccess p w a := by
  unfold target? goodAccess
  split
  case isFalse h => simp only [true_iff]; exact fun hg => h ⟨hg.1, hg.2.1⟩
  case isTrue h =>
    constructor
    · rintro hnone ⟨-, -, h4, hm⟩
      obtain ⟨x, hx⟩ := exists_targetAt hp h4 hm
      simp [hx] at hnone
    · intro hbad
      cases hx : targetAt p (a - p.base) with
      | none => rfl
      | some x => exact absurd ⟨h.1, h.2, mapped_of_targetAt hx⟩ hbad

/-! ### Which accesses are bus errors -/

/-- No instruction raises a bus error: where one stops, it read what holds no value (R49, R214). -/
theorem exec_ne_busError (i : Instr) (s : State) : exec i s ≠ .fault .busError := by
  cases i with
  | crcGen | crcVerify | encWriteMultiple | encCustom | txSend | rxRead | decExtract =>
    simp only [exec, execCrcGen, execCrcVerify, execEncWriteMultiple, execEncCustom, execTxSend, execRxRead,
      execDecExtract]
    repeat' split
    all_goals simp
  | encReadHolding | encReadInput | encWriteSingle | encResetEnergy | decValidate =>
    simp only [exec, execEncReadHolding, execEncReadInput, execEncWriteSingle, execEncResetEnergy, execDecValidate]
    split <;> simp
  | _ => exact nofun

theorem runFetched_ne_busError (f : Fetched) (s : State) : runFetched f s ≠ .fault .busError := by
  unfold runFetched
  split
  · exact exec_ne_busError _ _
  · split <;> simp

theorem hostRead_busError_iff {w : AccessWidth} {a : Nat} :
    hostRead w a s = .fault .busError ↔ target? s.params w a = none := by
  unfold hostRead
  split
  case h_1 h => simp [h]
  case h_2 h => split <;> simp [h]

theorem hostWrite_busError_iff {w : AccessWidth} {a : Nat} {v : DWord} :
    hostWrite w a v s = .fault .busError ↔ target? s.params w a = none := by
  unfold hostWrite
  split
  case h_1 h => simp [h]
  case h_2 h => simp [h, runFetched_ne_busError]
  case h_3 h => simp [h]

/-- Settles O9: a host access is a bus error exactly if its address names nothing. -/
theorem busErrorsAreExactlyBadAccesses : Obligations.BusErrorsAreExactlyBadAccesses := by
  intro s rest w addr hp
  constructor
  · intro hin
    rw [← target_eq_none_iff hp, ← s.setInputs_params rest, ← hostRead_busError_iff]
    simp only [step, hin]
  · intro v hin
    rw [← target_eq_none_iff hp, ← s.setInputs_params rest, ← hostWrite_busError_iff (v := v)]
    simp only [step, hin]

/-! ### What a host read returns -/

/-- Which inputs are still to come is no part of what the host sees. -/
theorem State.view_setInputs (s : State) (rest : List Input) (x : Target) : (s.setInputs rest).view x = s.view x := by
  cases x with
  | reg r => exact s.regValue_setInputs rest r
  | elem b i => rfl

theorem step_of_read {rest : List Input} {w : AccessWidth} {a : Nat} {x : Target} {v : DWord}
    (hin : s.inputs = .hostRead w a :: rest) (hx : target? s.params w a = some x) (hv : s.view x = some v) :
    step s = .next ((s.setInputs rest).logRead a v) := by
  simp only [step, hin, hostRead, State.setInputs_params, hx, State.view_setInputs, hv]

theorem step_of_read_none {rest : List Input} {w : AccessWidth} {a : Nat} {x : Target}
    (hin : s.inputs = .hostRead w a :: rest) (hx : target? s.params w a = some x) (hv : s.view x = none) :
    step s = .fault .unwrittenRead := by
  simp only [step, hin, hostRead, State.setInputs_params, hx, State.view_setInputs, hv]

/-- A host read that completes only logs what it returned (R55). -/
theorem hostRead_next {w : AccessWidth} {a : Nat} (h : hostRead w a s = .next t) : ∃ v, t = s.logRead a v := by
  unfold hostRead at h
  split at h
  case h_1 => simp at h
  case h_2 =>
    split at h
    case h_1 => simp at h
    case h_2 v _ => exact ⟨v, by simpa using h.symm⟩

/-- Settles O10: a host read that completes only logs what it returned. -/
theorem hostReadsHaveNoSideEffect : Obligations.HostReadsHaveNoSideEffect := by
  intro s t rest w addr hin h
  simp only [step, hin] at h
  exact hostRead_next h

/-- Settles O17: the element at the offset is viewed, as a byte or as a word. -/
theorem hostReadReturnsTheElementOrFaults : Obligations.HostReadReturnsTheElementOrFaults := by
  intro s rest b i hp hi off after returns
  have hoff : off = b.addr i := by cases b <;> rfl
  have hx : target? s.params .w32 (s.params.base + off) = some (.elem b i) := hoff ▸ target_elem hp hi
  have reads {v : DWord} (hv : s.elemValue b i = some v) : returns v :=
    step_of_read (s := { s with inputs := _ }) rfl hx hv
  have stops (hv : s.elemValue b i = none) : after = .fault .unwrittenRead :=
    step_of_read_none (s := { s with inputs := _ }) rfl hx hv
  constructor
  · intro hb
    have hval : s.elemValue b i = (s.byte? b i).map (BitVec.setWidth 32) := by
      rcases hb with rfl | rfl | rfl <;> rfl
    exact ⟨fun v hv => reads (by simp [hval, hv]), fun hv => stops (by simp [hval, hv])⟩
  · intro hb
    have hval : s.elemValue b i = (s.word? b i).map (BitVec.setWidth 32) := by
      rcases hb with rfl | rfl <;> rfl
    exact ⟨fun v hv => reads (by simp [hval, hv]), fun hv => stops (by simp [hval, hv])⟩

/-! ### What a host write stores -/

/-- A host write to anything but `CMD` only stores its value (R55). -/
theorem step_of_write {rest : List Input} {w : AccessWidth} {a : Nat} {v : DWord} {x : Target}
    (hin : s.inputs = .hostWrite w a v :: rest) (hx : target? s.params w a = some x) (hne : x ≠ .reg .cmd) :
    step s = .next ((s.setInputs rest).put x v) := by
  simp only [step, hin, hostWrite, State.setInputs_params, hx]

/-- Settles O14: each register by its offset. -/
theorem hostWritesStoreTheRegister : Obligations.HostWritesStoreTheRegister := by
  intro s rest v off after
  have stores (r : Reg) (hr : r ≠ .cmd) (hoff : off = r.offset) : after = .next ((s.setInputs rest).putReg r v) := by
    subst hoff
    exact step_of_write (s := { s with inputs := _ }) rfl (target_reg s.params r) (by simpa using hr)
  have low (k : Nat) (hk : k ≤ 32) : v.setWidth k = v.extractLsb' 0 k := BitVec.setWidth_eq_extractLsb' hk
  refine ⟨fun h => ?_, stores .timeout (by decide), stores .idle (by decide), fun h => ?_, fun h => ?_⟩
  · rw [stores .slave (by decide) h, ← low 8 (by decide)]; rfl
  · rw [stores .arg0 (by decide) h, ← low 16 (by decide)]; rfl
  · rw [stores .arg1 (by decide) h, ← low 16 (by decide)]; rfl

/-- Settles O15: at every offset listed the host can store nothing. -/
theorem writesToReadOnlyStateAreIgnored : Obligations.WritesToReadOnlyStateAreIgnored := by
  intro s rest v off hp h
  have ignored (x : Target) (hx : targetAt s.params off = some x) (hne : x ≠ .reg .cmd)
      (hput : ∀ u : State, u.put x v = u) :
      step { s with inputs := .hostWrite .w32 (s.params.base + off) v :: rest } = .next { s with inputs := rest } := by
    rw [step_of_write (s := { s with inputs := _ }) rfl ((target_of_offset s.params off).trans hx) hne, hput]
    rfl
  rcases h with rfl | rfl | rfl | rfl | rfl | rfl | ⟨i, hi, rfl⟩ | ⟨i, hi, rfl⟩
  · exact ignored (.reg .status) rfl (by decide) fun _ => rfl
  · exact ignored (.reg .crc) rfl (by decide) fun _ => rfl
  · exact ignored (.reg .txlen) rfl (by decide) fun _ => rfl
  · exact ignored (.reg .rxlen) rfl (by decide) fun _ => rfl
  · exact ignored (.reg .regcnt) rfl (by decide) fun _ => rfl
  · exact ignored (.reg .caps) rfl (by decide) fun _ => rfl
  · exact ignored (.elem .rxb i) (targetAt_elem hp (b := .rxb) hi) nofun fun _ => rfl
  · exact ignored (.elem .rout i) (targetAt_elem hp (b := .rout) hi) nofun fun _ => rfl

/-- A host write to an element changes memory only (R55). -/
theorem State.putElem_frame (s : State) (b : Buf) (i : Nat) (v : DWord) :
    s.putElem b i v = { s with mem := (s.putElem b i v).mem } := by
  cases b <;> rfl

/-- A host write to a mapped element changes memory only, and the next read returns what the element holds then. -/
theorem step_of_elem_write_then_read (rest : List Input) {b : Buf} {i : Nat} {v x : DWord} (hp : s.params.wf)
    (hi : i < b.cap s.params) (hval : ((s.setInputs rest).putElem b i v).elemValue b i = some x) :
    let t := (s.setInputs rest).putElem b i v
    step { s with inputs := .hostWrite .w32 (s.params.base + b.addr i) v :: rest } = .next t ∧
      t = { s with inputs := rest, mem := t.mem } ∧
      step { t with inputs := .hostRead .w32 (s.params.base + b.addr i) :: rest } =
        .next { t with busLog := s.busLog ++ [⟨s.params.base + b.addr i, x⟩] } := by
  intro t
  have hx := target_elem hp hi
  have ht : t = { s with inputs := rest, mem := t.mem } := (s.setInputs rest).putElem_frame b i v
  refine ⟨step_of_write (s := { s with inputs := _ }) rfl hx nofun, ht, ?_⟩
  rw [step_of_read (s := { t with inputs := _ }) (x := .elem b i) (v := x) rfl (by rw [ht]; exact hx) hval, ht]
  rfl

/-- Settles O16: the host's store is the model's store of one byte, or of one word, which reads back. -/
theorem hostWritesStoreTheElement : Obligations.HostWritesStoreTheElement := by
  intro s rest v i hp
  constructor
  · intro b hb hi
    have hput : (s.setInputs rest).putElem b i v = (s.setInputs rest).storeBytes b i [v.extractLsb' 0 8] := by
      rw [← BitVec.setWidth_eq_extractLsb' (by decide : 8 ≤ 32)]
      rcases hb with rfl | rfl <;> rfl
    have hbyte : ((s.setInputs rest).putElem b i v).byte? b i = some (v.extractLsb' 0 8) := by
      rw [hput]
      exact Memory.read_write_same _ _ _
    have hval : ((s.setInputs rest).putElem b i v).elemValue b i = some ((v.extractLsb' 0 8).setWidth 32) := by
      rcases hb with rfl | rfl <;> exact congrArg (Option.map (BitVec.setWidth 32)) hbyte
    obtain ⟨hwrite, hframe, hread⟩ := step_of_elem_write_then_read rest hp hi hval
    refine ⟨_, hwrite, hframe, hbyte, ?_, hread⟩
    rw [hput]
    exact (s.setInputs rest).sameOutside_storeBytes b i _
  · intro hi
    have hput : ((s.setInputs rest).putElem .win i v).mem =
        Memory.writeWord s.mem (Buf.win.addr i) (v.extractLsb' 0 16) := by
      rw [← BitVec.setWidth_eq_extractLsb' (by decide : 16 ≤ 32)]
      rfl
    have hword : ((s.setInputs rest).putElem .win i v).word? .win i = some (v.extractLsb' 0 16) := by
      rw [State.word?, hput, Memory.readWord_writeWord]
    have hval : ((s.setInputs rest).putElem .win i v).elemValue .win i = some ((v.extractLsb' 0 16).setWidth 32) :=
      congrArg (Option.map (BitVec.setWidth 32)) hword
    obtain ⟨hwrite, hframe, hread⟩ := step_of_elem_write_then_read rest hp (b := .win) hi hval
    refine ⟨_, hwrite, hframe, hword, ?_, hread⟩
    rw [hput]
    exact sameOutside_writeWord _ _ ⟨.inl rfl, .inr rfl⟩

end Sys2Proof.Machine

/-! PROOFS. Encoding (30_encoding.md R70-R76): the fields of a command word, and which words are commands. -/

namespace Sys2Proof

open Laws.EncodedForm (reserved_commandWord)

/-! ### The fields of a command word -/

@[simp] theorem opField_commandWord (op fc : Byte) (m : Bool) : opField (commandWord op fc m) = op := by
  simp only [opField, commandWord, BitVec.extractLsb'_append_eq_ite]
  simp

@[simp] theorem fcField_commandWord (op fc : Byte) (m : Bool) : fcField (commandWord op fc m) = fc := by
  simp only [fcField, commandWord, BitVec.extractLsb'_append_eq_ite]
  simp

@[simp] theorem modField_commandWord (op fc : Byte) (m : Bool) : modField (commandWord op fc m) = m := by
  simp only [modField, commandWord, BitVec.getLsbD_append]
  simp

/-- A word is its four fields (R71). -/
theorem dword_eq_iff_fields {w v : DWord} :
    w = v ↔ opField w = opField v ∧ fcField w = fcField v ∧ modField w = modField v ∧
      reservedField w = reservedField v := by
  refine ⟨by rintro rfl; exact ⟨rfl, rfl, rfl, rfl⟩, fun ⟨hop, hfc, hmod, hres⟩ => ?_⟩
  have bit {n start i : Nat} (h : w.extractLsb' start n = v.extractLsb' start n) (h1 : start ≤ i)
      (h2 : i < start + n) : w.getLsbD i = v.getLsbD i := by
    have hb := congrArg (BitVec.getLsbD · (i - start)) h
    simpa [show i - start < n by omega, show start + (i - start) = i by omega] using hb
  apply BitVec.eq_of_getLsbD_eq
  intro i hi
  rcases (by omega : i < 8 ∨ 8 ≤ i ∧ i < 16 ∨ i = 16 ∨ 17 ≤ i) with h | h | rfl | h
  · exact bit hop (Nat.zero_le i) (by omega)
  · exact bit hfc h.1 (by omega)
  · exact hmod
  · exact bit hres h (by omega)

/-- A word with its reserved bits clear is made of its other fields (R88). -/
theorem eq_commandWord {w : DWord} (h : reservedField w = 0) :
    w = commandWord (opField w) (fcField w) (modField w) :=
  dword_eq_iff_fields.2 ⟨by simp, by simp, by simp, by rw [h, reserved_commandWord]⟩

/-! ### Which words are commands -/

theorem takesMod_ok {w : DWord} {k : Bool → Instr} {i : Instr} (h : takesMod w k = .ok i) :
    fcField w = 0 ∧ i = k (modField w) := by
  unfold takesMod at h
  split at h
  · exact ⟨by assumption, (Except.ok.inj h).symm⟩
  · simp at h

theorem takesNothing_ok {w : DWord} {i j : Instr} (h : takesNothing w j = .ok i) :
    fcField w = 0 ∧ modField w = false ∧ i = j := by
  unfold takesNothing at h
  split at h
  · split at h
    · simp at h
    · exact ⟨by assumption, by simpa using ‹¬ modField w = true›, (Except.ok.inj h).symm⟩
  · simp at h

theorem takesReadCode_ok {w : DWord} {i : Instr} (h : takesReadCode w = .ok i) :
    modField w = false ∧
      (fcField w = 0x03#8 ∧ i = .encReadHolding ∨ fcField w = 0x04#8 ∧ i = .encReadInput) := by
  unfold takesReadCode at h
  split at h
  · simp at h
  · refine ⟨by simpa using ‹¬ modField w = true›, ?_⟩
    split at h
    · exact .inl ⟨by assumption, (Except.ok.inj h).symm⟩
    · split at h
      · exact .inr ⟨by assumption, (Except.ok.inj h).symm⟩
      · simp at h

theorem takesAnyCode_ok {w : DWord} {i : Instr} (h : takesAnyCode w = .ok i) :
    modField w = false ∧ i = .encCustom (fcField w) := by
  unfold takesAnyCode at h
  split at h
  · simp at h
  · exact ⟨by simpa using ‹¬ modField w = true›, (Except.ok.inj h).symm⟩

/-- A command whose `MOD` is an operand is encoded with that operand. -/
theorem encode_of_takesMod {w : DWord} {k : Bool → Instr} {op : Byte} {i : Instr}
    (hw : w = commandWord op (fcField w) (modField w)) (hk : ∀ m, encode (k m) = .command (commandWord op 0 m))
    (h : takesMod w k = .ok i) : encode i = .command w := by
  obtain ⟨hfc, rfl⟩ := takesMod_ok h
  rw [hfc] at hw
  rw [hk, ← hw]

theorem encode_of_takesNothing {w : DWord} {op : Byte} {i j : Instr}
    (hw : w = commandWord op (fcField w) (modField w)) (hj : encode j = .command (commandWord op 0 false))
    (h : takesNothing w j = .ok i) : encode i = .command w := by
  obtain ⟨hfc, hmod, rfl⟩ := takesNothing_ok h
  rw [hfc, hmod] at hw
  rw [hj, ← hw]

/-- What a command word decodes to has that word as its encoding (R70). -/
theorem encode_of_decodeCommand {w : DWord} {i : Instr} (h : decodeCommand w = .ok i) : encode i = .command w := by
  unfold decodeCommand at h
  split at h
  case isTrue => simp at h
  case isFalse hres =>
    have hw (n : Nat) (hop : (opField w).toNat = n) :
        w = commandWord (BitVec.ofNat 8 n) (fcField w) (modField w) := by
      rw [← hop, BitVec.ofNat_toNat, BitVec.setWidth_eq]
      exact eq_commandWord (by simpa using hres)
    split at h
    case h_1 hop | h_2 hop | h_4 hop | h_5 hop | h_7 hop =>
      exact encode_of_takesMod (hw _ hop) (fun m => by cases m <;> rfl) h
    case h_3 hop =>
      obtain ⟨hmod, ⟨hfc, rfl⟩ | ⟨hfc, rfl⟩⟩ := takesReadCode_ok h <;> rw [hw _ hop, hfc, hmod] <;> rfl
    case h_6 hop =>
      obtain ⟨hmod, rfl⟩ := takesAnyCode_ok h
      have hcode := hw _ hop
      rw [hmod] at hcode
      exact congrArg Fetched.command hcode.symm
    case h_8 hop | h_9 hop | h_10 hop | h_11 hop | h_12 hop | h_13 hop | h_14 hop =>
      exact encode_of_takesNothing (hw _ hop) rfl h
    case h_15 => simp at h

/-- The word that encodes a command decodes to it (R72, R73). -/
theorem decodeCommand_of_encode {w : DWord} {i : Instr} (h : encode i = .command w) : decodeCommand w = .ok i := by
  cases i
  case crcGen m | crcVerify m | encWriteSingle m | encWriteMultiple m | encResetEnergy m =>
    obtain rfl := Fetched.command.inj h
    cases m <;> rfl
  case encCustom fc =>
    obtain rfl := Fetched.command.inj h
    simp [decodeCommand, takesAnyCode, reserved_commandWord]
  case encReadHolding | encReadInput | dirTx | dirRx | txSend | rxDiscard | rxRead | decValidate | decExtract =>
    obtain rfl := Fetched.command.inj h
    rfl
  all_goals simp [encode] at h

/-- A command word decodes to the instruction it encodes, and to nothing else. -/
theorem decodeCommand_eq_ok_iff {w : DWord} {i : Instr} : decodeCommand w = .ok i ↔ encode i = .command w :=
  ⟨encode_of_decodeCommand, decodeCommand_of_encode⟩

end Sys2Proof

/-! PROOFS. Encoding (30_encoding.md R77-R84): the frames on the wire, and the two round trips. -/

namespace Sys2Proof

open Laws.EncodedForm (verify_of_sealed)

/-! ### A frame and its parts -/

/-- A sequence that verifies is its body with the CRC behind it (R77, R102). -/
theorem eq_sealed_of_verify {F : List Byte} (h2 : 2 ≤ F.length) (h : verify F = true) : F = sealed (body F) := by
  have hF := eq_body_append h2
  rw [hF, verify_append_two, decide_eq_true_eq] at h
  rw [sealed_eq, h, lo_join, hi_join]
  exact hF

theorem decodeFrame_request_sealed (a fc : Byte) (X : List Byte) :
    decodeFrame .request (sealed (a :: fc :: X)) = decodeRequest a fc X := by
  simp [decodeFrame, verify_of_sealed]

theorem decodeFrame_response_sealed (a fc : Byte) (X : List Byte) :
    decodeFrame .response (sealed (a :: fc :: X)) = decodeResponse a fc X := by
  simp [decodeFrame, verify_of_sealed]

/-- A frame that decodes is an address, a function code and a payload, with their CRC (R77). -/
theorem eq_sealed_of_decodeFrame {o : Origin} {F : List Byte} {i : Instr} (h : decodeFrame o F = .ok i) :
    ∃ a fc X, F = sealed (a :: fc :: X) := by
  unfold decodeFrame at h
  split at h
  case isTrue => simp at h
  case isFalse hlen =>
    split at h
    case isFalse => simp at h
    case isTrue hver =>
      have hF := eq_sealed_of_verify (by omega) hver
      split at h
      case h_1 a fc X hb => exact ⟨a, fc, X, hb ▸ hF⟩
      case h_2 => simp at h

/-! ### Requests -/

/-- A write-multiple request of at most 127 values is read as one (R80). -/
theorem requestRow_writeMultiple (a : Byte) (start : Word) {vs : List (Byte × Byte)} (h : vs.length ≤ 127) :
    requestRow? a 0x10#8 (hi start :: lo start :: hi (BitVec.ofNat 16 vs.length) ::
      lo (BitVec.ofNat 16 vs.length) :: BitVec.ofNat 8 (2 * vs.length) :: unpair vs) =
      some (.frameWriteMultipleReq a start vs) := by
  have h8 : 2 * vs.length % 256 = 2 * vs.length := Nat.mod_eq_of_lt (by omega)
  have h16 : vs.length % 65536 = vs.length := Nat.mod_eq_of_lt (by omega)
  simp [requestRow?, h8, h16]

/-- A write-multiple request whose counts are right is the encoding of its operands (R80). -/
theorem encode_writeMultiple {a sh sl ch cl bc : Byte} {vals : List Byte} {vs : List (Byte × Byte)}
    (hvs : pairUp vals = some vs) (hbytes : bc.toNat = 2 * vs.length) (hcount : (join ch cl).toNat = vs.length) :
    (Instr.frameWriteMultipleReq a (join sh sl) vs).wf = true ∧
      encode (.frameWriteMultipleReq a (join sh sl) vs) =
        .frame .request (sealed (a :: 0x10#8 :: sh :: sl :: ch :: cl :: bc :: vals)) := by
  have hb : BitVec.ofNat 8 (2 * vs.length) = bc := by rw [← hbytes]; simp
  have hc : BitVec.ofNat 16 vs.length = join ch cl := by rw [← hcount]; simp
  constructor
  · have := bc.isLt
    simp only [Instr.wf, decide_eq_true_eq]
    omega
  · simp [encode, writeMultipleFrame, hb, hc, unpair_pairUp hvs]

/-- A request with the layout of a row of R78-R81 is read as an instruction of that row, and is its encoding. -/
theorem encode_of_requestRow {a fc : Byte} {X : List Byte} {i : Instr} (h : requestRow? a fc X = some i) :
    i.wf = true ∧ encode i = .frame .request (sealed (a :: fc :: X)) := by
  by_cases h03 : fc = 0x03#8
  · subst h03
    simp only [requestRow?, if_true] at h
    split at h
    case h_1 => obtain rfl := Option.some.inj h; simp [Instr.wf, encode, encodeRead]
    case h_2 => simp at h
  by_cases h04 : fc = 0x04#8
  · subst h04
    simp only [requestRow?, if_true, h03, if_false] at h
    split at h
    case h_1 => obtain rfl := Option.some.inj h; simp [Instr.wf, encode, encodeRead]
    case h_2 => simp at h
  by_cases h06 : fc = 0x06#8
  · subst h06
    simp only [requestRow?, if_true, h03, h04, if_false] at h
    split at h
    case h_1 => obtain rfl := Option.some.inj h; simp [Instr.wf, encode, writeSingleFrame]
    case h_2 => simp at h
  by_cases h10 : fc = 0x10#8
  · subst h10
    simp only [requestRow?, if_true, h03, h04, h06, if_false] at h
    split at h
    case h_1 =>
      split at h
      case h_1 hvs =>
        split at h
        case isTrue hn =>
          obtain rfl := Option.some.inj h
          exact encode_writeMultiple hvs hn.1 hn.2
        case isFalse => simp at h
      case h_2 => simp at h
    case h_2 => simp at h
  by_cases h42 : fc = 0x42#8
  · subst h42
    simp only [requestRow?, if_true, h03, h04, h06, h10, if_false] at h
    split at h
    case h_1 => obtain rfl := Option.some.inj h; simp [Instr.wf, encode, resetEnergyFrame, encodeCustom]
    case h_2 =>
      split at h
      case isTrue hz => obtain rfl := Option.some.inj h; simp [Instr.wf, encode, resetEnergyFrame, encodeCustom, hz]
      case isFalse => simp at h
    case h_3 => simp at h
  · simp [requestRow?, h03, h04, h06, h10, h42] at h

/-- A request that decodes is the encoding of the well-formed instruction it decodes to (R78-R82). -/
theorem encode_of_decodeRequest {a fc : Byte} {X : List Byte} {i : Instr} (h : decodeRequest a fc X = .ok i) :
    i.wf = true ∧ encode i = .frame .request (sealed (a :: fc :: X)) := by
  unfold decodeRequest at h
  split at h
  case h_1 hrow =>
    obtain rfl := Except.ok.inj h
    exact encode_of_requestRow hrow
  case h_2 hrow =>
    split at h
    case isTrue hlen =>
      obtain rfl := Except.ok.inj h
      exact ⟨by simp [Instr.wf, hrow, hlen], rfl⟩
    case isFalse => simp at h

/-! ### Responses -/

@[simp] theorem excBit_exception (func : BitVec 7) : excBit (func.setWidth 8 ||| 0x80#8) = true := by
  simp [excBit]

@[simp] theorem excBit_normal (func : BitVec 7) : excBit (func.setWidth 8) = false := by
  simp [excBit]

/-- A function byte is its low seven bits and the exception bit (R83, R87). -/
theorem setWidth_or_excBit (fc : Byte) :
    (fc.setWidth 7).setWidth 8 ||| (if excBit fc then 0x80#8 else 0#8) = fc := by
  have hbit : (if excBit fc then 0x80#8 else 0#8) = fc &&& BitVec.twoPow 8 7 := (BitVec.and_twoPow fc 7).symm
  rw [hbit]
  apply BitVec.eq_of_getLsbD_eq
  intro i hi
  simp only [BitVec.getLsbD_or, BitVec.getLsbD_setWidth, BitVec.getLsbD_and, BitVec.getLsbD_twoPow, hi]
  rcases (by omega : i < 7 ∨ i = 7) with h | rfl
  · simp [h, show 7 ≠ i by omega]
  · simp

/-- A response that decodes is the encoding of the well-formed instruction it decodes to (R83, R84). -/
theorem encode_of_decodeResponse {a fc : Byte} {X : List Byte} {i : Instr} (h : decodeResponse a fc X = .ok i) :
    i.wf = true ∧ encode i = .frame .response (sealed (a :: fc :: X)) := by
  have hfc := setWidth_or_excBit fc
  unfold decodeResponse at h
  split at h
  case isTrue hexc =>
    rw [if_pos hexc] at hfc
    split at h
    case h_1 => obtain rfl := Except.ok.inj h; simp [Instr.wf, encode, exceptionFrame, hfc]
    case h_2 => simp at h
  case isFalse hexc =>
    rw [if_neg hexc, BitVec.or_zero] at hfc
    split at h
    case h_1 n data =>
      split at h
      case isTrue hn =>
        obtain rfl := Except.ok.inj h
        have hcount : BitVec.ofNat 8 data.length = n := by rw [← hn]; simp
        have hlen : data.length ≤ 255 := by have := n.isLt; omega
        simp [Instr.wf, encode, readResponseFrame, hfc, hcount, hlen]
      case isFalse => simp at h
    case h_2 => simp at h

/-! ### The round trips -/

/-- Settles O1: a command word decodes to what it encodes; a frame is sealed, and its payload has the layout of its
row. -/
theorem decodeOfEncodeIsTheInstruction : Obligations.DecodeOfEncodeIsTheInstruction := by
  intro i hi
  cases i with
  | frameReadHoldingReq a x y | frameReadInputReq a x y =>
    simp [encode, decode, encodeRead, decodeFrame_request_sealed, decodeRequest, requestRow?]
  | frameWriteSingleReq a x v =>
    simp [encode, decode, writeSingleFrame, decodeFrame_request_sealed, decodeRequest, requestRow?]
  | frameWriteMultipleReq a x vs =>
    have hlen : vs.length ≤ 127 := by simpa [Instr.wf] using hi
    simp [encode, decode, writeMultipleFrame, decodeFrame_request_sealed, decodeRequest,
      requestRow_writeMultiple a x hlen]
  | frameResetEnergyReq a phase =>
    cases phase <;>
      simp [encode, decode, resetEnergyFrame, encodeCustom, decodeFrame_request_sealed, decodeRequest, requestRow?]
  | frameCustomReq a fc X =>
    obtain ⟨hlen, hrow⟩ : X.length ≤ 252 ∧ requestRow? a fc X = none := by simpa [Instr.wf] using hi
    simp [encode, decode, encodeCustom, decodeFrame_request_sealed, decodeRequest, hrow, hlen]
  | frameExceptionRsp a func code =>
    simp [encode, decode, exceptionFrame, decodeFrame_response_sealed, decodeResponse]
  | frameReadRsp a func data =>
    have hlen : data.length % 256 = data.length := Nat.mod_eq_of_lt (by simpa [Instr.wf, Nat.lt_succ_iff] using hi)
    simp [encode, decode, readResponseFrame, decodeFrame_response_sealed, decodeResponse, hlen]
  | _ => exact decodeCommand_of_encode rfl

/-- Every command is well formed: its operands are whole fields of the word. -/
theorem wf_of_encode_command {i : Instr} {w : DWord} (h : encode i = .command w) : i.wf = true := by
  cases i <;> simp [encode, Instr.wf] at h ⊢

/-- Settles O2: a command word by its fields, a frame by its address, function code, payload and CRC. -/
theorem encodeOfDecodeIsTheWord : Obligations.EncodeOfDecodeIsTheWord := by
  rintro (w | ⟨o, F⟩) i h
  · have he := encode_of_decodeCommand h
    exact ⟨wf_of_encode_command he, he⟩
  · replace h : decodeFrame o F = .ok i := h
    obtain ⟨a, fc, X, rfl⟩ := eq_sealed_of_decodeFrame h
    cases o with
    | request => exact encode_of_decodeRequest (decodeFrame_request_sealed a fc X ▸ h)
    | response => exact encode_of_decodeResponse (decodeFrame_response_sealed a fc X ▸ h)

end Sys2Proof

/-! PROOFS. Encoding (30_encoding.md R70, R72, R75): the rows of the opcode table, and the illegal words. -/

namespace Sys2Proof.Machine

open Laws.EncodedForm (reserved_commandWord)

/-! ### The rows of the opcode table -/

/-- A word that matches two rows has in both masks what each of their match values has. -/
theorem match_and_mask_eq {w : DWord} {r r' : DWord × DWord} (h : matchesRow w r) (h' : matchesRow w r') :
    r.2 &&& r'.1 = r'.2 &&& r.1 := by
  rw [← h, ← h', BitVec.and_assoc, BitVec.and_assoc, BitVec.and_comm r.1]

/-- A row bears on each field of the word on its own (R71). -/
theorem matchesRow_iff_fields {w : DWord} {r : DWord × DWord} :
    matchesRow w r ↔ opField w &&& opField r.1 = opField r.2 ∧ fcField w &&& fcField r.1 = fcField r.2 ∧
      (modField w && modField r.1) = modField r.2 ∧ reservedField w &&& reservedField r.1 = reservedField r.2 := by
  rw [matchesRow, dword_eq_iff_fields]
  simp only [opField, fcField, modField, reservedField, BitVec.extractLsb'_and, BitVec.getLsbD_and]

/-- The row of a command with `FC` 0 and either `MOD`. -/
theorem matches_mod_row_iff {w : DWord} {op : Byte} :
    matchesRow w (0xFFFEFFFF#32, commandWord op 0 false) ↔ w = commandWord op 0 (modField w) := by
  have hmask : opField 0xFFFEFFFF#32 = BitVec.allOnes 8 ∧ fcField 0xFFFEFFFF#32 = BitVec.allOnes 8 ∧
    modField 0xFFFEFFFF#32 = false ∧ reservedField 0xFFFEFFFF#32 = BitVec.allOnes 15 := by decide
  rw [matchesRow_iff_fields, dword_eq_iff_fields]
  simp only [hmask, BitVec.and_allOnes, Bool.and_false, opField_commandWord, fcField_commandWord,
    modField_commandWord, reserved_commandWord, true_and]

/-- The row of a command with every `FC` and no `MOD`. -/
theorem matches_code_row_iff {w : DWord} {op : Byte} :
    matchesRow w (0xFFFF00FF#32, commandWord op 0 false) ↔ w = commandWord op (fcField w) false := by
  have hmask : opField 0xFFFF00FF#32 = BitVec.allOnes 8 ∧ fcField 0xFFFF00FF#32 = 0#8 ∧
    modField 0xFFFF00FF#32 = true ∧ reservedField 0xFFFF00FF#32 = BitVec.allOnes 15 := by decide
  rw [matchesRow_iff_fields, dword_eq_iff_fields]
  simp only [hmask, BitVec.and_allOnes, BitVec.and_zero, BitVec.ofNat_eq_ofNat, Bool.and_true, opField_commandWord,
    fcField_commandWord, modField_commandWord, reserved_commandWord, true_and]

/-- The row of a command with one word. -/
theorem matches_full_row_iff {w v : DWord} : matchesRow w (0xFFFFFFFF#32, v) ↔ w = v := by
  rw [matchesRow, show 0xFFFFFFFF#32 = BitVec.allOnes 32 from rfl, BitVec.and_allOnes]

/-- The encoding of a command matches a row of the table (R72). -/
theorem exists_row_of_encode {i : Instr} {w : DWord} (h : encode i = .command w) :
    ∃ r ∈ commandRows, matchesRow w r := by
  cases i
  case encCustom fc =>
    obtain rfl := Fetched.command.inj h
    exact ⟨(0xFFFF00FF#32, 0x00000013#32), by decide, matches_code_row_iff (op := 0x13#8).2 (by simp)⟩
  case crcGen m | crcVerify m | encWriteSingle m | encWriteMultiple m | encResetEnergy m =>
    obtain rfl := Fetched.command.inj h
    unfold matchesRow
    cases m <;> decide
  case encReadHolding | encReadInput | dirTx | dirRx | txSend | rxDiscard | rxRead | decValidate | decExtract =>
    obtain rfl := Fetched.command.inj h
    unfold matchesRow
    decide
  all_goals simp [encode] at h

/-- A word that matches a row of the table is the encoding of a command (R72). -/
theorem exists_encode_of_row {w : DWord} : ∀ r ∈ commandRows, matchesRow w r → ∃ i, encode i = .command w := by
  have either (op : Byte) (k : Bool → Instr) (hk : ∀ m, encode (k m) = .command (commandWord op 0 m))
      (h : matchesRow w (0xFFFEFFFF#32, commandWord op 0 false)) : ∃ i, encode i = .command w :=
    ⟨k (modField w), by rw [hk, ← matches_mod_row_iff.1 h]⟩
  have one (i : Instr) {v : DWord} (hi : encode i = .command v) (h : matchesRow w (0xFFFFFFFF#32, v)) :
      ∃ i, encode i = .command w :=
    ⟨i, by rw [hi, matches_full_row_iff.1 h]⟩
  simp only [commandRows, List.forall_mem_cons]
  refine ⟨either 0x01 .crcGen fun _ => rfl, either 0x02 (fun m => .crcVerify (srcOf m)) (by decide),
    one .encReadHolding rfl, one .encReadInput rfl,
    either 0x11 (fun m => .encWriteSingle (ordOf m)) (by decide),
    either 0x12 (fun m => .encWriteMultiple (ordOf m)) (by decide),
    fun h => ⟨.encCustom (fcField w), congrArg Fetched.command (matches_code_row_iff (op := 0x13#8).1 h).symm⟩,
    either 0x14 (fun m => .encResetEnergy (formOf m)) (by decide),
    one .dirTx rfl, one .dirRx rfl, one .txSend rfl, one .rxDiscard rfl, one .rxRead rfl, one .decValidate rfl,
    one .decExtract rfl, fun _ hr => absurd hr List.not_mem_nil⟩

/-- Settles O3: a word that decodes is an encoding, and the encodings are the words of the rows; two rows differ in a
bit that both masks hold. -/
theorem commandWordsAreTheTableRows : Obligations.CommandWordsAreTheTableRows := by
  constructor
  · intro w
    simp only [decodeCommand_eq_ok_iff]
    exact ⟨fun ⟨_, h⟩ => exists_row_of_encode h, fun ⟨r, hr, h⟩ => exists_encode_of_row r hr h⟩
  · have apart : commandRows.Pairwise (fun r r' => r.2 &&& r'.1 ≠ r'.2 &&& r.1) := by decide
    exact apart.imp fun hne _ h => hne (match_and_mask_eq h.1 h.2)

/-! ### The illegal words -/

/-- The encoding of a command meets none of the conditions of R75. -/
theorem not_illegalWord_of_encode {i : Instr} {w : DWord} (h : encode i = .command w) : ¬ IllegalWord w := by
  have hres (op fc : Byte) (m : Bool) := reserved_commandWord op fc m
  cases i
  case crcGen | crcVerify | encWriteSingle | encWriteMultiple | encResetEnergy | encCustom | encReadHolding |
      encReadInput | dirTx | dirRx | txSend | rxDiscard | rxRead | decValidate | decExtract =>
    obtain rfl := Fetched.command.inj h
    simp [IllegalWord, plainOps, noModOps, hres]
  all_goals simp [encode] at h

/-- An opcode whose FC column is "0" is a command's for either `MOD`, or for `MOD` 0 only (R72). -/
theorem exists_encode_of_plainOp {op : Byte} {m : Bool} (hop : op ∈ plainOps) (hm : op ∈ noModOps → m = false) :
    ∃ i, encode i = .command (commandWord op 0 m) := by
  simp only [plainOps, List.mem_cons, List.not_mem_nil, or_false] at hop
  rcases hop with rfl | rfl | rfl | rfl | rfl | rfl | rfl | rfl | rfl | rfl | rfl | rfl
  · exact ⟨.crcGen m, rfl⟩
  · exact ⟨.crcVerify (srcOf m), by cases m <;> rfl⟩
  · exact ⟨.encWriteSingle (ordOf m), by cases m <;> rfl⟩
  · exact ⟨.encWriteMultiple (ordOf m), by cases m <;> rfl⟩
  · exact ⟨.encResetEnergy (formOf m), by cases m <;> rfl⟩
  · exact ⟨.dirTx, by rw [hm (by decide)]; rfl⟩
  · exact ⟨.dirRx, by rw [hm (by decide)]; rfl⟩
  · exact ⟨.txSend, by rw [hm (by decide)]; rfl⟩
  · exact ⟨.rxDiscard, by rw [hm (by decide)]; rfl⟩
  · exact ⟨.rxRead, by rw [hm (by decide)]; rfl⟩
  · exact ⟨.decValidate, by rw [hm (by decide)]; rfl⟩
  · exact ⟨.decExtract, by rw [hm (by decide)]; rfl⟩

/-- A word that R75 does not list is the encoding of a command. -/
theorem exists_encode_of_not_illegalWord {w : DWord} (h : ¬ IllegalWord w) : ∃ i, encode i = .command w := by
  simp only [IllegalWord, not_or, not_and, Decidable.not_not, Bool.not_eq_true] at h
  obtain ⟨hop, hres, hplain, hread, hmod⟩ := h
  rw [eq_commandWord hres]
  by_cases hp : opField w ∈ plainOps
  · rw [hplain hp]
    exact exists_encode_of_plainOp hp hmod
  by_cases h10 : opField w = 0x10#8
  · rw [hmod (by rw [h10]; decide), h10]
    by_cases h03 : fcField w = 0x03#8
    · exact ⟨.encReadHolding, by rw [h03]; rfl⟩
    · exact ⟨.encReadInput, by rw [hread h10 h03]; rfl⟩
  · have h13 := hop hp h10
    rw [hmod (by rw [h13]; decide), h13]
    exact ⟨.encCustom (fcField w), rfl⟩

/-- A word that R75 lists does not decode. -/
theorem decodeCommand_of_illegalWord {w : DWord} (h : IllegalWord w) : ∃ e, decodeCommand w = .error e := by
  cases hd : decodeCommand w with
  | error e => exact ⟨e, rfl⟩
  | ok i => exact absurd h (not_illegalWord_of_encode (encode_of_decodeCommand hd))

/-- A fetched word that does not decode only reports ERR_ILLEGAL_COMMAND (R70). -/
theorem runFetched_command_of_decode_error {w : DWord} {e : DecodeError} (h : decodeCommand w = .error e)
    (s : State) : runFetched (.command w) s = .next s.illegalCommand := by
  simp only [runFetched, decode, h]

/-- Settles O7: a word is the encoding of a command exactly if R75 does not list it, and a word that does not decode
ends as a command does. -/
theorem illegalWordsOnlyReport : Obligations.IllegalWordsOnlyReport := by
  constructor
  · intro w hw
    obtain ⟨i, hi⟩ := exists_encode_of_not_illegalWord hw
    exact ⟨i, decodeCommand_of_encode hi⟩
  · intro s rest w hin hw
    obtain ⟨e, he⟩ := decodeCommand_of_illegalWord hw
    exact ⟨_, (step_of_cmd_write hin).trans (runFetched_command_of_decode_error he _),
      State.complete_after_of (s := s) .illegalCommand rfl⟩

/-! ### Words written out from the spec -/

/-- Settles O4: each word and frame is a concrete one. -/
theorem specWordsDecodeToTheirInstructions : Obligations.SpecWordsDecodeToTheirInstructions := by
  refine ⟨rfl, rfl, rfl, rfl, rfl, rfl, ?_, ?_, ?_⟩ <;> decide +kernel

end Sys2Proof.Machine

/-! PROOFS. Encoding (30_encoding.md R78-R84): the frames a command builds, the responses a command takes, and the
frames that reach the receiver. -/

namespace Sys2Proof.Machine

open Laws.EncodedForm (verify_of_sealed)

variable {s t : State}

/-! ### What an ENC_* command leaves in `TXB` -/

/-- A command that puts the frame of a well-formed request leaves that request in `TXB[0:TXLEN)` (R120). -/
theorem putFrame_holds_request {P : List Byte} {i : Instr} (hwf : i.wf = true)
    (hi : encode i = .frame .request (sealed P)) :
    ∃ F, (s.putFrame (sealed P)).bytes .txb (s.putFrame (sealed P)).txlen = some F ∧
      decodeFrame .request F = .ok i := by
  obtain ⟨-, hbytes, -⟩ := s.putFrame_sealed P
  have hlen : (s.putFrame (sealed P)).txlen = P.length + 2 := by simp
  refine ⟨sealed P, by rw [hlen]; exact hbytes, ?_⟩
  have hround := decodeOfEncodeIsTheInstruction i hwf
  rwa [hi] at hround

/-- Settles O29: each command puts the encoding of its row, which decodes to it. -/
theorem encodedRequestsAreTheirWireFrames : Obligations.EncodedRequestsAreTheirWireFrames := by
  intro s a ha
  have slave {b : Byte} (hb : s.slave = some b) : b = a := Option.some.inj (hb.symm.trans ha)
  refine ⟨fun t h => ?_, fun t h => ?_, fun t h => ?_, fun V t hV h hok => ?_, fun t h => ?_, fun t h => ?_⟩
  · obtain ⟨b, hb, rfl⟩ := execEncReadHolding_next h
    obtain rfl := slave hb
    exact putFrame_holds_request rfl rfl
  · obtain ⟨b, hb, rfl⟩ := execEncReadInput_next h
    obtain rfl := slave hb
    exact putFrame_holds_request rfl rfl
  · obtain ⟨b, hb, rfl⟩ := execEncWriteSingle_next h
    obtain rfl := slave hb
    exact putFrame_holds_request rfl rfl
  · rcases execEncWriteMultiple_next h with ⟨-, rfl⟩ | ⟨b, W, hfit, hb, hW, rfl⟩
    · exact absurd hok (by simp)
    · obtain rfl := slave hb
      obtain rfl : W = V := Option.some.inj (hW.symm.trans hV)
      have hlen := (Memory.words_eq_some.1 hW).1
      simp only [writeMultipleFits, Bool.and_eq_true, decide_eq_true_eq] at hfit
      exact putFrame_holds_request (by simp only [Instr.wf, List.length_map, decide_eq_true_eq]; omega) rfl
  · obtain ⟨b, hb, rfl⟩ := execEncResetEnergy_next h
    obtain rfl := slave hb
    exact putFrame_holds_request rfl rfl
  · obtain ⟨b, hb, rfl⟩ := execEncResetEnergy_next h
    obtain rfl := slave hb
    exact putFrame_holds_request rfl rfl

/-! ### Responses in `RXB` -/

/-- Before the CRC of a sealed sequence stand its own bytes. -/
theorem byteAt_sealed {P : List Byte} {i : Nat} (h : i < P.length) : byteAt (sealed P) i = byteAt P i := by
  simp [byteAt, sealed_eq, List.getD, List.getElem?_append_left h]

/-- DEC_VALIDATE stores the validator's verdict over the response held (R171). -/
theorem exec_decValidate_of_bytes {r : List Byte} (h : s.bytes .rxb s.rxlen = some r) :
    exec .decValidate s = .next ((s.setValid false).judge r (validate r)).elapse := by
  simp only [exec, execDecValidate, State.response, h]

/-- An exception response is judged as one (R83, R170). -/
theorem validate_exceptionFrame (a : Byte) (func : BitVec 7) (code : Byte) :
    validate (exceptionFrame a func code) = .modbusException code := by
  have h1 : byteAt (exceptionFrame a func code) 1 = func.setWidth 8 ||| 0x80#8 := rfl
  have h2 : byteAt (exceptionFrame a func code) 2 = code := rfl
  have hver : verify (exceptionFrame a func code) = true := verify_of_sealed _
  have hlen : (exceptionFrame a func code).length = 5 := rfl
  simp [validate, h1, h2, hver, hlen]

/-- A read response is accepted (R84, R170). -/
theorem validate_readResponseFrame (a : Byte) (func : BitVec 7) (data : List Byte) :
    validate (readResponseFrame a func data) = .ok := by
  have h1 : byteAt (readResponseFrame a func data) 1 = func.setWidth 8 := rfl
  have hver : verify (readResponseFrame a func data) = true := verify_of_sealed _
  have hlen : 1 < (readResponseFrame a func data).length := by simp [readResponseFrame]
  simp [validate, h1, hver, hlen]

/-- Settles O44: the validator's verdict on the frame is its exception code. -/
theorem exceptionReplyIsReported : Obligations.ExceptionReplyIsReported := by
  intro s a func code hr
  refine ⟨_, exec_decValidate_of_bytes hr, ?_⟩
  rw [validate_exceptionFrame]
  exact ⟨rfl, rfl, rfl⟩

/-- DEC_EXTRACT, where the registers asked for lie before the CRC of a validated response (R176). -/
theorem exec_decExtract_of_fits {r : List Byte} {k : Nat} (hv : s.valid = true) (hr : s.bytes .rxb s.rxlen = some r)
    (hk : min s.arg0n ((byteAt r 2).toNat / 2) = k) (hfit : 3 + 2 * k + 2 ≤ s.rxlen) :
    exec .decExtract s = .next (((s.storeWords .rout (extractRegisters r s.arg0n)).setRegcnt k).complete .ok) := by
  have hbc := State.byte_of_bytes hr (show 2 < s.rxlen by omega)
  simp only [exec, execDecExtract, State.response, hv, hr, hbc, hk]
  rw [if_neg (by simp), if_neg (by omega), if_neg (by omega)]

@[simp] theorem length_registerBytes (regs : List Word) : (registerBytes regs).length = 2 * regs.length := by
  induction regs with
  | nil => rfl
  | cons w regs ih => simp [registerBytes, ih]; omega

/-- The two bytes of register `i` in a payload make up the register (R58). -/
theorem join_registerBytes {regs : List Word} {i : Nat} (h : i < regs.length) :
    join (byteAt (registerBytes regs) (2 * i)) (byteAt (registerBytes regs) (2 * i + 1)) = regs[i] := by
  induction regs generalizing i with
  | nil => simp at h
  | cons w regs ih =>
    cases i with
    | zero => simp [registerBytes, byteAt]
    | succ i => simpa [registerBytes, byteAt, Nat.mul_succ] using ih (i := i) (by simpa using h)

theorem byteAt_readResponse (a : Byte) (func : BitVec 7) {data : List Byte} {i : Nat} (h : i < data.length) :
    byteAt (readResponseFrame a func data) (3 + i) = byteAt data i := by
  rw [readResponseFrame, byteAt_sealed (by simp; omega), Nat.add_comm]
  rfl

/-- The byte count of a read response is twice the number of its registers (R84). -/
theorem registerCount_readResponse (a : Byte) (func : BitVec 7) {regs : List Word} (h : regs.length ≤ 127) :
    (byteAt (readResponseFrame a func (registerBytes regs)) 2).toNat / 2 = regs.length := by
  have h2 : byteAt (readResponseFrame a func (registerBytes regs)) 2 = BitVec.ofNat 8 (registerBytes regs).length :=
    rfl
  rw [h2, BitVec.toNat_ofNat, length_registerBytes]
  omega

/-- Extraction takes from a read response the registers it carries, as many as asked for (R84, R175). -/
theorem extractRegisters_readResponse (a : Byte) (func : BitVec 7) {regs : List Word} (h : regs.length ≤ 127)
    (n : Nat) :
    extractRegisters (readResponseFrame a func (registerBytes regs)) n = regs.take (min n regs.length) := by
  have hcount := registerCount_readResponse a func h
  refine List.ext_getElem (by simp [length_extractRegisters, hcount]) fun i hi _ => ?_
  rw [length_extractRegisters, hcount] at hi
  have hbyte {j : Nat} (hj : j < 2 * regs.length) := byteAt_readResponse a func
    (show j < (registerBytes regs).length by rwa [length_registerBytes])
  have hhi := hbyte (show 2 * i < 2 * regs.length by omega)
  have hlo := hbyte (show 2 * i + 1 < 2 * regs.length by omega)
  rw [show 3 + (2 * i + 1) = 4 + 2 * i by omega] at hlo
  simp only [extractRegisters, List.getElem_map, List.getElem_range, List.getElem_take, hhi, hlo]
  exact join_registerBytes (by omega)

/-- Settles O45: the response is accepted, its byte count is right for every number asked for, and what is stored in
`ROUT` is read back. -/
theorem readReplyDeliversItsRegisters : Obligations.ReadReplyDeliversItsRegisters := by
  intro s a func regs hregs hr
  refine ⟨_, exec_decValidate_of_bytes hr, ?_⟩
  rw [validate_readResponseFrame]
  refine ⟨rfl, rfl, fun num => ?_⟩
  have hlen : (readResponseFrame a func (registerBytes regs)).length = s.rxlen := Memory.length_of_bytes hr
  simp only [readResponseFrame, length_sealed, List.length_append, length_registerBytes, List.length_cons,
    List.length_nil] at hlen
  refine ⟨_, exec_decExtract_of_fits (k := min num.toNat regs.length) rfl hr ?_ ?_, rfl, rfl, ?_⟩
  · rw [registerCount_readResponse a func hregs]
  · show _ ≤ s.rxlen
    omega
  · have hk : (regs.take (min num.toNat regs.length)).length = min num.toNat regs.length := by simp
    have hstored := Memory.words_storeWords s.mem (Buf.rout.addr 0) (regs.take (min num.toNat regs.length))
    rw [hk] at hstored
    rw [extractRegisters_readResponse a func hregs]
    exact hstored

/-! ### Frames on the wire -/

/-- The bytes of a word below 256. -/
theorem halves_ofNat {n : Nat} (h : n < 256) :
    hi (BitVec.ofNat 16 n) = 0x00#8 ∧ lo (BitVec.ofNat 16 n) = BitVec.ofNat 8 n := by
  have hjoin : BitVec.ofNat 16 n = join 0x00#8 (BitVec.ofNat 8 n) := by
    apply BitVec.eq_of_toNat_eq
    have h16 : n % 2 ^ 16 = n := Nat.mod_eq_of_lt (by omega)
    have h8 : n % 2 ^ 8 = n := Nat.mod_eq_of_lt h
    simp only [join, BitVec.toNat_append, BitVec.toNat_ofNat, h16, h8, Nat.zero_mod, Nat.zero_shiftLeft,
      Nat.zero_or]
  rw [hjoin]
  exact ⟨hi_join _ _, lo_join _ _⟩

/-- Settles O46: a frame is delivered byte by byte, and its bytes are its layout with the CRC behind it. -/
theorem wireFramesReachTheReceiver : Obligations.WireFramesReachTheReceiver := by
  intro s a fc code func x y v vs X sends
  have sent (P : List Byte) : Delivered s (s.deliver (sealed P)) (P ++ [lo (crc16 P), hi (crc16 P)]) :=
    s.deliver_delivered (sealed P)
  refine ⟨⟨_, rfl, sent _⟩, ⟨_, rfl, sent _⟩, ⟨_, rfl, sent _⟩, fun hvs => ⟨_, rfl, ?_⟩, ⟨_, rfl, sent _⟩,
    ⟨_, rfl, sent _⟩, ⟨_, rfl, sent _⟩, ⟨_, rfl, sent _⟩, ⟨_, rfl, sent _⟩⟩
  obtain ⟨hhi, hlo⟩ := halves_ofNat (n := vs.length) (by omega)
  rw [← unpair_eq_flatMap, writeMultipleFrame, hhi, hlo]
  exact sent _

end Sys2Proof.Machine

/-! PROOFS. The CRC16 engine (40_crc.md): one byte step of the register is one to one in the register and in the byte,
which gives the residue and every single-bit error; then what the two commands answer. -/

namespace Sys2Proof

open Laws.EncodedForm (verify_of_sealed)

/-! ### The register -/

/-- A shift of R100 bit by bit: bit 0 is folded back where the polynomial has a bit. -/
theorem getLsbD_crcBit (c : Word) (i : Nat) :
    (crcBit c).getLsbD i = (c.getLsbD (i + 1) ^^ (c.getLsbD 0 && (0xA001#16).getLsbD i)) := by
  unfold crcBit
  split <;> rename_i h0 <;> simp only [h0, BitVec.getLsbD_xor, BitVec.getLsbD_ushiftRight, Nat.add_comm 1 i,
    Bool.true_and, Bool.false_and, Bool.xor_false]

/-- The polynomial has bit 15 and a right shift does not reach it, so bit 0 is not lost. -/
theorem crcBit_injective : Function.Injective crcBit := by
  intro c d h
  have hbit (i : Nat) : (c.getLsbD (i + 1) ^^ (c.getLsbD 0 && (0xA001#16).getLsbD i)) =
      (d.getLsbD (i + 1) ^^ (d.getLsbD 0 && (0xA001#16).getLsbD i)) := by
    rw [← getLsbD_crcBit, ← getLsbD_crcBit, h]
  have h0 : c.getLsbD 0 = d.getLsbD 0 := by simpa using hbit 15
  apply BitVec.eq_of_getLsbD_eq
  intro i _
  cases i with
  | zero => exact h0
  | succ i => simpa only [h0, Bool.xor_left_inj] using hbit i

theorem crcBits_injective (n : Nat) : Function.Injective (crcBits n) := by
  induction n with
  | zero => exact Function.injective_id
  | succ n ih => exact ih.comp crcBit_injective

/-- Where the bits shifted out are 0 the polynomial is not used. -/
theorem crcBits_of_low_zero {n : Nat} {c : Word} (h : ∀ i, i < n → c.getLsbD i = false) : crcBits n c = c >>> n := by
  induction n generalizing c with
  | zero => simp [crcBits]
  | succ n ih =>
    have hbit : crcBit c = c >>> 1 := by rw [crcBit, h 0 n.succ_pos, if_neg Bool.false_ne_true]
    rw [crcBits, hbit, ih fun i hi => by simpa [Nat.add_comm] using h (i + 1) (by omega), ← BitVec.shiftRight_add,
      Nat.add_comm]

/-- A byte as a word has it in the low half (R10). -/
theorem setWidth_eq_join (b : Byte) : b.setWidth 16 = join 0 b := BitVec.setWidth_eq_append (by decide)

theorem getLsbD_join (h l : Byte) (i : Nat) :
    (join h l).getLsbD i = if i < 8 then l.getLsbD i else h.getLsbD (i - 8) :=
  BitVec.getLsbD_append

/-- The byte step forgets no register value. -/
theorem crcByte_left_inj {c d : Word} {b : Byte} : crcByte c b = crcByte d b ↔ c = d := by
  rw [crcByte, crcByte, (crcBits_injective 8).eq_iff, BitVec.xor_left_inj]

/-- The byte step tells any two bytes apart. -/
theorem crcByte_right_inj {c : Word} {a b : Byte} : crcByte c a = crcByte c b ↔ a = b := by
  rw [crcByte, crcByte, (crcBits_injective 8).eq_iff, BitVec.xor_right_inj, setWidth_eq_join, setWidth_eq_join, join,
    join, BitVec.append_right_inj]

theorem crcFrom_injective (S : List Byte) : Function.Injective (crcFrom · S) := by
  induction S with
  | nil => exact Function.injective_id
  | cons b S ih => exact fun c d h => crcByte_left_inj.1 (ih h)

/-! ### The residue -/

/-- A byte equal to the register's low half is shifted out and leaves the high half. -/
theorem crcByte_join (h l : Byte) : crcByte (join h l) l = join 0 h := by
  have hx : join h l ^^^ l.setWidth 16 = join h 0 := by
    rw [setWidth_eq_join, join, join, BitVec.xor_append, BitVec.xor_self]
    simp [join]
  have hlow : ∀ i, i < 8 → (join h 0).getLsbD i = false := fun i hi => by simp [getLsbD_join, hi]
  rw [crcByte, hx, crcBits_of_low_zero hlow]
  apply BitVec.eq_of_getLsbD_eq
  intro i _
  have hi : ¬ 8 + i < 8 := by omega
  rw [BitVec.getLsbD_ushiftRight, getLsbD_join, getLsbD_join, if_neg hi, Nat.add_sub_cancel_left]
  split
  · rfl
  · rw [BitVec.getLsbD_of_ge _ _ (by omega)]
    exact BitVec.getLsbD_zero.symm

theorem crcByte_eq_join_iff {c : Word} {h l : Byte} : crcByte c l = join 0 h ↔ c = join h l := by
  rw [← crcByte_join h l, crcByte_left_inj]

/-- The residue is 0 exactly for the register's own bytes, low byte first. -/
theorem crcFrom_pair_eq_zero_iff {c : Word} {l h : Byte} : crcFrom c [l, h] = 0 ↔ c = join h l := by
  rw [← crcByte_eq_join_iff, ← crcByte_eq_join_iff]
  rfl

/-- A sequence too short to hold a CRC is a mismatch (R102). -/
theorem verify_of_short {F : List Byte} (h : F.length < 2) : verify F = false := by
  simp [verify, h]

/-- R106 from R102. -/
theorem verify_iff_residue {F : List Byte} (h : 2 ≤ F.length) : verify F = true ↔ crc16 F = 0 := by
  rw [eq_body_append h, verify_append_two, decide_eq_true_iff, crc16_append, crcFrom_pair_eq_zero_iff]

/-- Settles O19: the register's own bytes take it to 0, and no other two bytes do. -/
theorem crcResidueIsZero : Obligations.CrcResidueIsZero :=
  ⟨fun S => (verify_iff_residue (by simp [crc16le, le16])).1 (verify_of_sealed S), fun _ => verify_iff_residue⟩

/-! ### Single-byte errors -/

/-- A sequence with one byte replaced has the same CRC only where the byte is the same. -/
theorem eq_of_crcFrom_set_eq {c : Word} {F : List Byte} {i : Nat} {a b : Byte} (hb : F[i]? = some b)
    (h : crcFrom c (F.set i a) = crcFrom c F) : a = b := by
  induction F generalizing c i with
  | nil => simp at hb
  | cons x F ih =>
    cases i with
    | zero =>
      obtain rfl : x = b := by simpa using hb
      exact crcByte_right_inj.1 (crcFrom_injective F h)
    | succ i => exact ih (by simpa using hb) h

/-- Replacing any one byte of a sequence that verifies by another value makes it fail. -/
theorem verify_set_of_ne {F : List Byte} {i : Nat} {a b : Byte} (hF : verify F = true) (hb : F[i]? = some b)
    (hne : a ≠ b) : verify (F.set i a) = false := by
  have hlen : 2 ≤ F.length := by
    by_contra hshort
    simp [verify_of_short (not_le.1 hshort)] at hF
  rw [← Bool.not_eq_true, verify_iff_residue (by simpa using hlen)]
  intro hset
  exact hne (eq_of_crcFrom_set_eq hb (hset.trans ((verify_iff_residue hlen).1 hF).symm))

/-- Settles O18: a flipped bit is another byte, and no other byte in one place keeps the residue. -/
theorem crcRoundTripAndSingleBitFlips : Obligations.CrcRoundTripAndSingleBitFlips := by
  refine fun S => ⟨verify_of_sealed S, fun i k b hk hb => verify_set_of_ne (verify_of_sealed S) hb fun h => ?_⟩
  have hbit := congrArg (·.getLsbD k) h
  simp [hk] at hbit

end Sys2Proof

namespace Sys2Proof.Machine

open Laws.EncodedForm (verify_of_sealed)

variable {s : State}

/-! ### The commands -/

/-- CRC_GEN, where the data or the appended CRC does not fit (R103). -/
theorem exec_crcGen_of_not_fits {append : Bool}
    (h : s.params.txbCap < s.arg0n ∨ (append = true ∧ s.params.txbCap < s.arg0n + 2)) :
    exec (.crcGen append) s = .next (s.complete .invalidArgument) := by
  simp only [exec, execCrcGen, Bool.and_eq_true, decide_eq_true_eq]
  rcases h with h | h
  · rw [if_pos h]
  · rw [if_pos h, ite_self]

/-- CRC_GEN, where everything fits but an element of the data holds no value (R103). -/
theorem exec_crcGen_of_none {append : Bool}
    (hfit : ¬ (s.params.txbCap < s.arg0n ∨ (append = true ∧ s.params.txbCap < s.arg0n + 2)))
    (hdata : s.bytes .txb s.arg0n = none) : exec (.crcGen append) s = .fault .unwrittenRead := by
  obtain ⟨hn, ha⟩ := not_or.1 hfit
  simp only [exec, execCrcGen, Bool.and_eq_true, decide_eq_true_eq, hn, ha, if_false, hdata]

/-- CRC_GEN, where everything fits and the data holds values (R103). -/
theorem exec_crcGen_of_some {append : Bool} {data : List Byte}
    (hfit : ¬ (s.params.txbCap < s.arg0n ∨ (append = true ∧ s.params.txbCap < s.arg0n + 2)))
    (hdata : s.bytes .txb s.arg0n = some data) :
    exec (.crcGen append) s = .next
      (if append then (((s.setCrc (crc16 data)).storeBytes .txb s.arg0n (crc16le data)).setTxlen
          (s.arg0n + 2)).complete .ok
        else (s.setCrc (crc16 data)).complete .ok) := by
  obtain ⟨hn, ha⟩ := not_or.1 hfit
  simp only [exec, execCrcGen, Bool.and_eq_true, decide_eq_true_eq, hn, ha, if_false, hdata]
  cases append <;> rfl

/-- Settles O21: what CRC_GEN answers in each case, and what the append leaves in `TXB`. -/
theorem crcGenFollowsItsRule : Obligations.CrcGenFollowsItsRule := by
  refine ⟨rfl, rfl, fun append s => ⟨fun h => ⟨_, exec_crcGen_of_not_fits h, s.complete_after _⟩, fun hn ha => ?_⟩⟩
  have hfit : ¬ (s.params.txbCap < s.arg0n ∨ (append = true ∧ s.params.txbCap < s.arg0n + 2)) :=
    not_or.2 ⟨hn.not_gt, fun ⟨happend, h⟩ => (ha happend).not_gt h⟩
  refine ⟨exec_crcGen_of_none hfit, fun data hdata => ⟨?_, ?_⟩⟩
  · rintro rfl
    exact ⟨_, exec_crcGen_of_some hfit hdata, State.complete_after_of (u := s.setCrc _) .ok rfl⟩
  · rintro rfl
    refine ⟨_, exec_crcGen_of_some hfit hdata, ⟨Nat.le_add_right _ _, rfl⟩, ?_, verify_of_sealed data, ?_⟩
    · exact State.bytes_storeBytes (s := s) (F := crc16le data) hdata
    · exact s.sameOutside_storeBytes .txb s.arg0n (crc16le data)

/-- CRC_VERIFY on `TXB`, where the frame does not fit (R104). -/
theorem exec_crcVerify_of_not_fits (h : s.params.txbCap < s.arg0n) :
    exec (.crcVerify .txb) s = .next (s.complete .invalidArgument) := by
  simp only [exec, execCrcVerify, h, true_and, if_true]

/-- CRC_VERIFY, where an element of the frame holds no value (R104). -/
theorem exec_crcVerify_of_none {src : CrcSource} (hfit : src = .txb → s.arg0n ≤ s.params.txbCap)
    (hF : s.verifySource src = none) : exec (.crcVerify src) s = .fault .unwrittenRead := by
  simp only [exec, execCrcVerify, hF]
  rw [if_neg fun ⟨hsrc, hlt⟩ => absurd (hfit hsrc) (by omega)]

/-- CRC_VERIFY, where the frame holds values: `CRC` is written where a frame has room for one (R104). -/
theorem exec_crcVerify_of_some {src : CrcSource} {F : List Byte} (hfit : src = .txb → s.arg0n ≤ s.params.txbCap)
    (hF : s.verifySource src = some F) :
    exec (.crcVerify src) s = .next (State.complete
      { s with crc := if 2 ≤ F.length then crc16 (body F) else s.crc } (if verify F then .ok else .crc)) := by
  simp only [exec, execCrcVerify, hF]
  rw [if_neg fun ⟨hsrc, hlt⟩ => absurd (hfit hsrc) (by omega)]
  split <;> rfl

/-- Settles O22: the frame checked is the one the source names, and every case ends in one `finish`. -/
theorem crcVerifyFollowsItsRule : Obligations.CrcVerifyFollowsItsRule := by
  refine ⟨rfl, rfl, fun src s => ?_⟩
  intro F?
  have hsource : s.verifySource src = F? := by cases src <;> rfl
  refine ⟨?_, fun hfit => ⟨fun hnone => ?_, fun F hF => ?_⟩⟩
  · rintro rfl hlt
    exact ⟨_, exec_crcVerify_of_not_fits hlt, s.complete_after _⟩
  · exact exec_crcVerify_of_none hfit (hsource.trans hnone)
  · refine ⟨_, exec_crcVerify_of_some hfit (hsource.trans hF), ⟨Nat.le_add_right _ _, rfl⟩, fun hshort => ?_⟩
    simp [verify_of_short hshort]

end Sys2Proof.Machine

/-! PROOFS. The frame encoder (41_encoder.md R120-R132): the frames and their words, then what each ENC_* command
answers, from the two shapes the six commands have. -/

namespace Sys2Proof.Machine

open Laws.EncodedForm (verify_of_sealed)

variable {s : State} {i : Instr}

/-! ### The frames -/

/-- Settles O28: every frame is a sealed sequence, which verifies and is two bytes longer than what it seals. -/
theorem encodedFramesHaveTheirLengthAndVerify : Obligations.EncodedFramesHaveTheirLengthAndVerify := by
  intro fc a phase start count V X ord
  have hmultiple : (encodeWriteMultiple a start V ord).length = 9 + 2 * V.length := by
    simp only [encodeWriteMultiple, writeMultipleFrame, length_sealed, List.length_append, length_unpair,
      List.length_map, List.length_cons, List.length_nil]
    omega
  have hcustom : (encodeCustom a fc X).length = 4 + X.length := by
    simp only [encodeCustom, length_sealed, List.length_append, List.length_cons, List.length_nil]
    omega
  exact ⟨rfl, verify_of_sealed _, rfl, verify_of_sealed _, hmultiple, verify_of_sealed _, hcustom, verify_of_sealed _,
    rfl, verify_of_sealed _, rfl, verify_of_sealed _⟩

/-- The write-multiple frame of as many values as the count `n` says, value by value in the order chosen (R121,
R124). -/
theorem encodeWriteMultiple_eq_sealed {V : List Word} {n : Word} (h : V.length = n.toNat) (a : Byte) (start : Word)
    (ord : ByteOrder) :
    encodeWriteMultiple a start V ord =
      sealed ([a, 0x10#8, hi start, lo start, hi n, lo n, BitVec.ofNat 8 (2 * n.toNat)] ++
        V.flatMap fun v => match ord with
          | .highFirst => [hi v, lo v]
          | .lowFirst => [lo v, hi v]) := by
  rw [encodeWriteMultiple, writeMultipleFrame, List.length_map, h, BitVec.ofNat_toNat, BitVec.setWidth_eq,
    unpair_eq_flatMap, List.flatMap_map]
  cases ord <;> rfl

/-- A command word written as its shifted function code over its opcode (R88). -/
theorem shift_or_eq_commandWord (op fc : Byte) :
    (fc.setWidth 32 <<< 8) ||| op.setWidth 32 = commandWord op fc false := by
  apply BitVec.eq_of_getLsbD_eq
  intro k hk
  simp only [commandWord, BitVec.getLsbD_or, BitVec.getLsbD_shiftLeft, BitVec.getLsbD_setWidth, BitVec.getLsbD_append]
  rcases (by omega : k < 8 ∨ 8 ≤ k ∧ k < 16 ∨ 16 ≤ k) with h | h | h
  · simp [h, hk]
  · simp [hk, show ¬ k < 8 by omega, show k - 8 < 8 by omega, show k - 8 < 32 by omega, BitVec.getLsbD_of_ge op k h.1]
  · simp [hk, show ¬ k < 8 by omega, show ¬ k - 8 < 8 by omega, BitVec.getLsbD_of_ge op k (by omega),
      BitVec.getLsbD_of_ge fc (k - 8) (by omega)]

/-! ### The two shapes of an ENC_* command -/

/-- A command whose only value that may be missing is `SLAVE`: a fault without it, else the frame of `P` (R120). -/
structure Encodes (i : Instr) (s : State) (P : Byte → List Byte) : Prop where
  noSlave : s.slave = none → exec i s = .fault .unwrittenRead
  completes : ∀ a, s.slave = some a → ∃ t, exec i s = .next t ∧ FrameWritten s t (P a)

/-- A meaning that only reads `SLAVE` and puts a sealed frame has the first shape. -/
theorem encodes_of_exec {P : Byte → List Byte}
    (h : exec i s = s.slave.elim (.fault .unwrittenRead) fun a => .next (s.putFrame (sealed (P a)))) :
    Encodes i s P where
  noSlave hslave := by rw [h, hslave, Option.elim_none]
  completes a hslave := ⟨_, by rw [h, hslave, Option.elim_some], s.putFrame_sealed _⟩

/-- A command that also encodes an operand `x?` from a buffer: after `SLAVE` it checks that the operand fits, and
only then reads it (R120, R129, R131; log 10). -/
structure EncodesOperand {α : Type} (i : Instr) (s : State) (fits : Prop) (x? : Option α)
    (P : Byte → α → List Byte) : Prop where
  noSlave : s.slave = none → exec i s = .fault .unwrittenRead
  rejects : ∀ a, s.slave = some a → ¬ fits →
    ∃ t, exec i s = .next t ∧ After s t { s with res := .invalidArgument, exc := 0 }
  noOperand : ∀ a, s.slave = some a → fits → x? = none → exec i s = .fault .unwrittenRead
  completes : ∀ a x, s.slave = some a → fits → x? = some x → ∃ t, exec i s = .next t ∧ FrameWritten s t (P a x)

/-- A meaning with the three checks in R120's order, whose frame of a value read is a sealed one, has the second
shape. -/
theorem encodesOperand_of_exec {α : Type} {fits : Prop} {b : Bool} {x? : Option α} {F P : Byte → α → List Byte}
    (h : exec i s = s.slave.elim (.fault .unwrittenRead) fun a =>
      if b then x?.elim (.fault .unwrittenRead) fun x => .next (s.putFrame (F a x))
      else .next (s.complete .invalidArgument))
    (hb : b = true ↔ fits) (hF : ∀ a x, x? = some x → F a x = sealed (P a x)) :
    EncodesOperand i s fits x? P where
  noSlave hslave := by rw [h, hslave, Option.elim_none]
  rejects a hslave hfit :=
    ⟨_, by rw [h, hslave, Option.elim_some, if_neg (hb.not.2 hfit)], s.complete_after _⟩
  noOperand a hslave hfit hx := by rw [h, hslave, Option.elim_some, if_pos (hb.2 hfit), hx, Option.elim_none]
  completes a x hslave hfit hx :=
    ⟨_, by rw [h, hslave, Option.elim_some, if_pos (hb.2 hfit), hx, Option.elim_some, hF a x hx],
      s.putFrame_sealed _⟩

/-! ### The commands, each in its shape -/

/-- ENC_READ with `FC = 0x03` (R127). -/
theorem encReadHolding_encodes (s : State) :
    Encodes .encReadHolding s fun a => [a, 0x03#8, hi s.arg0, lo s.arg0, hi s.arg1, lo s.arg1] := by
  apply encodes_of_exec
  simp only [exec, execEncReadHolding]
  cases s.slave <;> rfl

/-- ENC_READ with `FC = 0x04` (R127). -/
theorem encReadInput_encodes (s : State) :
    Encodes .encReadInput s fun a => [a, 0x04#8, hi s.arg0, lo s.arg0, hi s.arg1, lo s.arg1] := by
  apply encodes_of_exec
  simp only [exec, execEncReadInput]
  cases s.slave <;> rfl

/-- ENC_WRITE_SINGLE: the value's bytes in the order chosen (R128). -/
theorem encWriteSingle_encodes (ord : ByteOrder) (s : State) :
    Encodes (.encWriteSingle ord) s fun a =>
      [a, 0x06#8, hi s.arg0, lo s.arg0, (orderPair ord s.arg1).1, (orderPair ord s.arg1).2] := by
  apply encodes_of_exec
  simp only [exec, execEncWriteSingle]
  cases s.slave <;> rfl

/-- ENC_RESET_ENERGY: the phase byte is `ARG0[7:0]` (R130). -/
theorem encResetEnergy_encodes (form : ResetForm) (s : State) :
    Encodes (.encResetEnergy form) s fun a => match form with
      | .bare => [a, 0x42#8]
      | .phase => [a, 0x42#8, 0x00#8, lo s.arg0] := by
  apply encodes_of_exec
  simp only [exec, execEncResetEnergy]
  cases s.slave <;> cases form <;> rfl

/-- ENC_WRITE_MULTIPLE: `SLAVE`, then capacity, then the values (R129; log 10). -/
theorem exec_encWriteMultiple (ord : ByteOrder) (s : State) :
    exec (.encWriteMultiple ord) s = s.slave.elim (.fault .unwrittenRead) fun a =>
      if writeMultipleFits s.params s.arg1n then (s.words .win s.arg1n).elim (.fault .unwrittenRead) fun V =>
        .next (s.putFrame (encodeWriteMultiple a s.arg0 V ord))
      else .next (s.complete .invalidArgument) := by
  simp only [exec, execEncWriteMultiple]
  cases s.slave <;> cases s.words .win s.arg1n <;> rfl

/-- ENC_CUSTOM: `SLAVE`, then capacity, then the extra bytes (R131; log 10). -/
theorem exec_encCustom (fc : Byte) (s : State) :
    exec (.encCustom fc) s = s.slave.elim (.fault .unwrittenRead) fun a =>
      if customFits s.params s.arg1n then (s.bytes .xb s.arg1n).elim (.fault .unwrittenRead) fun X =>
        .next (s.putFrame (encodeCustom a fc X))
      else .next (s.complete .invalidArgument) := by
  simp only [exec, execEncCustom]
  cases s.slave <;> cases s.bytes .xb s.arg1n <;> rfl

/-! ### The rules -/

/-- Settles O25: as many values as `ARG1` says are read, so that the frame's count field is `ARG1`. -/
theorem encWriteMultipleFollowsItsRule : Obligations.EncWriteMultipleFollowsItsRule := by
  refine ⟨rfl, rfl, fun ord s => ?_⟩
  intro n fits
  have hfits : writeMultipleFits s.params n = true ↔ fits := by
    simp only [writeMultipleFits, Bool.and_eq_true, decide_eq_true_eq, and_assoc, fits]
  have henc := encodesOperand_of_exec (exec_encWriteMultiple ord s) hfits fun a V hV =>
    encodeWriteMultiple_eq_sealed (Memory.words_eq_some.1 hV).1 a s.arg0 ord
  exact ⟨henc.noSlave, fun a ha => ⟨henc.rejects a ha, henc.noOperand a ha, fun V => henc.completes a V ha⟩⟩

/-- Settles O27: any `FC` is the operand of a command word, and the frame seals `XB[0:m)` behind it. -/
theorem encCustomFollowsItsRule : Obligations.EncCustomFollowsItsRule := by
  refine ⟨fun fc => ?_, fun fc s => ?_⟩
  · exact decodeCommand_of_encode (congrArg Fetched.command (shift_or_eq_commandWord 0x13#8 fc).symm)
  · intro m fits
    have hfits : customFits s.params m = true ↔ fits := by
      simp only [customFits, Bool.and_eq_true, decide_eq_true_eq, fits]
    have henc := encodesOperand_of_exec (P := fun a X => [a, fc] ++ X) (exec_encCustom fc s) hfits
      fun a X _ => rfl
    exact ⟨henc.noSlave, fun a ha => ⟨henc.rejects a ha, henc.noOperand a ha, fun X => henc.completes a X ha⟩⟩

/-- Settles O23: R75 lists every word with another `FC`; the two forms have one shape. -/
theorem encReadFollowsItsRule : Obligations.EncReadFollowsItsRule := by
  refine ⟨rfl, rfl, fun fc h3 h4 => ?_, fun s => ⟨fun hnone => ?_, fun a ha => ?_⟩⟩
  · have hillegal : IllegalWord (commandWord 0x10#8 fc false) :=
      .inr (.inr (.inr (.inl (by simpa using ⟨h3, h4⟩))))
    rw [← shift_or_eq_commandWord] at hillegal
    exact decodeCommand_of_illegalWord hillegal
  · exact ⟨(encReadHolding_encodes s).noSlave hnone, (encReadInput_encodes s).noSlave hnone⟩
  · exact ⟨(encReadHolding_encodes s).completes a ha, (encReadInput_encodes s).completes a ha⟩

/-- Settles O24: both byte orders have one shape, with the value's pair in the order chosen. -/
theorem encWriteSingleFollowsItsRule : Obligations.EncWriteSingleFollowsItsRule :=
  ⟨rfl, rfl, fun s => ⟨fun hnone ord => (encWriteSingle_encodes ord s).noSlave hnone, fun a ha =>
    ⟨(encWriteSingle_encodes .highFirst s).completes a ha, (encWriteSingle_encodes .lowFirst s).completes a ha⟩⟩⟩

/-- Settles O26: each form is by definition the custom frame for 0x42 with its extra bytes (R126). -/
theorem encResetEnergyFollowsItsRule : Obligations.EncResetEnergyFollowsItsRule :=
  ⟨rfl, rfl, fun _ _ => ⟨rfl, rfl⟩, fun s => ⟨fun hnone form => (encResetEnergy_encodes form s).noSlave hnone,
    fun a ha => ⟨(encResetEnergy_encodes .bare s).completes a ha, (encResetEnergy_encodes .phase s).completes a ha⟩⟩⟩

end Sys2Proof.Machine

/-! PROOFS. The transceiver director (42_transceiver.md R140-R146): what the four commands of the director and the
line answer, which instructions turn the director, and that it agrees with its line when bytes are handed over. -/

namespace Sys2Proof.Machine

variable {s t : State}

/-! ### DIR_TX and DIR_RX -/

/-- With a line, turning the director and reporting takes exactly the settle delay (R141, R142; log 16). -/
theorem State.turn_finish_of_line (h : s.params.dePresent = true) (level : Bool) (d : Director) :
    (s.turn level d).finish .ok =
      { s with res := .ok, exc := 0, de := level, dir := d, now := s.now + s.params.settle } := by
  rw [State.turn, if_pos h]
  rfl

/-- Without a line, turning the director only reports (R140). -/
theorem State.turn_finish_of_no_line (h : s.params.dePresent = false) (level : Bool) (d : Director) :
    (s.turn level d).finish .ok = { s with res := .ok, exc := 0 } := by
  rw [State.turn, if_neg (Bool.eq_false_iff.1 h)]
  rfl

/-- Settles O30: DIR_TX turns the director to Transmit with the line high. -/
theorem dirTxFollowsItsRule : Obligations.DirTxFollowsItsRule :=
  ⟨rfl, fun _ => ⟨fun h => congrArg Host.Outcome.next (State.turn_finish_of_line h true .transmit),
    fun h => congrArg Host.Outcome.next (State.turn_finish_of_no_line h true .transmit)⟩⟩

/-- Settles O31: DIR_RX turns the director to Receive with the line low. -/
theorem dirRxFollowsItsRule : Obligations.DirRxFollowsItsRule :=
  ⟨rfl, fun _ => ⟨fun h => congrArg Host.Outcome.next (State.turn_finish_of_line h false .receive),
    fun h => congrArg Host.Outcome.next (State.turn_finish_of_no_line h false .receive)⟩⟩

/-! ### Which instructions turn the director -/

/-- The director and its line are as they were (R28, R145). -/
def State.SameDirector (s t : State) : Prop := t.dir = s.dir ∧ t.de = s.de

theorem State.putFrame_sameDirector (s : State) (F : List Byte) : s.SameDirector (s.putFrame F) := ⟨rfl, rfl⟩

theorem State.send_sameDirector (s : State) (F : List Byte) : s.SameDirector (s.send F) :=
  ⟨s.send_dir F, s.send_de F⟩

theorem State.deliver_sameDirector (s : State) (F : List Byte) : s.SameDirector (s.deliver F) :=
  ⟨s.deliver_dir F, s.deliver_de F⟩

/-- An instruction that turns no director leaves it and its line alone. -/
theorem exec_sameDirector {i : Instr} (h : exec i s = .next t) (htx : i ≠ .dirTx) (hrx : i ≠ .dirRx) :
    s.SameDirector t := by
  have frame : (∀ w, encode i ≠ .command w) → s.SameDirector t := by
    intro hi
    obtain ⟨-, F, -, rfl⟩ := exec_frame_next hi h
    exact s.deliver_sameDirector F
  cases i
  case dirTx => exact absurd rfl htx
  case dirRx => exact absurd rfl hrx
  case crcGen ap =>
    rcases execCrcGen_next h with rfl | ⟨data, -, -, ⟨-, rfl⟩ | ⟨-, -, rfl⟩⟩ <;> exact ⟨rfl, rfl⟩
  case crcVerify src =>
    rcases execCrcVerify_next h with rfl | ⟨F, -, rfl⟩
    · exact ⟨rfl, rfl⟩
    · split <;> exact ⟨rfl, rfl⟩
  case encReadHolding => obtain ⟨a, -, rfl⟩ := execEncReadHolding_next h; exact s.putFrame_sameDirector _
  case encReadInput => obtain ⟨a, -, rfl⟩ := execEncReadInput_next h; exact s.putFrame_sameDirector _
  case encWriteSingle ord => obtain ⟨a, -, rfl⟩ := execEncWriteSingle_next h; exact s.putFrame_sameDirector _
  case encResetEnergy form => obtain ⟨a, -, rfl⟩ := execEncResetEnergy_next h; exact s.putFrame_sameDirector _
  case encWriteMultiple ord =>
    rcases execEncWriteMultiple_next h with ⟨-, rfl⟩ | ⟨a, V, -, -, -, rfl⟩
    · exact ⟨rfl, rfl⟩
    · exact s.putFrame_sameDirector _
  case encCustom fc =>
    rcases execEncCustom_next h with ⟨-, rfl⟩ | ⟨a, X, -, -, -, rfl⟩
    · exact ⟨rfl, rfl⟩
    · exact s.putFrame_sameDirector _
  case txSend =>
    rcases execTxSend_next h with ⟨-, rfl⟩ | ⟨F, -, -, rfl⟩
    · exact ⟨rfl, rfl⟩
    · exact s.send_sameDirector F
  case rxDiscard => rw [execRxDiscard_next h]; exact ⟨rfl, rfl⟩
  case rxRead =>
    rcases execRxRead_next h with rfl | rfl | ⟨a, T, I, r, n, q, -, -, -, rfl⟩
    · exact ⟨rfl, rfl⟩
    · exact ⟨rfl, rfl⟩
    · rw [State.endRead_frame]; exact ⟨rfl, rfl⟩
  case decValidate =>
    obtain ⟨r, -, rfl⟩ := execDecValidate_next h
    rw [State.judge_frame]
    exact ⟨rfl, rfl⟩
  case decExtract =>
    rcases execDecExtract_next h with rfl | rfl | ⟨r, -, -, -, -, rfl⟩ <;> exact ⟨rfl, rfl⟩
  all_goals exact frame (fun w => by simp [encode])

/-- Settles O48: by the instruction, each command in what it can do and the frames as deliveries. -/
theorem onlyDirectionCommandsTurnTheDirector : Obligations.OnlyDirectionCommandsTurnTheDirector :=
  fun _ _ _ h htx hrx => exec_sameDirector h htx hrx

/-! ### The director agrees with its line -/

/-- The director invariant by whether there is a line (R45, R46). -/
theorem State.directorInv_iff :
    s.DirectorInv ↔ (s.params.dePresent = true → s.de = s.dir.bit) ∧
      (s.params.dePresent = false → s.dir = .receive ∧ s.de = false) := by
  cases h : s.params.dePresent <;> simp [State.DirectorInv, h]

theorem State.DirectorInv.of_sameDirector (h : s.DirectorInv) (hp : t.params = s.params) (hd : s.SameDirector t) :
    t.DirectorInv := by
  rw [State.directorInv_iff, hp, hd.1, hd.2]
  exact State.directorInv_iff.1 h

/-- Turning the director drives the line to the level of the new state (R141, R142). -/
theorem State.DirectorInv.turn_finish (h : s.DirectorInv) (d : Director) (c : ResCode) :
    ((s.turn d.bit d).finish c).DirectorInv := by
  rcases s.turn_cases d.bit d with ⟨-, e⟩ | ⟨hline, e⟩ <;> rw [e]
  · exact h.of_sameDirector rfl ⟨rfl, rfl⟩
  · simp [State.directorInv_iff, hline]

/-- An instruction leaves the director and its line alone, or turns them together. -/
theorem Did.director_cases (h : Did s t) :
    s.SameDirector t ∨ ∃ d : Director, t = (s.turn d.bit d).finish .ok := by
  cases h with
  | turned level d hl => exact .inr ⟨d, by rw [hl]⟩
  | encoded P _ => exact .inl (s.putFrame_sameDirector _)
  | read a T I r n q _ => rw [State.endRead_frame]; exact .inl ⟨rfl, rfl⟩
  | judged r _ => rw [State.judge_frame]; exact .inl ⟨rfl, rfl⟩
  | sent F _ _ => exact .inl (s.send_sameDirector F)
  | delivered F => exact .inl (s.deliver_sameDirector F)
  | _ => exact .inl ⟨rfl, rfl⟩

theorem Did.directorInv (h : Did s t) (hs : s.DirectorInv) : t.DirectorInv := by
  rcases h.director_cases with hd | ⟨d, rfl⟩
  · exact hs.of_sameDirector (by rw [h.frame]) hd
  · exact hs.turn_finish d .ok

theorem HostChange.directorInv (h : HostChange s t) (hs : s.DirectorInv) : t.DirectorInv :=
  hs.of_sameDirector (by cases h <;> simp) (by cases h <;> simp [State.SameDirector])

/-! ### The transmit log -/

/-- Where a transfer may be sent, the level of the line is high exactly if there is one (R143, R145, R146). -/
theorem State.DirectorInv.de_of_directed (h : s.DirectorInv) (hd : s.directed .transmit) :
    s.de = s.params.dePresent := by
  obtain ⟨hwith, hwithout⟩ := State.directorInv_iff.1 h
  cases hline : s.params.dePresent
  · exact (hwithout hline).2
  · rw [hwith hline, hd hline, Director.bit]

/-- The transmit log keeps its order while nothing is handed over and time passes. -/
theorem State.TransmitInv.of_txq_eq (h : s.TransmitInv) (hp : t.params = s.params) (hq : t.txq = s.txq)
    (hnow : s.now ≤ t.now) : t.TransmitInv := by
  obtain ⟨hlog, horder⟩ := h
  rw [State.TransmitInv, hp, hq]
  exact ⟨fun e he => ⟨(hlog e he).1, (hlog e he).2.trans hnow⟩, horder⟩

/-- A frame is handed over at the tick it is sent, behind everything handed over before (R37, R38). -/
theorem State.TransmitInv.send (h : s.TransmitInv) (hde : s.de = s.params.dePresent) (F : List Byte) :
    (s.send F).TransmitInv := by
  obtain ⟨hlog, horder⟩ := h
  have hnow : s.now ≤ (s.send F).now := by rw [s.send_now]; omega
  have hnew : ∀ e ∈ F.map (fun b => (⟨b, s.now, s.de⟩ : TxEntry)), e.de = s.params.dePresent ∧ e.tick = s.now := by
    intro e he
    obtain ⟨b, -, rfl⟩ := List.mem_map.1 he
    exact ⟨hde, rfl⟩
  rw [State.TransmitInv, s.send_params, s.send_txq]
  refine ⟨fun e he => ?_, List.pairwise_append.2 ⟨horder, ?_, fun x hx y hy => ?_⟩⟩
  · rcases List.mem_append.1 he with he | he
    · exact ⟨(hlog e he).1, (hlog e he).2.trans hnow⟩
    · exact ⟨(hnew e he).1, (hnew e he).2.le.trans hnow⟩
  · exact List.pairwise_of_forall_mem_list fun x hx y hy => ((hnew x hx).2.trans (hnew y hy).2.symm).le
  · exact (hlog x hx).2.trans (hnew y hy).2.ge

/-- An instruction hands nothing over, or sends a frame with the director where a transfer needs it (R143). -/
theorem Did.txq_cases (h : Did s t) : t.txq = s.txq ∨ ∃ F, s.directed .transmit ∧ t = s.send F := by
  cases h with
  | sent F hd _ => exact .inr ⟨F, hd, rfl⟩
  | turned level d _ => exact .inl (s.turn_same level d .ok).2.1
  | read a T I r n q _ => rw [State.endRead_frame]; exact .inl rfl
  | judged r _ => rw [State.judge_frame]; exact .inl rfl
  | delivered F => exact .inl (s.deliver_txq F)
  | _ => exact .inl rfl

theorem Did.transmitInv (h : Did s t) (hdir : s.DirectorInv) (hs : s.TransmitInv) : t.TransmitInv := by
  rcases h.txq_cases with hq | ⟨F, hd, rfl⟩
  · exact hs.of_txq_eq (by rw [h.frame]) hq h.now_le
  · exact hs.send (hdir.de_of_directed hd) F

theorem HostChange.transmitInv (h : HostChange s t) (hs : s.TransmitInv) : t.TransmitInv :=
  hs.of_txq_eq (by cases h <;> simp) (by cases h <;> simp) h.now_le

/-- Settles O58: bytes are only handed over in Transmit, where the director invariant says the line is driven. -/
theorem stepsKeepTheDirectorInvariant : Obligations.StepsKeepTheDirectorInvariant := by
  intro s t hdir htx h
  exact step_keeps (P := fun u => u.DirectorInv ∧ u.TransmitInv)
    (fun hc hp => ⟨hc.directorInv hp.1, hc.transmitInv hp.2⟩)
    (fun hd hp => ⟨hd.directorInv hp.1, hd.transmitInv hp.1 hp.2⟩) ⟨hdir, htx⟩ h

/-! ### TX_SEND -/

/-- TX_SEND in the wrong direction, whatever `TXB` holds (R140, R143). -/
theorem exec_txSend_of_not_directed (h : ¬ s.directed .transmit) :
    exec .txSend s = .next (s.finish .direction) := by
  simp only [exec, execTxSend, (s.misdirected_iff _).2 h, if_true]
  cases s.frame <;> rfl

/-- TX_SEND where an element of the frame holds no value (R143, 10_state.md R49). -/
theorem exec_txSend_of_none (h : s.directed .transmit) (hF : s.frame = none) :
    exec .txSend s = .fault .unwrittenRead := by
  simp [exec, execTxSend, (s.misdirected_eq_false _).2 h, hF]

/-- TX_SEND where the frame holds values (R143). -/
theorem exec_txSend_of_some (h : s.directed .transmit) {F : List Byte} (hF : s.frame = some F) :
    exec .txSend s = .next (s.send F) := by
  simp [exec, execTxSend, (s.misdirected_eq_false _).2 h, hF]

/-- Settles O32: the flush is the one draw, and with a line the level logged is the one the director agrees with. -/
theorem txSendFollowsItsRule : Obligations.TxSendFollowsItsRule := by
  refine ⟨rfl, fun s => ⟨exec_txSend_of_not_directed, fun hd => ⟨exec_txSend_of_none hd, fun F hF => ?_⟩⟩⟩
  refine ⟨s.send F, s.drawValue, exec_txSend_of_some hd hF, s.send_now F, ⟨?_, rfl⟩, fun hline hdir => ?_⟩
  · rw [s.send_now]; omega
  · rw [s.send_txq, hdir.de_of_directed hd, hline]

/-! ### RX_DISCARD -/

/-- Where the queue is bytes that have arrived and then one that has not, or none, discarding leaves the latter and
what stands behind it (R144). -/
theorem State.discardArrived_eq {old rest : List RxEntry} (hq : s.rxq = old ++ rest)
    (hold : ∀ e ∈ old, e.tick ≤ s.now) (hrest : ∀ e ∈ rest.head?, s.now < e.tick) :
    s.discardArrived = { s with rxq := rest } := by
  have hkept : rest.dropWhile (fun e => decide (e.tick ≤ s.now)) = rest := by
    cases rest with
    | nil => rfl
    | cons e rest => exact List.dropWhile_cons_of_neg (by simpa using hrest e rfl)
  rw [State.discardArrived, hq, List.dropWhile_append_of_pos (by simpa using hold), hkept]

/-- Settles O33: what is left once the arrived bytes are discarded, then one draw of ticks. -/
theorem rxDiscardFollowsItsRule : Obligations.RxDiscardFollowsItsRule := by
  refine ⟨rfl, fun s old rest hq hold hrest => ⟨_, rfl, ?_⟩⟩
  rw [State.discardArrived_eq hq hold hrest]
  exact State.complete_after_of (u := { s with rxq := rest }) .ok rfl

end Sys2Proof.Machine

/-! PROOFS. The frame decoder (43_decoder.md R160-R164): the length condition, and what the end of a read says about
what was consumed. -/

namespace Sys2Proof.Machine

/-! ### The length condition -/

theorem excBit_iff_and_ne_zero (b : Byte) : excBit b = true ↔ b &&& 0x80#8 ≠ 0#8 := by
  have hmask : b &&& 0x80#8 = if b.getLsbD 7 then 0x80#8 else 0#8 := BitVec.and_twoPow b 7
  rw [excBit, hmask]
  cases b.getLsbD 7 <;> simp

theorem byteAt_of_getElem? {F : List Byte} {i : Nat} {b : Byte} (h : F[i]? = some b) : byteAt F i = b := by
  rw [byteAt, List.getD_eq_getElem?_getD, h, Option.getD_some]

theorem lengthNeeded_of_exception {buf : List Byte} (L : Nat) (h2 : 2 ≤ buf.length)
    (hexc : excBit (byteAt buf 1) = true) : lengthNeeded true buf L = min L 5 := by
  simp [lengthNeeded, h2, hexc]

theorem lengthNeeded_of_not_exception {early : Bool} {buf : List Byte} (L : Nat)
    (h : early = false ∨ buf.length < 2 ∨ excBit (byteAt buf 1) = false) : lengthNeeded early buf L = L := by
  rcases h with h | h | h <;> simp [lengthNeeded, h]

/-- Settles O60: byte 1 is there from two bytes on, and its bit 7 is what the mask leaves. -/
theorem lengthConditionFollowsItsRule : Obligations.LengthConditionFollowsItsRule := by
  refine fun early buf L => ⟨fun b hearly hb hbit => ?_, fun h => lengthNeeded_of_not_exception L ?_⟩
  · obtain ⟨h2, -⟩ := List.getElem?_eq_some_iff.1 hb
    have hexc : excBit (byteAt buf 1) = true := by rwa [byteAt_of_getElem? hb, excBit_iff_and_ne_zero]
    rw [hearly, lengthNeeded_of_exception L h2 hexc, Nat.min_def]
  · refine h.imp_right (Or.imp_right ?_)
    rintro ⟨b, hb, hbit⟩
    rw [byteAt_of_getElem? hb, ← Bool.not_eq_true, excBit_iff_and_ne_zero, not_not]
    exact hbit

/-! ### What the end of a read says -/

/-- Settles O36: of the ways a read ends, the one that answers a frame. -/
theorem readerReturnsFromTheFirstMatch : Obligations.ReaderReturnsFromTheFirstMatch := by
  intro p A L T I start n q q' buf hcap h
  obtain ⟨g, f, hq, hg, hstart, -, -, hend⟩ := readResponse_ends hcap A L T I start q
  rw [h] at hq hend
  rcases hend with ⟨hok, hne, hlen, hL, hbefore, hhead⟩ | ⟨-, -, hkind⟩ | ⟨hov, -⟩
  · obtain rfl : buf = f.map RxEntry.byte := by simpa using hok
    exact ⟨g, f, hq, hg, rfl, hstart.resolve_left hne, by simpa using hL, by simpa using hlen, hbefore, hhead⟩
  · simp at hkind
  · simp at hov

/-- A timeout of 0 ends the read before it polls (R165). -/
theorem readResponse_of_timeout_zero (p : Params) (A : Byte) (L I start : Nat) (q : List RxEntry) :
    readResponse p A L 0 I start q = (.noResponse, start, q) := by
  simp [readResponse, Reader.loop, Reader.complete, Reader.classify]

/-- The four kinds of a timeout exclude each other (R164). -/
theorem timeout_kinds_exclusive {r : ReadResult} {g f : List RxEntry} {needed : Nat}
    (h : (r = .noResponse ∧ g = [] ∧ f = []) ∨ (r = .addressNeverSeen ∧ g ≠ [] ∧ f = []) ∨
      (r = .truncated ∧ f ≠ [] ∧ f.length < needed) ∨ (r = .unterminated ∧ f ≠ [] ∧ needed ≤ f.length)) :
    (r = .noResponse ↔ g = [] ∧ f = []) ∧ (r = .addressNeverSeen ↔ g ≠ [] ∧ f = []) ∧
      (r = .truncated ↔ f ≠ [] ∧ f.length < needed) ∧ (r = .unterminated ↔ f ≠ [] ∧ needed ≤ f.length) := by
  rcases h with ⟨rfl, hg, hf⟩ | ⟨rfl, hg, hf⟩ | ⟨rfl, hf, hlen⟩ | ⟨rfl, hf, hlen⟩
  · simp [hg, hf]
  · simp [hg, hf]
  · simp [hf, hlen]
  · simp [hf, hlen]

/-- Settles O37: of the ways a read ends, the timeouts and the overflow. -/
theorem readerFailuresSayWhatWasConsumed : Obligations.ReaderFailuresSayWhatWasConsumed := by
  intro p A L T I start n q q' r hcap h hfail
  obtain ⟨g, f, hq, hg, hstart, -, -, hend⟩ := readResponse_ends hcap A L T I start q
  rw [h] at hq hend
  refine ⟨g, f, hq, hg, hstart, ?_⟩
  rcases hend with ⟨hok, -⟩ | ⟨hn, hhead, hkind⟩ | ⟨hov, hn, hlen⟩
  · exact absurd hok (hfail _)
  · have hne : r ≠ .overflow := by
      rintro rfl
      simp at hkind
    refine ⟨fun hov => absurd hov hne, fun _ => ⟨hn, fun hT => hhead (.inl hT), fun hT => ?_,
      timeout_kinds_exclusive hkind⟩⟩
    rw [hT, readResponse_of_timeout_zero] at h
    simp only [Prod.mk.injEq] at h
    exact ⟨h.1.symm, h.2.2.symm⟩
  · exact ⟨fun _ => ⟨hlen, hn⟩, fun hne => absurd hov hne⟩

end Sys2Proof.Machine

/-! PROOFS. The frame decoder (43_decoder.md R167): resynchronisation, as a run of the reader's loop. -/

namespace Sys2Proof.Machine

namespace Reader

/-! ### One turn of the loop -/

section
variable {p : Params} {A : Byte} {L I left now : Nat} {q q' : List RxEntry} {r r' : Reader}

theorem loop_of_complete (h : r.complete p.excEarly L I now = true) :
    loop p A L I left now q r = (.ok r.buf, now, q) := by
  cases left <;> rw [loop, if_pos h]

theorem loop_of_poll (h : r.complete p.excEarly L I now = false) (hp : poll p.rxbCap A now q r = (q', some r')) :
    loop p A L I (left + 1) now q r = loop p A L I left (now + 1) q' r' := by
  rw [loop, if_neg (by simp [h]), hp]

theorem poll_of_not_arrived {cap : Nat} (h : ∀ e ∈ q.head?, now < e.tick) : poll cap A now q r = (q, some r) := by
  cases q with
  | nil => rfl
  | cons e q => rw [poll, if_neg (not_le.2 (h e rfl))]

/-- The completion test on what was consumed (R162). -/
theorem Holds.complete_iff {cap : Nat} {early : Bool} {g f : List RxEntry} (h : Holds cap A g f r) :
    r.complete early L I now = true ↔
      f ≠ [] ∧ lengthNeeded early (f.map RxEntry.byte) L ≤ f.length ∧ I ≤ now - r.last := by
  simp only [complete, Bool.and_eq_true, decide_eq_true_eq, h.matched, h.buf, List.length_map, and_assoc]

end

/-! ### Garbage, frame and rest -/

/-- The first address byte splits a sequence in one way only into garbage and what follows it. -/
theorem garbage_unique {A : Byte} {g g' x x' : List RxEntry} (hg : ∀ e ∈ g, e.byte ≠ A)
    (hg' : ∀ e ∈ g', e.byte ≠ A) (hx : ∃ tail, x.map RxEntry.byte = A :: tail)
    (hx' : x' = [] ∨ ∃ tail, x'.map RxEntry.byte = A :: tail) (h : g' ++ x' = g ++ x) : g' = g ∧ x' = x := by
  induction g generalizing g' with
  | nil =>
    cases g' with
    | nil => exact ⟨rfl, h⟩
    | cons e g' =>
      obtain ⟨tail, hx⟩ := hx
      rw [← List.nil_append x, ← h] at hx
      exact absurd (List.cons.inj hx).1 (hg' e (by simp))
  | cons e g ih =>
    cases g' with
    | nil =>
      obtain rfl : x' = e :: (g ++ x) := h
      obtain ⟨tail, hx'⟩ := hx'.resolve_left (by simp)
      exact absurd (List.cons.inj hx').1 (hg e (by simp))
    | cons e' g' =>
      obtain ⟨rfl, htails⟩ := List.cons.inj h
      obtain ⟨rfl, rfl⟩ := ih (fun x hx => hg x (List.mem_cons_of_mem _ hx))
        (fun x hx => hg' x (List.mem_cons_of_mem _ hx)) htails
      exact ⟨rfl, rfl⟩

/-- The conditions of R167 on a read from tick `start`: garbage `g` without the address, a frame `f` that begins with
it, fits, is long enough and has no gap of `I` ticks, then `I` ticks without a byte. `final` is the tick at which the
frame's last byte is consumed. -/
structure Resync (p : Params) (A : Byte) (L I start final : Nat) (g f rest : List RxEntry) : Prop where
  idle : 1 ≤ I
  garbage : ∀ e ∈ g, e.byte ≠ A
  starts : ∃ tail, f.map RxEntry.byte = A :: tail
  fits : f.length ≤ p.rxbCap
  enough : lengthNeeded p.excEarly (f.map RxEntry.byte) L ≤ f.length
  gaps : ∀ (i : Nat) (x y : RxEntry), f[i]? = some x → f[i + 1]? = some y → y.tick < x.tick + I
  quiet : ∀ e ∈ rest.head?, final + I ≤ e.tick
  started : start ≤ final
  arrived : ∀ e ∈ g ++ f, e.tick ≤ final
  last : final = start ∨ ∃ e ∈ f, e.tick = final

namespace Resync

variable {p : Params} {A : Byte} {L I start final : Nat} {g f rest : List RxEntry}

theorem frame_ne_nil (h : Resync p A L I start final g f rest) : f ≠ [] := by
  rintro rfl
  simpa using h.starts

theorem one_le_cap (h : Resync p A L I start final g f rest) : 1 ≤ p.rxbCap :=
  (List.length_pos_of_ne_nil h.frame_ne_nil).trans_le h.fits

/-- A part of the frame is followed by its next byte within `I` ticks. -/
theorem next_within (h : Resync p A L I start final g f rest) {f' q : List RxEntry} {y : RxEntry} (hf : f' ≠ [])
    (hsplit : f' ++ y :: q = f) : ∃ x ∈ f', y.tick < x.tick + I := by
  obtain ⟨l, x, rfl⟩ := List.eq_nil_or_concat' f' |>.resolve_left hf
  refine ⟨x, by simp, h.gaps l.length x y ?_ ?_⟩ <;> simp [← hsplit]

/-- What has arrived by the tick of the frame's last byte is no byte of the rest. -/
theorem polled_before_rest (h : Resync p A L I start final g f rest) {now : Nat} {q c q' : List RxEntry}
    (hq : q ++ rest = c ++ q') (hc : ∀ e ∈ c, e.tick ≤ now) (hnow : now ≤ final) :
    ∃ d, q = c ++ d ∧ q' = d ++ rest := by
  rcases List.append_eq_append_iff.1 hq with ⟨late, rfl, hrest⟩ | ⟨d, hd⟩
  · cases late with
    | nil => exact ⟨[], by simp, by simpa using hrest.symm⟩
    | cons e late =>
      have hquiet := h.quiet e (by simp [hrest])
      have harrived := hc e (by simp)
      have := h.idle
      omega
  · exact ⟨d, hd⟩

/-- Once the frame is consumed the reader completes after `I` quiet ticks. -/
theorem loop_waits (h : Resync p A L I start final g f rest) {r : Reader} (hr : Holds p.rxbCap A g f r)
    (hlast : r.last = final) :
    ∀ {left now : Nat}, final ≤ now → now ≤ final + I → final + I ≤ now + left →
      loop p A L I left now rest r = (.ok (f.map RxEntry.byte), final + I, rest) := by
  have hf := h.frame_ne_nil
  intro left
  induction left with
  | zero =>
    intro now h1 h2 h3
    obtain rfl : now = final + I := by omega
    rw [loop_of_complete (hr.complete_iff.2 ⟨hf, h.enough, by omega⟩), hr.buf]
  | succ left ih =>
    intro now h1 h2 h3
    by_cases hnow : now = final + I
    · rw [loop_of_complete (hr.complete_iff.2 ⟨hf, h.enough, by omega⟩), hr.buf, hnow]
    · have hopen : r.complete p.excEarly L I now = false := by
        rw [← Bool.not_eq_true, hr.complete_iff]
        omega
      have hquiet : ∀ e ∈ rest.head?, now < e.tick := fun e he => by
        have := h.quiet e he
        omega
      rw [loop_of_poll hopen (poll_of_not_arrived hquiet)]
      exact ih (by omega) (by omega) (by omega)

end Resync

/-- The reader at tick `now` of the read has consumed `g'` and `f'` of the garbage and the frame, `q` is still to
come, and every byte that came before `now` was polled. -/
structure Receiving (p : Params) (A : Byte) (start final now : Nat) (g f g' f' q : List RxEntry) (r : Reader) :
    Prop where
  holds : Holds p.rxbCap A g' f' r
  split : g' ++ f' ++ q = g ++ f
  consumed : ∀ e ∈ g' ++ f', e.tick ≤ now
  coming : now = start ∨ ∀ e ∈ q.head?, now ≤ e.tick
  started : start ≤ r.last
  last : r.last ≤ now
  inTime : r.last ≤ final

namespace Receiving

variable {p : Params} {A : Byte} {L I start final now : Nat} {g f rest g' f' q : List RxEntry} {r : Reader}

theorem start_of_read (h : Resync p A L I start final g f rest) :
    Receiving p A start final start g f [] [] (g ++ f) { buf := [], matched := false, seen := 0, last := start } where
  holds := holds_start _ _ _
  split := rfl
  consumed := by simp
  coming := .inl rfl
  started := Nat.le_refl _
  last := Nat.le_refl _
  inTime := h.started

theorem now_le_final (hr : Receiving p A start final now g f g' f' q r) (h : Resync p A L I start final g f rest)
    (hq : q ≠ []) : now ≤ final := by
  rcases hr.coming with hstart | hhead
  · exact hstart ▸ h.started
  · obtain ⟨y, q, rfl⟩ := List.exists_cons_of_ne_nil hq
    exact (hhead y rfl).trans (h.arrived y (by simp [← hr.split]))

/-- While bytes are still to come the reader does not complete: a part of the frame has no gap of `I` ticks. -/
theorem not_complete (hr : Receiving p A start final now g f g' f' q r) (h : Resync p A L I start final g f rest)
    (hq : q ≠ []) : r.complete p.excEarly L I now = false := by
  rw [← Bool.not_eq_true, hr.holds.complete_iff]
  rintro ⟨hf, -, hI⟩
  have hidle := h.idle
  rcases hr.coming with hstart | hhead
  · have := hr.started
    omega
  · obtain ⟨y, q, rfl⟩ := List.exists_cons_of_ne_nil hq
    obtain ⟨tail, htail⟩ := hr.holds.starts.resolve_left hf
    obtain ⟨-, hframe⟩ := garbage_unique h.garbage hr.holds.garbage h.starts (x' := f' ++ y :: q)
      (.inr ⟨tail ++ (y :: q).map RxEntry.byte, by simp [htail]⟩) (by rw [← hr.split, List.append_assoc])
    obtain ⟨x, hx, hgap⟩ := h.next_within hf hframe
    have hbefore := hr.holds.before hf x (by simp [hx])
    have hcome := hhead y rfl
    omega

/-- A poll takes bytes of the garbage and the frame only, and none of them overflows. -/
theorem poll_receives (hr : Receiving p A start final now g f g' f' q r) (h : Resync p A L I start final g f rest)
    (hq : q ≠ []) :
    ∃ g1 f1 d r1, poll p.rxbCap A now (q ++ rest) r = (d ++ rest, some r1) ∧
      Receiving p A start final (now + 1) g f g1 f1 d r1 := by
  have hnow := hr.now_le_final h hq
  obtain ⟨c, q', hc, harrived, hres⟩ := poll_spec h.one_le_cap (q ++ rest) r g' f' hr.holds hr.consumed
  obtain ⟨d, rfl, rfl⟩ := h.polled_before_rest hc harrived hnow
  have hsplit : g' ++ f' ++ c ++ d = g ++ f := by rw [← hr.split, List.append_assoc]
  rcases hres with ⟨r1, g1, f1, hp, hgf, hr1, hl, hhead⟩ | ⟨g1, f1, -, hgf, hg1, ⟨tail, htail⟩, hlen⟩
  · have hstarted := hr.started
    have hlast := hr.last
    refine ⟨g1, f1, d, r1, hp, hr1, by rw [hgf, hsplit], fun e he => ?_, .inr fun e he => ?_, by omega, by omega,
      by omega⟩
    · rw [hgf] at he
      exact Nat.le_succ_of_le ((List.mem_append.1 he).elim (hr.consumed e) (harrived e))
    · exact hhead e (by simp [Option.mem_def.1 he])
  · obtain ⟨-, hframe⟩ := garbage_unique h.garbage hg1 h.starts (x' := f1 ++ d)
      (.inr ⟨tail ++ d.map RxEntry.byte, by simp [htail]⟩) (by rw [← hsplit, ← hgf, List.append_assoc])
    have hfits := h.fits
    rw [← hframe, List.length_append] at hfits
    omega

/-- With nothing more to come the reader holds the frame, consumed to its end at tick `final`. -/
theorem all_received (hr : Receiving p A start final now g f g' f' [] r)
    (h : Resync p A L I start final g f rest) : Holds p.rxbCap A g f r ∧ r.last = final := by
  obtain ⟨rfl, rfl⟩ := garbage_unique h.garbage hr.holds.garbage h.starts hr.holds.starts (by simpa using hr.split)
  refine ⟨hr.holds, Nat.le_antisymm hr.inTime ?_⟩
  rcases h.last with hfinal | ⟨e, he, hfinal⟩
  · exact hfinal ▸ hr.started
  · exact hfinal ▸ hr.holds.before h.frame_ne_nil e (by simp [he])

end Receiving

/-- From any tick at which bytes of the garbage or the frame are still to come, the frame is received (R167). -/
theorem loop_receives {p : Params} {A : Byte} {L I start final : Nat} {g f rest : List RxEntry}
    (h : Resync p A L I start final g f rest) :
    ∀ {left now : Nat} {g' f' q : List RxEntry} {r : Reader}, Receiving p A start final now g f g' f' q r → q ≠ [] →
      final + I ≤ now + left →
      loop p A L I left now (q ++ rest) r = (.ok (f.map RxEntry.byte), final + I, rest) := by
  have hidle := h.idle
  intro left
  induction left with
  | zero =>
    intro now g' f' q r hr hq hleft
    have := hr.now_le_final h hq
    omega
  | succ left ih =>
    intro now g' f' q r hr hq hleft
    have hnow := hr.now_le_final h hq
    obtain ⟨g1, f1, d, r1, hp, hr1⟩ := hr.poll_receives h hq
    rw [loop_of_poll (hr.not_complete h hq) hp]
    by_cases hd : d = []
    · subst hd
      obtain ⟨hholds, hlast⟩ := hr1.all_received h
      exact h.loop_waits hholds hlast (hlast ▸ hr1.last) (by omega) (by omega)
    · exact ih hr1 hd (by omega)

end Reader

/-- The frame of R167 is received whole and alone, `I` ticks after its last byte. -/
theorem readResponse_of_resync {p : Params} {A : Byte} {L T I start final : Nat} {g f rest : List RxEntry}
    (h : Reader.Resync p A L I start final g f rest) (hT : final + I ≤ start + T) :
    readResponse p A L T I start (g ++ f ++ rest) = (.ok (f.map RxEntry.byte), final + I, rest) := by
  refine Reader.loop_receives h (Reader.Receiving.start_of_read h) (fun hnil => h.frame_ne_nil ?_) hT
  exact (List.append_eq_nil_iff.1 hnil).2

end Sys2Proof.Machine

/-! PROOFS. The frame decoder (43_decoder.md R165, R167): RX_READ. -/

namespace Sys2Proof.Machine

variable {s : State}

/-! ### The checks of RX_READ, in their order -/

theorem exec_rxRead_of_not_directed (h : ¬ s.directed .receive) :
    exec .rxRead s = .next ((s.setValid false).finish .direction) := by
  simp [exec, execRxRead, (s.misdirected_iff _).2 h]

theorem exec_rxRead_of_not_fits (h : s.directed .receive) (hL : s.params.rxbCap < s.arg0n) :
    exec .rxRead s = .next ((s.setValid false).finish .invalidArgument) := by
  simp [exec, execRxRead, (s.misdirected_eq_false _).2 h, hL]

theorem exec_rxRead_of_none (h : s.directed .receive) (hL : s.arg0n ≤ s.params.rxbCap) (hc : s.readerConfig = none) :
    exec .rxRead s = .fault .unwrittenRead := by
  simp [exec, execRxRead, (s.misdirected_eq_false _).2 h, not_lt.2 hL, hc]

theorem exec_rxRead_of_some {a : Byte} {T I n : Nat} {r : ReadResult} {q : List RxEntry} (h : s.directed .receive)
    (hL : s.arg0n ≤ s.params.rxbCap) (hc : s.readerConfig = some (a, T, I))
    (hr : readResponse s.params a s.arg0n T I s.now s.rxq = (r, n, q)) :
    exec .rxRead s = .next (((s.setValid false).leftOff n q).endRead r) := by
  simp [exec, execRxRead, (s.misdirected_eq_false _).2 h, not_lt.2 hL, hc, hr]

theorem readerConfig_of_some {a : Byte} {T I : DWord} (ha : s.slave = some a) (hT : s.timeout = some T)
    (hI : s.idle = some I) : s.readerConfig = some (a, T.toNat, I.toNat) := by
  simp only [State.readerConfig, ha, hT, hI]

theorem readerConfig_eq_none (h : s.slave = none ∨ s.timeout = none ∨ s.idle = none) : s.readerConfig = none := by
  unfold State.readerConfig
  split
  · rename_i ha hT hI
    simp [ha, hT, hI] at h
  · rfl

/-! ### What RX_READ leaves -/

/-- A read that answers no frame refills `RXB` with nothing (R165). -/
theorem State.endRead_of_failure (s : State) {r : ReadResult} (h : ∀ buf, r ≠ .ok buf) :
    s.endRead r = (((s.emptyBuf .rxb).storeBytes .rxb 0 []).setRxlen 0).finish r.code := by
  cases r with
  | ok buf => exact absurd rfl (h buf)
  | _ => rfl

/-- The end of a read changes no byte outside the window of `RXB` (R165). -/
theorem State.endRead_outside (s : State) {r : ReadResult} (h : ∀ buf, r = .ok buf → buf.length ≤ 256) :
    SameOutside s.mem (s.endRead r).mem Buf.rxb.window := by
  obtain ⟨F, c, hF, heq⟩ := s.endRead_eq_refill r
  have hlen : F.length ≤ 256 := by
    rcases hF with rfl | hok
    · exact Nat.zero_le _
    · exact h F hok
  rw [heq]
  exact (s.refill_onlyBuf hlen).outside

/-- Settles O34: each check refuses or passes, and the end of the read refills `RXB` alone. -/
theorem rxReadFollowsItsRule : Obligations.RxReadFollowsItsRule := by
  refine ⟨rfl, fun s hp => ⟨exec_rxRead_of_not_directed, exec_rxRead_of_not_fits, fun hd hL =>
    ⟨fun hnone => exec_rxRead_of_none hd hL (readerConfig_eq_none hnone), fun a T I r n q ha hT hI hr => ?_⟩⟩⟩
  have hcap := Buf.cap_le hp .rxb
  have hfits : ∀ buf, r = .ok buf → buf.length ≤ s.params.rxbCap := fun buf hok =>
    readResponse_ok_length hp (hok ▸ hr)
  refine ⟨_, exec_rxRead_of_some hd hL (readerConfig_of_some ha hT hI) hr, fun buf hok => ?_, fun hfail => ?_,
    fun x hx => ?_⟩
  · obtain ⟨-, -, hrest⟩ := ((s.setValid false).leftOff n q).refill_responseInv (hfits buf hok)
    rw [hok]
    exact ⟨rfl, State.bytes_storeBytes_zero _ .rxb buf, hrest⟩
  · obtain ⟨-, -, hrest⟩ := ((s.setValid false).leftOff n q).refill_responseInv (F := []) (Nat.zero_le _)
    rw [State.endRead_of_failure _ hfail]
    refine ⟨rfl, ?_, ?_, ?_, ?_, ?_, fun j hj => hrest j (Nat.zero_le _) hj⟩ <;> (rintro rfl; rfl)
  · refine State.endRead_outside _ (fun buf hok => (hfits buf hok).trans hcap) x fun hw => ?_
    simp only [Buf.window, Buf.base] at hw
    omega

/-- A queue in arrival order meets the conditions of R167 that the reader's run needs. -/
theorem Reader.Resync.of_queue {p : Params} {A : Byte} {L I start lastTick : Nat} {g f rest : List RxEntry}
    (hidle : 1 ≤ I) (hfits : f.length ≤ p.rxbCap) (hqueue : (g ++ f ++ rest).Pairwise (fun x y => x.tick ≤ y.tick))
    (hg : ∀ e ∈ g, e.byte ≠ A) (hhead : f.head?.map RxEntry.byte = some A)
    (hlast : f.getLast?.map RxEntry.tick = some lastTick)
    (henough : lengthNeeded p.excEarly (f.map RxEntry.byte) L ≤ f.length)
    (hgaps : ∀ (i : Nat) (x y : RxEntry), f[i]? = some x → f[i + 1]? = some y → y.tick < x.tick + I)
    (hquiet : ∀ e ∈ rest.head?, max start lastTick + I ≤ e.tick) :
    Reader.Resync p A L I start (max start lastTick) g f rest := by
  obtain ⟨x, hx, rfl⟩ := Option.map_eq_some_iff.1 hlast
  obtain ⟨l, rfl⟩ := List.getLast?_eq_some_iff.1 hx
  have hordered : ∀ e ∈ g ++ (l ++ [x]), e.tick ≤ x.tick := by
    intro e he
    rw [← List.append_assoc] at hqueue he
    obtain ⟨-, -, hbefore⟩ := List.pairwise_append.1 (List.pairwise_append.1 hqueue).1
    rcases List.mem_append.1 he with he | he
    · exact hbefore e he x (by simp)
    · rw [List.mem_singleton.1 he]
  have hstarts : ∃ tail, (l ++ [x]).map RxEntry.byte = A :: tail := by
    obtain ⟨y, hy, rfl⟩ := Option.map_eq_some_iff.1 hhead
    obtain ⟨tail, htail⟩ := List.head?_eq_some_iff.1 hy
    exact ⟨tail.map RxEntry.byte, by rw [htail, List.map_cons]⟩
  refine ⟨hidle, hg, hstarts, hfits, henough, hgaps, hquiet, Nat.le_max_left _ _,
    fun e he => (hordered e he).trans (Nat.le_max_right _ _), ?_⟩
  rcases Nat.le_total x.tick start with h | h
  · exact .inl (Nat.max_eq_left h)
  · exact .inr ⟨x, by simp, (Nat.max_eq_right h).symm⟩

/-- Settles O38: the reader's run on the queue, then RX_READ's end of a completed read. -/
theorem resynchronisationReceivesTheFrame : Obligations.ResynchronisationReceivesTheFrame := by
  intro s a T I g f rest lastTick ha hT hI hidle hd hL hfits hp hq hqueue hg hhead hlast henough hgaps hquiet htime
  rw [State.QueueInv, hq] at hqueue
  have hread := readResponse_of_resync
    (.of_queue hidle hfits hqueue hg hhead hlast henough hgaps hquiet) htime
  rw [← hq] at hread
  have hbytes := State.bytes_storeBytes_zero
    (((s.setValid false).leftOff (max s.now lastTick + I.toNat) rest).emptyBuf .rxb) .rxb (f.map RxEntry.byte)
  refine ⟨_, exec_rxRead_of_some hd hL (readerConfig_of_some ha hT hI) hread, ?_, ?_⟩
  · rw [← List.length_map (as := f) RxEntry.byte]
    rfl
  · rw [List.length_map] at hbytes
    exact hbytes

end Sys2Proof.Machine

/-! PROOFS. The frame decoder (43_decoder.md R165, R170-R173): a frame with a zero behind it, the validator's verdicts,
and DEC_VALIDATE. -/

namespace Sys2Proof

/-- A sequence that verifies has room for its CRC (R102). -/
theorem two_le_length_of_verify {F : List Byte} (h : verify F = true) : 2 ≤ F.length := by
  by_contra hshort
  simp [verify_of_short (not_le.1 hshort)] at h

/-- Settles O20: a zero byte leaves the residue 0 as it is. -/
theorem trailingZeroStillVerifies : Obligations.TrailingZeroStillVerifies := by
  intro F h
  have h2 := two_le_length_of_verify h
  have hresidue : crc16 (F ++ [0x00#8]) = crcByte 0 0x00#8 := by
    rw [crc16_append, (verify_iff_residue h2).1 h]
    rfl
  rw [verify_iff_residue (by simp; omega), hresidue]
  exact crcByte_join 0 0

end Sys2Proof

namespace Sys2Proof.Machine

variable {s t : State}

/-! ### The verdicts -/

/-- A response too short to be judged (R170). -/
def ShortResponse (r : List Byte) : Prop := r.length < 2 ∨ (r.length = 2 ∧ excBit (byteAt r 1) = true)

theorem validate_of_short {r : List Byte} (h : ShortResponse r) : validate r = .tooShort := by
  rcases h with h | ⟨h, hexc⟩
  · simp [validate, h]
  · simp [validate, h, hexc]

theorem validate_of_not_short {r : List Byte} (h : ¬ ShortResponse r) :
    validate r = if verify r then (if excBit (byteAt r 1) then .modbusException (byteAt r 2) else .ok)
      else .crcError := by
  have h2 : ¬ r.length < 2 := fun hlt => h (.inl hlt)
  have h3 : excBit (byteAt r 1) = true → ¬ r.length < 3 := fun hexc hlt => h (.inr ⟨by omega, hexc⟩)
  rw [validate, if_neg h2]
  cases hexc : excBit (byteAt r 1)
  · simp
  · simp [h3 hexc]

/-- Settles O39: by whether the response is short, then verifies, then has the exception bit. -/
theorem validatorVerdicts : Obligations.ValidatorVerdicts := by
  intro r short
  have hdef : short = ShortResponse r := rfl
  rw [hdef]
  by_cases hs : ShortResponse r
  · simp [validate_of_short hs, hs]
  · cases hv : verify r with
    | false => simp [validate_of_not_short hs, hs, hv]
    | true =>
      cases hexc : excBit (byteAt r 1) with
      | false => simp [validate_of_not_short hs, hs, hv, hexc]
      | true => simp [validate_of_not_short hs, hs, hv, hexc, eq_comm]

/-! ### DEC_VALIDATE -/

/-- Ticks that pass, with their draws, are all that `After` leaves open (10_state.md R39). -/
theorem State.elapse_after {u : State} (h : u.now = s.now) : After s u.elapse u :=
  ⟨by simp [h], rfl⟩

theorem State.judge_now (s : State) (r : List Byte) (v : Verdict) : (s.judge r v).now = s.now := by
  cases v <;> rfl

theorem State.judge_response (s : State) (r : List Byte) (v : Verdict) :
    ((s.setValid false).judge r v).elapse.response = s.response := by
  cases v <;> rfl

/-- Settles O40: the judgement for each verdict, then the ticks of the command. -/
theorem decValidateFollowsItsRule : Obligations.DecValidateFollowsItsRule := by
  refine ⟨rfl, fun s h => ?_, fun s r hr => ⟨_, exec_decValidate_of_bytes hr, ?_⟩⟩
  · obtain ⟨-, ⟨r, hr⟩, -⟩ := h
    exact ⟨_, exec_decValidate_of_bytes hr⟩
  · have hafter := State.elapse_after ((s.setValid false).judge_now r (validate r))
    refine ⟨fun hv => ?_, fun hv => ?_, fun hv => ?_, fun x hv => ?_⟩ <;> (rw [hv] at hafter ⊢; exact hafter)

/-- A second judgement of the same response changes nothing (R173). -/
theorem State.judge_judge (s : State) (r : List Byte) (v : Verdict) :
    (((s.setValid false).judge r v).elapse.setValid false).judge r v = ((s.setValid false).judge r v).elapse := by
  cases v <;> rfl

/-- Settles O41: the response is the one judged before, so the judgement is too. -/
theorem validatingTwiceIsTheSame : Obligations.ValidatingTwiceIsTheSame := by
  intro s t h
  obtain ⟨r, hr, rfl⟩ := execDecValidate_next h
  refine ⟨_, exec_decValidate_of_bytes ((s.judge_response r (validate r)).trans hr), ?_⟩
  rw [State.judge_judge]
  exact State.elapse_after rfl

end Sys2Proof.Machine

/-! PROOFS. The frame decoder (43_decoder.md R173, R175, R176): DEC_EXTRACT. -/

namespace Sys2Proof.Machine

namespace Memory

/-! ### Storing the same words again -/

theorem write_write_same (m : Memory) (a : Nat) (b c : Byte) :
    Memory.write (Memory.write m a b) a c = Memory.write m a c := by
  induction m with
  | nil => simp [Memory.write]
  | cons e m ih =>
    obtain ⟨k, v⟩ := e
    rcases Nat.lt_trichotomy a k with h | rfl | h
    · simp [Memory.write, h]
    · simp [Memory.write]
    · simp [Memory.write, not_lt_of_gt h, h.ne', ih]

theorem write_comm_of_lt (m : Memory) {a x : Nat} (b v : Byte) (h : a < x) :
    Memory.write (Memory.write m a b) x v = Memory.write (Memory.write m x v) a b := by
  induction m with
  | nil => simp [Memory.write, h, not_lt_of_gt h, h.ne']
  | cons e m ih =>
    obtain ⟨k, w⟩ := e
    rcases Nat.lt_trichotomy a k with ha | rfl | ha
    · rcases Nat.lt_trichotomy x k with hx | rfl | hx
      · simp [Memory.write, h, ha, hx, not_lt_of_gt h, h.ne']
      · simp [Memory.write, h, not_lt_of_gt h, h.ne']
      · simp [Memory.write, ha, not_lt_of_gt h, h.ne', not_lt_of_gt hx, hx.ne']
    · simp [Memory.write, not_lt_of_gt h, h.ne']
    · have hx := ha.trans h
      simp [Memory.write, not_lt_of_gt ha, ha.ne', not_lt_of_gt hx, hx.ne', ih]

/-- Words stored behind an address leave a byte written there first or last. -/
theorem storeWords_write_before (m : Memory) {a x : Nat} (v : Byte) (R : List Word) (h : x < a) :
    Memory.storeWords (Memory.write m x v) a R = Memory.write (Memory.storeWords m a R) x v := by
  induction R generalizing m a with
  | nil => rfl
  | cons w R ih =>
    simp only [Memory.storeWords, Memory.writeWord]
    rw [write_comm_of_lt m v (lo w) h, write_comm_of_lt _ v (hi w) (by omega), ih _ (by omega)]

theorem storeWords_storeWords_same (m : Memory) (a : Nat) (R : List Word) :
    Memory.storeWords (Memory.storeWords m a R) a R = Memory.storeWords m a R := by
  induction R generalizing m a with
  | nil => rfl
  | cons w R ih =>
    have hword : Memory.writeWord (Memory.writeWord m a w) a w = Memory.writeWord m a w := by
      simp only [Memory.writeWord]
      rw [← write_comm_of_lt _ _ _ (Nat.lt_succ_self a), write_write_same, write_write_same]
    have hbehind (m : Memory) : Memory.storeWords (Memory.writeWord m a w) (a + 4) R =
        Memory.writeWord (Memory.storeWords m (a + 4) R) a w := by
      rw [Memory.writeWord, storeWords_write_before _ _ _ (by omega), storeWords_write_before _ _ _ (by omega)]
      rfl
    calc Memory.storeWords (Memory.writeWord (Memory.storeWords (Memory.writeWord m a w) (a + 4) R) a w) (a + 4) R
        = Memory.writeWord (Memory.storeWords (Memory.writeWord m a w) (a + 4) R) a w := by rw [hbehind, ih]
      _ = Memory.storeWords (Memory.writeWord m a w) (a + 4) R := by rw [← hbehind, hword]

end Memory

variable {s t : State} {r : List Byte}

/-! ### The checks of DEC_EXTRACT, in their order -/

theorem exec_decExtract_of_not_valid (hv : s.valid = false) :
    exec .decExtract s = .next (s.complete .notValidated) := by
  simp [exec, execDecExtract, hv]

theorem exec_decExtract_of_short (hv : s.valid = true) (hshort : s.rxlen < 3) :
    exec .decExtract s = .next (s.complete .tooShort) := by
  simp [exec, execDecExtract, hv, hshort]

theorem exec_decExtract_of_not_fits (hv : s.valid = true) (h3 : 3 ≤ s.rxlen) (hr : s.bytes .rxb s.rxlen = some r)
    (hfit : s.rxlen < 3 + 2 * min s.arg0n ((byteAt r 2).toNat / 2) + 2) :
    exec .decExtract s = .next (s.complete .tooShort) := by
  have hbc := State.byte_of_bytes hr (show 2 < s.rxlen by omega)
  simp [exec, execDecExtract, hv, not_lt.2 h3, hbc, hfit]

/-- The register extracted at place `i` (R175). -/
theorem getElem?_extractRegisters {n i : Nat} (h : i < min n ((byteAt r 2).toNat / 2)) :
    (extractRegisters r n)[i]? = some (join (byteAt r (3 + 2 * i)) (byteAt r (4 + 2 * i))) := by
  rw [extractRegisters, List.getElem?_map, List.getElem?_range h, Option.map_some]

theorem State.putOutput_after (s : State) (R : List Word) (k : Nat) :
    let t := ((s.storeWords .rout R).setRegcnt k).complete .ok
    After s t { s with res := .ok, exc := 0, mem := t.mem, regcnt := k } :=
  State.complete_after_of .ok rfl

/-- Settles O43: each check refuses or passes, and the registers extracted are what `ROUT` is filled with. -/
theorem decExtractFollowsItsRule : Obligations.DecExtractFollowsItsRule := by
  refine ⟨rfl, fun s => ⟨fun hv => ⟨_, exec_decExtract_of_not_valid hv, s.complete_after _⟩,
    fun hv hshort => ⟨_, exec_decExtract_of_short hv hshort, s.complete_after _⟩, ?_⟩⟩
  intro r hv h3 hr
  refine ⟨fun hfit => ⟨_, exec_decExtract_of_not_fits hv h3 hr hfit, s.complete_after _⟩,
    fun hfit => ⟨_, exec_decExtract_of_fits hv hr rfl hfit, ?_⟩⟩
  have hlen := length_extractRegisters r s.arg0n
  have houtside := s.sameOutside_storeWords .rout (extractRegisters r s.arg0n)
  rw [hlen] at houtside
  refine ⟨s.putOutput_after _ _, fun i hi => ?_, houtside⟩
  have hstored := Memory.readWord_storeWords s.mem (Buf.rout.addr 0) (extractRegisters r s.arg0n) i (by rwa [hlen])
  rw [getElem?_extractRegisters hi, ← State.addr_eq] at hstored
  exact hstored

/-! ### Extracting again -/

/-- A command that ends in the same way again leaves the same state, time apart. -/
theorem State.complete_complete_after (s : State) (c : ResCode) :
    After (s.complete c) ((s.complete c).complete c) (s.complete c) :=
  (s.complete c).complete_after c

theorem State.putOutput_again (s : State) (R : List Word) (k : Nat) (c : ResCode) :
    ((((s.storeWords .rout R).setRegcnt k).complete c).storeWords .rout R).setRegcnt k =
      ((s.storeWords .rout R).setRegcnt k).complete c := by
  show { ((s.storeWords .rout R).setRegcnt k).complete c with
    mem := Memory.storeWords (Memory.storeWords s.mem (Buf.rout.addr 0) R) (Buf.rout.addr 0) R } = _
  rw [Memory.storeWords_storeWords_same]
  rfl

/-- Registers stored in `ROUT` leave the response in `RXB` (R52). -/
theorem State.bytes_rxb_storeWords_rout (s : State) {n : Nat} {R : List Word} (hn : n ≤ 256) (hR : R.length ≤ 256) :
    (s.storeWords .rout R).bytes .rxb n = s.bytes .rxb n := by
  have honly : OnlyBuf .rout s (s.storeWords .rout R) :=
    ⟨rfl, (s.sameOutside_storeWords .rout R).mono fun a => Buf.window_of_storesWords (a := a) hR, fun _ => rfl,
      fun _ => rfl, fun h => absurd rfl h⟩
  exact honly.bytes_eq (show Buf.rout ≠ .rxb by decide) hn

/-- An extraction that delivered its registers delivers them again (R173). -/
theorem exec_decExtract_again_of_fits {k : Nat} (hv : s.valid = true) (hr : s.bytes .rxb s.rxlen = some r)
    (hlen : s.rxlen ≤ 256) (hk : min s.arg0n ((byteAt r 2).toNat / 2) = k) (hfit : 3 + 2 * k + 2 ≤ s.rxlen)
    (ht : t = ((s.storeWords .rout (extractRegisters r s.arg0n)).setRegcnt k).complete .ok) :
    exec .decExtract t = .next (t.complete .ok) := by
  have hR := (length_extractRegisters_le r s.arg0n).trans (show 127 ≤ 256 by decide)
  have hvalid : t.valid = s.valid := by simp [ht]
  have harg : t.arg0n = s.arg0n := congrArg BitVec.toNat (by simp [ht])
  have hrxlen : t.rxlen = s.rxlen := by simp [ht]
  have hbytes : t.bytes .rxb s.rxlen = some r := by
    rw [State.bytes_eq, ht, State.complete_mem, State.setRegcnt_mem, ← State.bytes_eq,
      s.bytes_rxb_storeWords_rout hlen hR, hr]
  have hsame : (t.storeWords .rout (extractRegisters r t.arg0n)).setRegcnt k = t := by
    rw [harg, ht, State.putOutput_again]
  rw [exec_decExtract_of_fits (hvalid.trans hv) (by rwa [hrxlen]) (k := k) (by rwa [harg]) (by rwa [hrxlen]), hsame]

/-- Settles O42: the extraction writes nothing that its checks or its registers depend on. -/
theorem extractingTwiceIsTheSame : Obligations.ExtractingTwiceIsTheSame := by
  intro s t hp hinv h
  obtain ⟨hcap, ⟨r, hr⟩, -⟩ := hinv
  have twice {u : State} {c : ResCode} (hs : exec .decExtract s = .next (u.complete c))
      (ht : exec .decExtract (u.complete c) = .next ((u.complete c).complete c)) :
      ∃ u, exec .decExtract t = .next u ∧ After t u t := by
    obtain rfl : u.complete c = t := Host.Outcome.next.inj (hs.symm.trans h)
    exact ⟨_, ht, u.complete_complete_after c⟩
  cases hv : s.valid with
  | false => exact twice (exec_decExtract_of_not_valid hv) (exec_decExtract_of_not_valid hv)
  | true =>
    by_cases h3 : s.rxlen < 3
    · exact twice (exec_decExtract_of_short hv h3) (exec_decExtract_of_short hv h3)
    · by_cases hfit : s.rxlen < 3 + 2 * min s.arg0n ((byteAt r 2).toNat / 2) + 2
      · exact twice (exec_decExtract_of_not_fits hv (not_lt.1 h3) hr hfit)
          (exec_decExtract_of_not_fits (s := s.complete .tooShort) hv (not_lt.1 h3) hr hfit)
      · have hlen := hcap.trans (Buf.cap_le hp .rxb)
        exact twice (exec_decExtract_of_fits hv hr rfl (not_lt.1 hfit))
          (exec_decExtract_again_of_fits hv hr hlen rfl (not_lt.1 hfit) rfl)

end Sys2Proof.Machine

/-! PROOFS. Exceptions (60_exceptions.md R201, R203, R215): the values of the result codes, how long a read can take,
and the codes each command reports. -/

namespace Sys2Proof.Machine

variable {s t : State}

/-! ### The values of the result codes -/

/-- The result codes in the order of the table of R201. -/
def ResCode.table : List ResCode :=
  [.ok, .invalidArgument, .noResponse, .truncated, .unterminated, .addressNeverSeen, .modbusException, .crc, .tooShort,
    .rxOverflow, .direction, .notValidated, .illegalCommand]

/-- The value of a result code is its place in the table. -/
theorem ResCode.table_code (c : ResCode) : ResCode.table[c.code.toNat]? = some c := by
  cases c <;> rfl

/-- Settles O12: no place of the table holds two codes, and the last place is 12. -/
theorem resultCodesHaveTheirValues : Obligations.ResultCodesHaveTheirValues := by
  refine ⟨⟨rfl, rfl, rfl, rfl, rfl, rfl, rfl, rfl, rfl, rfl, rfl, rfl, rfl⟩, fun c d h => ?_, fun c => ?_⟩
  · have hd := d.table_code
    rw [← h, c.table_code] at hd
    exact Option.some.inj hd
  · obtain ⟨hlt, -⟩ := List.getElem?_eq_some_iff.1 c.table_code
    exact Nat.le_of_lt_succ hlt

/-! ### How long a read can take -/

/-- A read ends no later than its overall timeout (R162): each tick of the loop leaves one tick less. -/
theorem Reader.loop_now_le (p : Params) (A : Byte) (L I : Nat) :
    ∀ (left now : Nat) (q : List RxEntry) (r : Reader), (Reader.loop p A L I left now q r).2.1 ≤ now + left
  | 0, now, q, r => by rw [Reader.loop]; split <;> exact Nat.le_refl _
  | left + 1, now, q, r => by
    rw [Reader.loop]
    split
    · exact Nat.le_add_right _ _
    · split
      · exact (Reader.loop_now_le p A L I left (now + 1) _ _).trans_eq (Nat.succ_add_eq_add_succ now left)
      · exact Nat.le_add_right _ _

/-- Settles O35: the loop starts at `start` with `T` ticks left. -/
theorem readerEndsByTheTimeout : Obligations.ReaderEndsByTheTimeout :=
  fun p A L T I start q => ⟨Reader.le_loop_now p A L I T start q _, Reader.loop_now_le p A L I T start q _⟩

/-! ### The codes each command reports -/

/-- The codes of R165 for the end of a read. -/
theorem ReadResult.code_mem (r : ReadResult) :
    r.code ∈ [ResCode.ok, .noResponse, .addressNeverSeen, .truncated, .unterminated, .rxOverflow] := by
  cases r <;> simp [ReadResult.code]

/-- The codes of R171 for the verdicts. -/
theorem State.judge_res_mem (s : State) (r : List Byte) (v : Verdict) :
    (s.judge r v).res ∈ [ResCode.ok, .tooShort, .crc, .modbusException] := by
  cases v <;> simp [State.judge]

/-- A wire frame reports nothing (log 4). -/
theorem exec_frame_res {i : Instr} (hi : ∀ w, encode i ≠ .command w) (h : exec i s = .next t) : t.res = s.res := by
  obtain ⟨-, F, -, rfl⟩ := exec_frame_next hi h
  exact s.deliver_res F

/-- Settles O51: an illegal word only reports; each command by what it can do, each frame as a delivery. -/
theorem eachCommandReportsItsOwnCodes : Obligations.EachCommandReportsItsOwnCodes := by
  refine ⟨fun s w e he => ⟨_, runFetched_command_of_decode_error he s, s.illegalCommand_res⟩, fun i s t h => ?_⟩
  cases i
  case crcGen append => rcases execCrcGen_next h with rfl | ⟨data, -, -, ⟨-, rfl⟩ | ⟨-, -, rfl⟩⟩ <;> simp
  case crcVerify src =>
    rcases execCrcVerify_next h with rfl | ⟨F, -, rfl⟩
    · simp
    · cases verify F <;> simp
  case encReadHolding => obtain ⟨a, -, rfl⟩ := execEncReadHolding_next h; exact s.putFrame_res _
  case encReadInput => obtain ⟨a, -, rfl⟩ := execEncReadInput_next h; exact s.putFrame_res _
  case encWriteSingle ord => obtain ⟨a, -, rfl⟩ := execEncWriteSingle_next h; exact s.putFrame_res _
  case encResetEnergy form => obtain ⟨a, -, rfl⟩ := execEncResetEnergy_next h; exact s.putFrame_res _
  case encWriteMultiple ord =>
    rcases execEncWriteMultiple_next h with ⟨-, rfl⟩ | ⟨a, V, -, -, -, rfl⟩ <;> simp
  case encCustom fc => rcases execEncCustom_next h with ⟨-, rfl⟩ | ⟨a, X, -, -, -, rfl⟩ <;> simp
  case dirTx => rw [execDirTx_next h]; exact State.finish_res _ _
  case dirRx => rw [execDirRx_next h]; exact State.finish_res _ _
  case rxDiscard => rw [execRxDiscard_next h]; exact State.complete_res _ _
  case txSend => rcases execTxSend_next h with ⟨-, rfl⟩ | ⟨F, -, -, rfl⟩ <;> simp
  case rxRead =>
    rcases execRxRead_next h with rfl | rfl | ⟨a, T, I, r, n, q, -, -, -, rfl⟩
    · simp
    · simp
    · have hcode := r.code_mem
      simp only [State.endRead_res, List.mem_cons] at hcode ⊢
      tauto
  case decValidate =>
    obtain ⟨r, -, rfl⟩ := execDecValidate_next h
    exact (s.setValid false).judge_res_mem r (validate r)
  case decExtract => rcases execDecExtract_next h with rfl | rfl | ⟨r, -, -, -, -, rfl⟩ <;> simp
  all_goals exact exec_frame_res (fun w => by simp [encode]) h

end Sys2Proof.Machine

/-! PROOFS. Reset (70_reset_and_hazards.md R230): no element holds a value after it, so the host reads none, and every
invariant holds. -/

namespace Sys2Proof.Machine

variable {p : Params} {q : List RxEntry}

/-! ### What the host reads after reset -/

/-- After reset no element holds a value (R40-R44, R230). -/
theorem State.resetOf_elemValue (p : Params) (q : List RxEntry) (b : Buf) (i : Nat) :
    (State.resetOf p q).elemValue b i = none := by
  cases b <;> rfl

/-- The first host read after reset of a register that holds no value faults (R49). -/
theorem step_resetOf_of_reg_read {r : Reg} (hr : (State.resetOf p q).regValue r = none) :
    step { State.resetOf p q with inputs := [.hostRead .w32 (p.base + r.offset)] } = .fault .unwrittenRead :=
  step_of_reg_read_none (r := r) (by cases r <;> exact hr) rfl

/-- The first host read after reset of a mapped element faults (R49). -/
theorem step_resetOf_of_elem_read {b : Buf} {i : Nat} (hp : p.wf) (hi : i < b.cap p) :
    step { State.resetOf p q with inputs := [.hostRead .w32 (p.base + b.addr i)] } = .fault .unwrittenRead :=
  step_of_read_none rfl (target_elem hp hi) (State.resetOf_elemValue p q b i)

/-- Settles O53: the table row by row, then the reads of what holds no value. -/
theorem resetLeavesTheTable : Obligations.ResetLeavesTheTable := by
  intro p q s
  obtain ⟨hde, hearly, -⟩ := s.capsWord_fields
  have configReads (off : Nat) (hoff : off = 0x0008 ∨ off = 0x000C ∨ off = 0x0010) :
      step { s with inputs := [.hostRead .w32 (p.base + off)] } = .fault .unwrittenRead := by
    rcases hoff with rfl | rfl | rfl
    · exact step_resetOf_of_reg_read (r := .slave) rfl
    · exact step_resetOf_of_reg_read (r := .timeout) rfl
    · exact step_resetOf_of_reg_read (r := .idle) rfl
  exact ⟨rfl, rfl, rfl, rfl, rfl, rfl, rfl, rfl, rfl, rfl, rfl, rfl, rfl, rfl, rfl, rfl, fun _ => rfl, rfl, rfl, rfl,
    hde, hearly, configReads, fun _ _ hp hi => step_resetOf_of_elem_read hp hi⟩

/-! ### The invariants after reset -/

/-- Memory that lists no byte is canonical (R52). -/
theorem State.resetOf_memoryInv (p : Params) (q : List RxEntry) : (State.resetOf p q).MemoryInv :=
  ⟨rfl, fun _ h => nomatch h⟩

/-- The empty `TXB[0:0)` holds its values (R34). -/
theorem State.resetOf_frameInv (p : Params) (q : List RxEntry) : (State.resetOf p q).FrameInv :=
  ⟨Nat.zero_le _, [], rfl⟩

/-- The empty `RXB[0:0)` holds its values, and no element beyond it does (R34, R41). -/
theorem State.resetOf_responseInv (p : Params) (q : List RxEntry) : (State.resetOf p q).ResponseInv :=
  ⟨Nat.zero_le _, ⟨[], rfl⟩, fun _ _ _ => rfl⟩

/-- The empty `ROUT[0:0)` holds its values (R34, R44). -/
theorem State.resetOf_outputInv (p : Params) (q : List RxEntry) : (State.resetOf p q).OutputInv :=
  ⟨Nat.zero_le _, [], rfl⟩

/-- With a line or without, the director is in Receive and `DE` is low (R45, R46). -/
theorem State.resetOf_directorInv (p : Params) (q : List RxEntry) : (State.resetOf p q).DirectorInv :=
  State.directorInv_iff.2 ⟨fun _ => rfl, fun _ => ⟨rfl, rfl⟩⟩

/-- No byte has been handed over (R37). -/
theorem State.resetOf_transmitInv (p : Params) (q : List RxEntry) : (State.resetOf p q).TransmitInv :=
  ⟨nofun, List.Pairwise.nil⟩

/-- Settles O54: `VALID` is 0 and `EXC` is 0, the queue is in order as it came, the rest is empty. -/
theorem resetMeetsTheInvariants : Obligations.ResetMeetsTheInvariants := by
  refine ⟨⟨by decide, rfl⟩, ?_⟩
  intro p q _ hq s
  have htrust : s.TrustInv := nofun
  have hexc : s.ExcInv := fun hne => absurd rfl hne
  exact ⟨State.resetOf_memoryInv p q, State.resetOf_frameInv p q, State.resetOf_responseInv p q,
    State.resetOf_outputInv p q, htrust, State.resetOf_directorInv p q, State.resetOf_transmitInv p q, hq, hexc⟩

end Sys2Proof.Machine
